-- ==== Sys2Proof/Word.lean ====
section
/-! DEFINITION. The word types of MBUS-FE. Everything is unsigned (00_scope.md R9). The registers whose width is a
parameter (TMO, ERRENV, RESCNT) hold numbers, truncated to that width (R10). -/

namespace Sys2Proof

/-- A byte; bit 0 is the least significant bit (R9). -/
abbrev Byte := BitVec 8

/-- The width of TXLEN, RXLEN and NCNT (10_state.md R30, R31). -/
abbrev Count := BitVec 9

end Sys2Proof
end

