-- ==== Sys2Proof/Config.lean ====
section
/-! DEFINITION. The constants and the open parameters of 00_scope.md R6, and the values the spec leaves free. -/

namespace Sys2Proof

/-- The opaque record value `DEC` returns; "its type is a parameter of the model" (20_memory.md R63). A number
names the value; nothing ever computes with it. [DESIGN CHOICE, safe: log 8] -/
structure RecVal where
  code : Nat
  deriving DecidableEq, Repr, Inhabited

/-- What `DEC` answers (20_memory.md R81). -/
inductive DecAnswer where
  /-- `Ok(rec, more)` -/
  | ok (record : RecVal) (more : Bool)
  /-- `Err(d)`, `d` an `ENV_W`-bit value -/
  | err (d : Nat)
  deriving DecidableEq, Repr, Inhabited

/-- The open parameters of R6, as data: no step changes them. [DESIGN CHOICE, safe: log 7] -/
structure Params where
  /-- `C_REQ`, the control byte of the data request with the FCB clear (decision D9, conflict C1). -/
  cReq : Byte
  /-- `N_WILD`, the number of wildcard bytes (decision D11); at most 245, so that the frame fits TXB
  [DESIGN CHOICE, safe: log 10]. -/
  nWild : Fin 246
  /-- `RES_CAP` (decision D18): `none` is unbounded. -/
  resCap : Option Nat
  /-- `TMO_W`, the width of TMO (decision D7, default 32). -/
  tmoW : Nat
  /-- `ENV_W`, the width of an environment error value and of ERRENV (decision D5, default 32). -/
  envW : Nat
  /-- The decoder's answers on the frames listed; on every other frame `Config.DEC` answers [log 8]. -/
  decTab : List (List Byte × DecAnswer)
  deriving DecidableEq, Repr

namespace Config

/-- `ACK`, the acknowledgement byte (R6, 30_encoding.md R91). -/
abbrev ACK : Byte := 0xE5
/-- `START_S`, start byte of a short frame (R6, R92). -/
abbrev START_S : Byte := 0x10
/-- `START_L`, start byte of a long frame (R6, R93). -/
abbrev START_L : Byte := 0x68
/-- `STOP`, stop byte of short and long frames (R6, R92, R93). -/
abbrev STOP : Byte := 0x16
/-- `C_NKE`, control byte of the link reset (R6, R96). -/
abbrev C_NKE : Byte := 0x40
/-- `C_SND_UD`, control byte of every send-user-data frame (R6, R96). -/
abbrev C_SND_UD : Byte := 0x73
/-- `FCB_MASK`, the FCB bit of a control byte: bit 5 (R6, R97). -/
abbrev FCB_MASK : Byte := 0x20
/-- `FCV_MASK`, the FCV bit of a control byte; "no rule reads it" (R6, decision D32). -/
abbrev FCV_MASK : Byte := 0x10
/-- `CI_APPRST` (R6, R100). -/
abbrev CI_APPRST : Byte := 0x50
/-- `CI_DATA` (R6, R100, decision D10). -/
abbrev CI_DATA : Byte := 0x51
/-- `A_SEC`, the address byte that says secondary addressing is in use (R6, R99). -/
abbrev A_SEC : Byte := 0xFD
/-- `PAGE_PREFIX` (R6, 41_frame_builder.md R154). -/
abbrev PAGE_PREFIX : List Byte := [0x0F, 0x02, 0x78]
/-- `PAGE_MEDIUM` (R6, R154). -/
abbrev PAGE_MEDIUM : Byte := 0x00
/-- `WILD`, the wildcard byte of the secondary address (R6, R155). -/
abbrev WILD : Byte := 0xFF
/-- `DIF_ADDR` (R6, R155). -/
abbrev DIF_ADDR : Byte := 0x01
/-- `VIF_ADDR` (R6, R155). -/
abbrev VIF_ADDR : Byte := 0x7A
/-- `SCAN_BOUND`, most bytes a long-frame read may accept without aborting (R6). -/
abbrev SCAN_BOUND : Nat := 256
/-- `RXB_CAP` in bytes (R6, decision D12). -/
abbrev RXB_CAP : Nat := 257
/-- `TXB_CAP` in bytes (R6, decision D40). -/
abbrev TXB_CAP : Nat := 261

/-- The spec's defaults of the open parameters (R6, 92_eei_decisions.md). -/
def defaults : Params := { cReq := 0x53, nWild := 4, resCap := none, tmoW := 32, envW := 32, decTab := [] }

/-- FREE VALUE: the record decoder on a frame the parameters do not list. R81: "A model must not assume anything
else of `DEC`". [log 8] -/
opaque DEC : List Byte → DecAnswer

/-- FREE VALUE: TXB byte `i`, never written since the `epoch`-th hardware reset (10_state.md R37: "every byte of TXB
and RXB is unspecified"). [log 2] -/
opaque unwrittenTxb : Nat → Nat → Byte

/-- FREE VALUE: RXB byte `i`, never written since the `epoch`-th hardware reset (R37). [log 2] -/
opaque unwrittenRxb : Nat → Nat → Byte

/-- FREE VALUE: the register with number `n` after the `epoch`-th hardware reset, for the registers R37 leaves
unspecified. [log 12] -/
opaque resetReg : Nat → Byte → Nat

/-- FREE VALUE: the `n`-th byte a host read draws (10_state.md R34, 93_implementation_defined.md U6, U7). [log 13] -/
opaque drawnByte : Nat → Byte

/-- FREE VALUE: the 9-bit length the `n`-th draw gives a host read of RES (R34, U6). [log 13] -/
opaque drawnLen : Nat → Count

/-- FREE VALUE: the frame the `n`-th draw gives a host read of RES (R34, U6). [log 13] -/
opaque drawnFrame : Nat → List Byte

/-- FREE VALUE: the record value the `n`-th draw gives a host read of RES (R34, U6). [log 13] -/
opaque drawnRecord : Nat → RecVal

/-- FREE VALUE: the more bit the `n`-th draw gives a host read of RES (R34, U6). [log 13] -/
opaque drawnMore : Nat → Bool

end Config
end Sys2Proof
end

