-- ==== Sys2Proof/Machine/Moves.lean ====
section
/-! DEFINITION. What the agents outside the block can do: the host's moves (10_state.md R33, R34; 20_memory.md R61 to
R63; 30_encoding.md R116) and the transport's answers (20_memory.md R67 to R69). -/

namespace Sys2Proof.Machine

/-- The registers of the register map (10_state.md R33), under the manual's names. -/
inductive Reg where
  | CMD | STATUS | ERR | ERRSUB | RVAL | OP | PC | ERRENV
  | ADDR | ARG | SEC0 | SEC1 | SEC2 | SEC3 | TMO
  | TXLEN | TXKIND | RXLEN | LLEN | NCNT | RESCNT
  deriving DecidableEq, Repr

/-- The two byte-addressed buffers (20_memory.md R60). -/
inductive Space where
  | TXB | RXB
  deriving DecidableEq, Repr

/-- The fields of an entry of RES (20_memory.md R63). -/
inductive ResField where
  | len | frame | record | more
  deriving DecidableEq, Repr

/-- A value a host read returns: the number a register, a byte or a length holds, the bytes of a result's frame, or a
result's record value. [log 14] -/
inductive HostVal where
  | num (v : Nat)
  | bytes (bs : List Byte)
  | record (r : RecVal)
  deriving DecidableEq, Repr

/-- One move of the host (30_encoding.md R116). [DESIGN CHOICE: log 3] -/
inductive HostMove where
  /-- `wr`: write a value to the register with this number; a write of a code to number 0x00 is `cmd`. [log 16] -/
  | wr (reg : Byte) (v : Nat)
  /-- `wrb`: write one byte of a buffer. -/
  | wrb (sp : Space) (i : Nat) (b : Byte)
  /-- `rd`: read the register with this number. -/
  | rd (reg : Byte)
  /-- `rdb`: read one byte of a buffer. -/
  | rdb (sp : Space) (i : Nat)
  /-- Read a field of entry `k` of RES. -/
  | rdRes (k : Nat) (f : ResField)
  /-- `wait`: read STATUS until `DONE = 1`; SEQ steps in between. -/
  | wait
  /-- The host makes no access; SEQ takes its next step. -/
  | seq
  /-- The hardware reset input is asserted and released (70_reset_and_hazards.md R280, R281). -/
  | hwReset
  deriving DecidableEq, Repr

/-- The transport's answer to `T.Write` and `T.SetDeadline` (R67, R68); `e` is an `ENV_W`-bit value. -/
inductive CtlAnswer where
  | ok
  | err (e : Nat)
  deriving DecidableEq, Repr

/-- The transport's answer to `T.Read` (R69); `e` is an `ENV_W`-bit value. -/
inductive ReadAnswer where
  | byte (b : Byte)
  | timeout (e : Nat)
  | err (e : Nat)
  deriving DecidableEq, Repr

/-- One completed transaction on port T: the request with its answer. [log 6] -/
inductive PortEvent where
  | write (bs : List Byte) (a : CtlAnswer)
  | setDeadline (t : Nat) (a : CtlAnswer)
  | read (a : ReadAnswer)
  deriving DecidableEq, Repr

end Sys2Proof.Machine
end

