-- ==== Sys2Proof/Machine/RegMap.lean ====
section
/-! DEFINITION. The register map of 10_state.md R33: numbers, widths, access rights. -/

namespace Sys2Proof.Machine

/-- The register with a number (R33); `none` for the reserved numbers 0x0F and 0x16 to 0xFF. -/
def Reg.ofNumber (n : Byte) : Option Reg :=
  match n.toNat with
  | 0x00 => some .CMD
  | 0x01 => some .STATUS
  | 0x02 => some .ERR
  | 0x03 => some .ERRSUB
  | 0x04 => some .RVAL
  | 0x05 => some .OP
  | 0x06 => some .PC
  | 0x07 => some .ERRENV
  | 0x08 => some .ADDR
  | 0x09 => some .ARG
  | 0x0A => some .SEC0
  | 0x0B => some .SEC1
  | 0x0C => some .SEC2
  | 0x0D => some .SEC3
  | 0x0E => some .TMO
  | 0x10 => some .TXLEN
  | 0x11 => some .TXKIND
  | 0x12 => some .RXLEN
  | 0x13 => some .LLEN
  | 0x14 => some .NCNT
  | 0x15 => some .RESCNT
  | _ => none

/-- The number of a register (R33). -/
def Reg.number : Reg → Byte
  | .CMD => 0x00 | .STATUS => 0x01 | .ERR => 0x02 | .ERRSUB => 0x03
  | .RVAL => 0x04 | .OP => 0x05 | .PC => 0x06 | .ERRENV => 0x07
  | .ADDR => 0x08 | .ARG => 0x09 | .SEC0 => 0x0A | .SEC1 => 0x0B
  | .SEC2 => 0x0C | .SEC3 => 0x0D | .TMO => 0x0E
  | .TXLEN => 0x10 | .TXKIND => 0x11 | .RXLEN => 0x12 | .LLEN => 0x13
  | .NCNT => 0x14 | .RESCNT => 0x15

/-- The width of RESCNT: "as wide as needed to count to `RES_CAP`, 32 bits if `RES_CAP` is unbounded" (R32). -/
def rescntWidth (p : Params) : Nat :=
  match p.resCap with
  | none => 32
  | some cap => cap.log2 + 1

/-- The width of a register in bits (R33; `TMO_W`, `ENV_W`: 00_scope.md R6). -/
def Reg.width (p : Params) : Reg → Nat
  | .PC => 4
  | .ERRENV => p.envW
  | .TMO => p.tmoW
  | .RESCNT => rescntWidth p
  | .TXLEN | .RXLEN | .NCNT => 9
  | .TXKIND => 1
  | .CMD | .STATUS | .ERR | .ERRSUB | .RVAL | .OP | .LLEN
  | .ADDR | .ARG | .SEC0 | .SEC1 | .SEC2 | .SEC3 => 8

/-- The registers a host write can change, CMD's commands among them (R33). -/
def Reg.hostWritable : Reg → Bool
  | .CMD | .ADDR | .ARG | .SEC0 | .SEC1 | .SEC2 | .SEC3 | .TMO | .TXLEN | .TXKIND => true
  | .STATUS | .ERR | .ERRSUB | .RVAL | .OP | .PC | .ERRENV | .RXLEN | .LLEN | .NCNT | .RESCNT => false

end Sys2Proof.Machine
end

