-- ==== Sys2Proof/Syntax.lean ====
section
/-! DEFINITION. The instructions of MBUS-FE: the seventeen commands of 30_encoding.md R111, one constructor per row of
spec/opcode_table.json. A command has no operand fields (R110): its operands are registers and buffers (R112). -/

namespace Sys2Proof

/-- A command (R111); the comment gives its code. -/
inductive Instr where
  /-- 0x01, 40_checksum_engine.md R130 -/
  | setcs
  /-- 0x02, R131 -/
  | setlen
  /-- 0x03, R132 -/
  | getfcb
  /-- 0x04, R133 -/
  | setfcb
  /-- 0x10, 41_frame_builder.md R151 -/
  | bldNke
  /-- 0x11, R152 -/
  | bldApprst
  /-- 0x12, R153 -/
  | bldReq
  /-- 0x13, R154 -/
  | bldPage
  /-- 0x14, R155 -/
  | bldSetsec
  /-- 0x15, R156 -/
  | bldSetpri
  /-- 0x20, 42_transport_io.md R171 -/
  | send
  /-- 0x21, R174 -/
  | rdack
  /-- 0x22, R179 -/
  | rdlong
  /-- 0x30, 43_decode.md R205 -/
  | decode
  /-- 0x40, 44_session.md R210 -/
  | rd1
  /-- 0x41, R211 -/
  | rdall
  /-- 0x42, R213 -/
  | pagechg
  deriving DecidableEq, Repr

end Sys2Proof
end

