-- ==== Sys2Proof/WellFormed.lean ====
section
/-! DEFINITION. Well-formedness. A command is one code with no fields (30_encoding.md R110), so every term of `Instr`
is well formed; what can be ill formed is a statement of a host program (R116), whose values must fit the register map
and the buffers, or the effect differs from what was written. The machine gives ill-formed moves the spec's meaning
too (writes ignored, bits dropped, reads of 0). -/

namespace Sys2Proof

/-- Every command is well formed: CMD8 has no operand field to check (R110). -/
def Instr.wf (_ : Instr) : Bool := true

namespace Machine

/-- A buffer index that exists (20_memory.md R60). -/
def Space.hasIndex : Space → Nat → Bool
  | .TXB, i => i < Config.TXB_CAP
  | .RXB, i => i < Config.RXB_CAP

/-- A host move means what it says: a write goes to a writable register, its value fits the register (for TXLEN: is
at most 261, R30), a buffer write goes to an existing TXB byte (RXB is read-only, R62), a read names an existing
register or byte. -/
def HostMove.wf (p : Params) : HostMove → Bool
  | .wr n v =>
    match Reg.ofNumber n with
    | some r => r.hostWritable && decide (v < 2 ^ r.width p) && (r != .TXLEN || decide (v ≤ Config.TXB_CAP))
    | none => false
  | .wrb sp i _ => sp == .TXB && sp.hasIndex i
  | .rd n => (Reg.ofNumber n).isSome
  | .rdb sp i => sp.hasIndex i
  | .rdRes _ _ => true
  | .wait => true
  | .seq => true
  | .hwReset => true

end Machine
end Sys2Proof
end

