-- ==== Sys2Proof/Decode.lean ====
section
/-! DEFINITION. The command decoder and encoder (30_encoding.md R110, R111, R113). -/

namespace Sys2Proof

/-- Why a byte sequence is no command. -/
inductive DecodeError where
  /-- Every value not in the table of R111 (R113). -/
  | illegalCmd (code : Byte)
  /-- No byte was given. -/
  | noCode
  deriving DecidableEq, Repr

/-- One row of spec/opcode_table.json: the code, the mask, the command. -/
structure OpRow where
  code : Byte
  mask : Byte
  instr : Instr
  deriving DecidableEq, Repr

/-- The opcode table (R111): "All 8 bits are the operation code" (R110). -/
def opcodeTable : List OpRow :=
  [⟨0x01, 0xFF, .setcs⟩, ⟨0x02, 0xFF, .setlen⟩, ⟨0x03, 0xFF, .getfcb⟩, ⟨0x04, 0xFF, .setfcb⟩,
   ⟨0x10, 0xFF, .bldNke⟩, ⟨0x11, 0xFF, .bldApprst⟩, ⟨0x12, 0xFF, .bldReq⟩, ⟨0x13, 0xFF, .bldPage⟩,
   ⟨0x14, 0xFF, .bldSetsec⟩, ⟨0x15, 0xFF, .bldSetpri⟩,
   ⟨0x20, 0xFF, .send⟩, ⟨0x21, 0xFF, .rdack⟩, ⟨0x22, 0xFF, .rdlong⟩,
   ⟨0x30, 0xFF, .decode⟩,
   ⟨0x40, 0xFF, .rd1⟩, ⟨0x41, 0xFF, .rdall⟩, ⟨0x42, 0xFF, .pagechg⟩]

/-- The command of a code, or `none` for an illegal code (R113). -/
def decodeCode (c : Byte) : Option Instr :=
  (opcodeTable.find? fun r => c &&& r.mask == r.code).map OpRow.instr

/-- Decode the first byte of a sequence; the rest is handed back. Total; illegal codes are rejected by name. -/
def decode : List Byte → Except DecodeError (Instr × List Byte)
  | [] => .error .noCode
  | c :: rest =>
    match decodeCode c with
    | some i => .ok (i, rest)
    | none => .error (.illegalCmd c)

/-- The code of a command (R111). -/
def Instr.code : Instr → Byte
  | .setcs => 0x01
  | .setlen => 0x02
  | .getfcb => 0x03
  | .setfcb => 0x04
  | .bldNke => 0x10
  | .bldApprst => 0x11
  | .bldReq => 0x12
  | .bldPage => 0x13
  | .bldSetsec => 0x14
  | .bldSetpri => 0x15
  | .send => 0x20
  | .rdack => 0x21
  | .rdlong => 0x22
  | .decode => 0x30
  | .rd1 => 0x40
  | .rdall => 0x41
  | .pagechg => 0x42

/-- The bytes of a command: its code alone (R110). -/
def encode (i : Instr) : List Byte := [i.code]

/-- The `n` low bytes of `w`, least significant first: the bytes of a table row in the order they are stored. -/
def bytesLE : Nat → Nat → List Byte
  | 0, _ => []
  | n + 1, w => BitVec.ofNat 8 w :: bytesLE n (w / 256)

/-- The command the decoder reads from the `nbits` bits of `w`, numbered as spec/opcode_table.json numbers them. -/
def decodeTableWord (nbits w : Nat) : Option Instr :=
  match decode (bytesLE (max 1 ((nbits + 7) / 8)) (w % 2 ^ nbits)) with
  | .ok (i, []) => some i
  | .ok (_, _ :: _) => none
  | .error _ => none

end Sys2Proof
end

