-- ==== Sys2Proof/Machine/State.lean ====
section
/-! DEFINITION. The state of MBUS-FE (10_state.md R20, 20_memory.md R60) as plain data, its value after hardware reset
(R37), and the reasons a step can stop. -/

namespace Sys2Proof.Machine

/-- A byte buffer: (index, byte) pairs, indices strictly rising. -/
abbrev Memory := List Host.Cell

/-- What an index that is not listed reads as: no value, since 10_state.md R37 leaves "every byte of TXB and RXB"
unspecified at reset. A command that uses such a byte gets a free value (`txByte`, `rxByte`). [DESIGN CHOICE, safe:
log 2] -/
def Memory.unlisted (_ : Nat) : Option Byte := none

/-- The canonical form: indices strictly rising, no entry equal to what an unlisted index reads as. -/
abbrev Memory.wf (m : Memory) : Prop :=
  (m.map Prod.fst).Pairwise (· < ·) ∧ ∀ c ∈ m, some c.2 ≠ Memory.unlisted c.1

/-- The sequencer states (10_state.md R24). The codes 11 to 15 are "never taken; no rule writes them". -/
inductive Pc where
  /-- 0: the block waits for a command -/
  | idle
  /-- 1: write the frame in TXB to the transport -/
  | txCmd
  /-- 2: set the read deadline of the acknowledgement wait -/
  | ackArm
  /-- 3: read one byte of the acknowledgement wait -/
  | ackRd
  /-- 4: loop-entry test of the read-out loop -/
  | loop
  /-- 5: build the data-request frame -/
  | reqBuild
  /-- 6: write the data-request frame to the transport -/
  | txReq
  /-- 7: set the read deadline of the long-frame scan -/
  | lfArm
  /-- 8: read one byte of the long-frame scan -/
  | lfRd
  /-- 9: check length and checksum of the frame in RXB -/
  | verify
  /-- 10: evaluate `DEC` on the frame in RXB -/
  | decode
  deriving DecidableEq, Repr

/-- The error kinds of 60_exceptions.md R241 (ERR = 0, no error, is no kind). -/
inductive ErrKind where
  | transport
  | frameNotFound
  | decode
  | ackTimeout
  | badSize
  | illegalCmd
  | resOverflow
  deriving DecidableEq, Repr

/-- An entry of RES (20_memory.md R63). -/
structure ResEntry where
  len : Count
  frame : List Byte
  record : RecVal
  more : Bool
  deriving DecidableEq, Repr

/-- The state. CMD has no field: it "holds nothing" (R23); BUSY has none: it is "computed from PC" (R26). -/
structure State where
  /-- ADDR (R21) -/
  addr : Byte
  /-- ARG (R21) -/
  arg : Byte
  /-- SEC0 (R21) -/
  sec0 : Byte
  /-- SEC1 (R21) -/
  sec1 : Byte
  /-- SEC2 (R21) -/
  sec2 : Byte
  /-- SEC3 (R21) -/
  sec3 : Byte
  /-- TMO (R22), a number below 2 to the `TMO_W` -/
  tmo : Nat
  /-- PC (R24) -/
  pc : Pc
  /-- OP (R25) -/
  op : Byte
  /-- STATUS.DONE (R26) -/
  done : Bool
  /-- STATUS.ERRF (R26) -/
  errf : Bool
  /-- STATUS.OVR (R26) -/
  ovr : Bool
  /-- STATUS.FCBT (R26, R27) -/
  fcbt : Bool
  /-- STATUS.FIRST (R26, R27) -/
  first : Bool
  /-- STATUS.MORE (R26, R27) -/
  more : Bool
  /-- STATUS.PHASE (R26, R27): false Searching, true Collecting -/
  phase : Bool
  /-- ERR (R28) -/
  err : Byte
  /-- ERRSUB (R28) -/
  errsub : Byte
  /-- ERRENV (R28), a number below 2 to the `ENV_W` -/
  errenv : Nat
  /-- RVAL (R29) -/
  rval : Byte
  /-- TXLEN (R30) -/
  txlen : Count
  /-- TXKIND (R30): 0 short frame, 1 long frame -/
  txkind : BitVec 1
  /-- RXLEN (R31) -/
  rxlen : Count
  /-- LLEN (R31) -/
  llen : Byte
  /-- NCNT (R31) -/
  ncnt : Count
  /-- RESCNT (R32), a number below 2 to the width the parameters give the register (`rescntWidth`) [log 9] -/
  rescnt : Nat
  /-- TXB (R35) -/
  txb : Memory
  /-- RXB (R35) -/
  rxb : Memory
  /-- RES (R35) -/
  res : List ResEntry
  /-- The transport's coming answers to `T.Write`. The model's own field [log 5]. -/
  writeAns : List CtlAnswer
  /-- The transport's coming answers to `T.SetDeadline`. The model's own field [log 5]. -/
  deadlineAns : List CtlAnswer
  /-- The transport's coming answers to `T.Read`. The model's own field [log 5]. -/
  readAns : List ReadAnswer
  /-- The transactions made on port T, oldest first. The model's own field [log 6]. -/
  wire : List PortEvent
  /-- The host's coming moves. The model's own field [log 3]. -/
  moves : List HostMove
  /-- What the host's last read returned. The model's own field [log 14]. -/
  rdata : HostVal
  /-- How many free values host reads have drawn. The model's own field [log 13]. -/
  draws : Nat
  /-- How many hardware resets have happened since power-on. The model's own field [log 12]. -/
  epoch : Nat
  /-- The open parameters (R6); no step writes them. The model's own field [log 7]. -/
  params : Params
  deriving DecidableEq, Repr

/-- The reasons a step stops the machine with a fault: none. Every error of the spec is recorded by `raise` and the
machine goes on in IDLE (60_exceptions.md R250). [safe: log 20] -/
inductive Fault where
  deriving DecidableEq, Repr

/-- The reasons a step has no meaning. -/
inductive Refusal where
  /-- Raised by an arm of `exec` whose command has no meaning yet. Safe. -/
  | notModelled (mnemonic : String)
  deriving DecidableEq, Repr

/-- The state after hardware reset (R37, 70_reset_and_hazards.md R280). ADDR, ARG, SEC0 to SEC3 and TMO, which R37
leaves unspecified, are 0 [DESIGN CHOICE, unsafe: log 1]; TXB and RXB list nothing [log 2]; the agents outside have
done nothing and have nothing to do [log 3 to 6]. -/
def State.reset : State where
  addr := 0
  arg := 0
  sec0 := 0
  sec1 := 0
  sec2 := 0
  sec3 := 0
  tmo := 0
  pc := .idle
  op := 0
  done := false
  errf := false
  ovr := false
  fcbt := false
  first := false
  more := false
  phase := false
  err := 0
  errsub := 0
  errenv := 0
  rval := 0
  txlen := 0
  txkind := 0
  rxlen := 0
  llen := 0
  ncnt := 0
  rescnt := 0
  txb := []
  rxb := []
  res := []
  writeAns := []
  deadlineAns := []
  readAns := []
  wire := []
  moves := []
  rdata := .num 0
  draws := 0
  epoch := 0
  params := Config.defaults

end Sys2Proof.Machine
end

