-- ==== Sys2Proof/Machine/Ops.lean ====
section
/-! DEFINITION. The named operations over memory, registers and port T: buffer reads and writes (00_scope.md R10),
command acceptance (10_state.md R23), the abort `raise` (60_exceptions.md R250), the completion `finish` (R255), the
three transport transactions (20_memory.md R67 to R69), the decoder function (R81) and hardware reset (R280). -/

namespace Sys2Proof.Machine

/-! ### Memory -/

/-- Read one index; `none` if it was never written. -/
def Memory.read : Memory → Nat → Option Byte
  | [], i => Memory.unlisted i
  | (a, b) :: m, i => if i = a then some b else Memory.read m i

/-- Write one index, keeping the canonical form. -/
def Memory.write : Memory → Nat → Byte → Memory
  | [], i, v => [(i, v)]
  | (a, b) :: m, i, v =>
    if i < a then (i, v) :: (a, b) :: m
    else if i = a then (i, v) :: m
    else (a, b) :: Memory.write m i v

/-! ### The buffers TXB and RXB (20_memory.md R61, R62) -/

/-- TXB byte `i`. A byte never written has a free value; an index that does not exist reads 0 (R61). [log 2] -/
def txByte (s : State) (i : Nat) : Byte :=
  if i < Config.TXB_CAP then (s.txb.read i).getD (Config.unwrittenTxb s.epoch i) else 0

/-- RXB byte `i`. A byte never written has a free value. [log 2] -/
def rxByte (s : State) (i : Nat) : Byte :=
  (s.rxb.read i).getD (Config.unwrittenRxb s.epoch i)

/-- `n` consecutive values of a byte function, lowest index first. -/
def readFrom (f : Nat → Byte) : Nat → Nat → List Byte
  | _, 0 => []
  | i, n + 1 => f i :: readFrom f (i + 1) n

/-- `MemRead(TXB+i, n)` (R10). -/
def txBytes (s : State) (i n : Nat) : List Byte := readFrom (txByte s) i n

/-- `MemRead(RXB+i, n)` (R10). -/
def rxBytes (s : State) (i n : Nat) : List Byte := readFrom (rxByte s) i n

/-- `MemWrite(TXB+i, 1, b)` (R10). An index that does not exist is not written (R61). -/
def writeTx (i : Nat) (b : Byte) (s : State) : State :=
  if i < Config.TXB_CAP then { s with txb := s.txb.write i b } else s

/-- `MemWrite(TXB+i, n, bs)` (R10). -/
def writeTxs : Nat → List Byte → State → State
  | _, [], s => s
  | i, b :: bs, s => writeTxs (i + 1) bs (writeTx i b s)

/-- `MemWrite(RXB+i, 1, b)` (R10). An index that does not exist is not written. [log 18] -/
def writeRx (i : Nat) (b : Byte) (s : State) : State :=
  if i < Config.RXB_CAP then { s with rxb := s.rxb.write i b } else s

/-- `Sum(s)`: the sum of all bytes mod 256, `Sum([]) = 0` (R10, 40_checksum_engine.md R136). -/
def sumBytes : List Byte → Byte
  | [] => 0
  | b :: bs => b + sumBytes bs

/-! ### Acceptance, abort, completion -/

/-- The codes of the commands that fill RES: RD1, RDALL, DECODE (R250). -/
def fillsRes (c : Byte) : Bool :=
  c == Instr.rd1.code || c == Instr.rdall.code || c == Instr.decode.code

/-- What the acceptance of every command does before its own actions (10_state.md R23). -/
def accept (c : Byte) (s : State) : State :=
  { s with op := c, done := false, errf := false, ovr := false, err := 0, errsub := 0, errenv := 0 }

/-- The code of an error kind, the value of ERR (60_exceptions.md R241). -/
def ErrKind.code : ErrKind → Byte
  | .transport => 1
  | .frameNotFound => 2
  | .decode => 3
  | .ackTimeout => 4
  | .badSize => 5
  | .illegalCmd => 6
  | .resOverflow => 7

/-- `raise K(sub, env)`: the abort, the "trap entry" of MBUS-FE (60_exceptions.md R250). An `ENV_W`-bit `env` is stored
unchanged (10_state.md R28); the register takes no more bits (00_scope.md R10). -/
def raise (k : ErrKind) (sub : Byte) (env : Nat) (s : State) : State :=
  { s with
    err := k.code
    errsub := sub
    errenv := env % 2 ^ s.params.envW
    errf := true
    done := true
    res := if fillsRes s.op then [] else s.res
    rescnt := if fillsRes s.op then 0 else s.rescnt
    pc := .idle }

/-- `finish`: the normal completion (60_exceptions.md R255). -/
def finish (s : State) : State := { s with done := true, pc := .idle }

/-- `RES <- empty ; x[RESCNT] <- 0` (43_decode.md R205, 44_session.md R212). -/
def clearRes (s : State) : State := { s with res := [], rescnt := 0 }

/-- A host write of a command's code to CMD (10_state.md R23): while idle the acceptance and then the command's own
acceptance actions, in one step; while busy nothing but OVR. [log 19] -/
def command (i : Instr) (body : State → State) (s : State) : Host.Outcome State Fault Refusal :=
  .next (if s.pc = .idle then body (accept i.code s) else { s with ovr := true })

/-- A host write of an illegal code to CMD (30_encoding.md R113, R23). -/
def illegalCommand (c : Byte) (s : State) : State :=
  if s.pc = .idle then raise .illegalCmd 0 0 (accept c s) else { s with ovr := true }

/-! ### Port T: one request, one answer, inside one step (20_memory.md R66)

While the transport has given no answer the step does not complete: nothing changes and the block stays BUSY
(70_reset_and_hazards.md R311, U5). [log 5] -/

/-- `T.Write(bs)` (R67); `k` says what the step does with the answer. -/
def tWrite (bs : List Byte) (k : CtlAnswer → State → State) (s : State) : State :=
  match s.writeAns with
  | [] => s
  | a :: rest => k a { s with writeAns := rest, wire := s.wire ++ [.write bs a] }

/-- `T.SetDeadline(t)` (R68). -/
def tSetDeadline (t : Nat) (k : CtlAnswer → State → State) (s : State) : State :=
  match s.deadlineAns with
  | [] => s
  | a :: rest => k a { s with deadlineAns := rest, wire := s.wire ++ [.setDeadline t a] }

/-- `T.Read()` (R69). -/
def tRead (k : ReadAnswer → State → State) (s : State) : State :=
  match s.readAns with
  | [] => s
  | a :: rest => k a { s with readAns := rest, wire := s.wire ++ [.read a] }

/-! ### The decoder function -/

/-- `DEC(f)`: a function of the frame alone, fixed by the parameters (R81). [log 8] -/
def decAnswer (p : Params) (f : List Byte) : DecAnswer :=
  match p.decTab.lookup f with
  | some a => a
  | none => Config.DEC f

/-! ### Hardware reset -/

/-- Assertion and release of the reset input, at any time (70_reset_and_hazards.md R280, R281): the state of R37, the
registers R37 leaves unspecified free; nothing outside the block is touched. [log 12] -/
def hwReset (s : State) : State :=
  { State.reset with
    addr := BitVec.ofNat 8 (Config.resetReg (s.epoch + 1) Reg.ADDR.number)
    arg := BitVec.ofNat 8 (Config.resetReg (s.epoch + 1) Reg.ARG.number)
    sec0 := BitVec.ofNat 8 (Config.resetReg (s.epoch + 1) Reg.SEC0.number)
    sec1 := BitVec.ofNat 8 (Config.resetReg (s.epoch + 1) Reg.SEC1.number)
    sec2 := BitVec.ofNat 8 (Config.resetReg (s.epoch + 1) Reg.SEC2.number)
    sec3 := BitVec.ofNat 8 (Config.resetReg (s.epoch + 1) Reg.SEC3.number)
    tmo := Config.resetReg (s.epoch + 1) Reg.TMO.number % 2 ^ s.params.tmoW
    writeAns := s.writeAns
    deadlineAns := s.deadlineAns
    readAns := s.readAns
    wire := s.wire
    moves := s.moves
    rdata := s.rdata
    draws := s.draws
    epoch := s.epoch + 1
    params := s.params }

end Sys2Proof.Machine
end

