-- ==== Sys2Proof/Machine/Operands.lean ====
section
/-! DEFINITION. The operand forms: the geometry of the frame in TXB (40_checksum_engine.md R134) and the bytes each
frame takes from the operand registers (30_encoding.md R101, 41_frame_builder.md R151 to R156). -/

namespace Sys2Proof.Machine

/-! ### The frame in TXB (R134) -/

/-- "correctly sized": a short frame has 5 bytes, a long one 9 to 261. -/
def correctlySized (s : State) : Bool :=
  if s.txkind = 0 then s.txlen.toNat == 5 else decide (9 ≤ s.txlen.toNat) && decide (s.txlen.toNat ≤ 261)

/-- `cidx`, the index of C. -/
def cidx (s : State) : Nat := if s.txkind = 0 then 1 else 4

/-- `lo`, the first summed index. -/
def sumLo (s : State) : Nat := if s.txkind = 0 then 1 else 4

/-- `hi`, one past the last summed index. -/
def sumHi (s : State) : Nat := if s.txkind = 0 then 3 else s.txlen.toNat - 2

/-- `csidx`, the index of the checksum. -/
def csidx (s : State) : Nat := if s.txkind = 0 then 3 else s.txlen.toNat - 2

/-- `Lval`, the value of the length byte of a long frame. -/
def lval (s : State) : Byte := BitVec.ofNat 8 (s.txlen.toNat - 6)

/-- The checksum of the frame in TXB: the sum of its summed range (R95, R130). -/
def txChecksum (s : State) : Byte := sumBytes (txBytes s (sumLo s) (sumHi s - sumLo s))

/-- The frame in TXB: `MemRead(TXB+0, x[TXLEN])` (42_transport_io.md R180). -/
def txFrame (s : State) : List Byte := txBytes s 0 s.txlen.toNat

/-- The frame in RXB: `RXB[0..RXLEN)` (43_decode.md R204). -/
def rxFrame (s : State) : List Byte := rxBytes s 0 s.rxlen.toNat

/-! ### Frame templates

`LL` and `CS` mark the length and checksum positions, which SetLength and SetChecksum fill (R150). [log 21] -/

/-- A length position, still to be filled. -/
abbrev LL : Byte := 0
/-- The checksum position, still to be filled. -/
abbrev CS : Byte := 0

/-- The link reset frame (R151). -/
def nkeBytes (s : State) : List Byte := [Config.START_S, Config.C_NKE, s.addr, CS, Config.STOP]

/-- A long frame with the given C, A, CI and payload (R93). -/
def longBytes (c a ci : Byte) (payload : List Byte) : List Byte :=
  [Config.START_L, LL, LL, Config.START_L, c, a, ci] ++ payload ++ [CS, Config.STOP]

/-- The application reset frame (R152). -/
def apprstBytes (s : State) : List Byte := longBytes Config.C_SND_UD s.addr Config.CI_APPRST []

/-- The data request frame with the FCB clear (R153). -/
def reqBytes (s : State) : List Byte := longBytes s.params.cReq s.addr Config.CI_DATA []

/-- The memory-page change frame (R154). -/
def pageBytes (s : State) : List Byte :=
  longBytes Config.C_SND_UD s.addr Config.CI_DATA (Config.PAGE_PREFIX ++ [s.arg, Config.PAGE_MEDIUM])

/-- The frame that assigns a primary address by secondary address (R155). -/
def setsecBytes (s : State) : List Byte :=
  longBytes Config.C_SND_UD Config.A_SEC Config.CI_DATA
    ([s.sec0, s.sec1, s.sec2, s.sec3] ++ List.replicate s.params.nWild Config.WILD
      ++ [Config.DIF_ADDR, Config.VIF_ADDR, s.arg])

/-- The frame that changes a primary address (R156). -/
def setpriBytes (s : State) : List Byte :=
  longBytes Config.C_SND_UD s.addr Config.CI_DATA [Config.DIF_ADDR, Config.VIF_ADDR, s.arg]

end Sys2Proof.Machine
end

