-- ==== Sys2Proof/Machine/Flags.lean ====
section
/-! DEFINITION. The flag computations: the STATUS register and its pins (10_state.md R26, R39), the FCB bit of a control
byte (30_encoding.md R97), the session flags (44_session.md R222), the scanner's flag and counters (42_transport_io.md
R175). -/

namespace Sys2Proof.Machine

/-- The code of a sequencer state, the value of register PC (10_state.md R24). -/
def Pc.code : Pc → BitVec 4
  | .idle => 0
  | .txCmd => 1
  | .ackArm => 2
  | .ackRd => 3
  | .loop => 4
  | .reqBuild => 5
  | .txReq => 6
  | .lfArm => 7
  | .lfRd => 8
  | .verify => 9
  | .decode => 10

/-- BUSY: `PC != IDLE` (R26). -/
def busy (s : State) : Bool := s.pc != .idle

/-- One flag at its bit position. -/
def flagBit (b : Bool) (i : Nat) : Byte := if b then (1 : Byte) <<< i else 0

/-- The value of STATUS (R26). -/
def status (s : State) : Byte :=
  flagBit (busy s) 0 ||| flagBit s.done 1 ||| flagBit s.errf 2 ||| flagBit s.ovr 3 |||
  flagBit s.fcbt 4 ||| flagBit s.first 5 ||| flagBit s.more 6 ||| flagBit s.phase 7

/-- The output pin `busy` (R39). -/
def pinBusy (s : State) : Bool := busy s
/-- The output pin `done` (R39). -/
def pinDone (s : State) : Bool := s.done
/-- The output pin `err` (R39). -/
def pinErr (s : State) : Bool := s.errf

/-- The FCB bit of a control byte: bit 5 (30_encoding.md R97), 1 or 0 as a byte (40_checksum_engine.md R132). -/
def fcbOf (c : Byte) : Byte := if c.getLsbD 5 then 1 else 0

/-- A control byte with its FCB bit set (R133). -/
def withFcb (c : Byte) : Byte := c ||| Config.FCB_MASK

/-- `SessionStart` (44_session.md R222). -/
def sessionStart (s : State) : State := { s with fcbt := false, first := true, more := false, pc := .loop }

/-- `ScanInit` (42_transport_io.md R175). -/
def scanInit (s : State) : State := { s with ncnt := 0, rxlen := 0, llen := 0, phase := false }

end Sys2Proof.Machine
end

