-- ==== Sys2Proof/Machine/ChecksumEngine.lean ====
section
/-! DEFINITION. The checksum engine: SETCS, SETLEN, GETFCB, SETFCB (40_checksum_engine.md). -/

namespace Sys2Proof.Machine

/-! ### The engine's functions without size check (R138) -/

/-- `SetChecksum(TXB)` (R130). -/
def setChecksum (s : State) : State := writeTx (csidx s) (txChecksum s) s

/-- `SetLength(TXB)` (R131). -/
def setLength (s : State) : State := writeTx 2 (lval s) (writeTx 1 (lval s) s)

/-- `SetFcb(TXB)` (R133): the checksum is not recomputed. -/
def setFcb (s : State) : State := writeTx (cidx s) (withFcb (txByte s (cidx s))) s

/-- The size check every engine command and SEND makes first (R135). -/
def ifCorrectlySized (body : State → State) (s : State) : State :=
  if correctlySized s then body s else raise .badSize 1 0 s

/-! ### The commands -/

/-- The acceptance action of SETCS (R130). -/
def acceptSetcs (s : State) : State := ifCorrectlySized (fun s => finish (setChecksum s)) s

/-- SETCS, code 0x01 (R130). -/
def execSetcs (s : State) : Host.Outcome State Fault Refusal := command .setcs acceptSetcs s

/-- The acceptance action of SETLEN (R131); the operation exists "for long frames" only (R135). -/
def acceptSetlen (s : State) : State :=
  if s.txkind = 1 then ifCorrectlySized (fun s => finish (setLength s)) s else raise .badSize 1 0 s

/-- SETLEN, code 0x02 (R131). -/
def execSetlen (s : State) : Host.Outcome State Fault Refusal := command .setlen acceptSetlen s

/-- The acceptance action of GETFCB (R132). -/
def acceptGetfcb (s : State) : State :=
  ifCorrectlySized (fun s => finish { s with rval := fcbOf (txByte s (cidx s)) }) s

/-- GETFCB, code 0x03 (R132). -/
def execGetfcb (s : State) : Host.Outcome State Fault Refusal := command .getfcb acceptGetfcb s

/-- The acceptance action of SETFCB (R133). -/
def acceptSetfcb (s : State) : State := ifCorrectlySized (fun s => finish (setFcb s)) s

/-- SETFCB, code 0x04 (R133). -/
def execSetfcb (s : State) : Host.Outcome State Fault Refusal := command .setfcb acceptSetfcb s

end Sys2Proof.Machine
end

