-- ==== Sys2Proof/Machine/FrameBuilder.lean ====
section
/-! DEFINITION. The frame builder: BLD_NKE, BLD_APPRST, BLD_REQ, BLD_PAGE, BLD_SETSEC, BLD_SETPRI
(41_frame_builder.md). -/

namespace Sys2Proof.Machine

/-- `x[TXLEN] <- n`, `x[TXKIND] <- k` (R150). -/
def setDescriptor (k : BitVec 1) (n : Nat) (s : State) : State := { s with txlen := BitVec.ofNat 9 n, txkind := k }

/-- `Build(k, bytes)` (R150): the bytes into `TXB[0..n)`, TXLEN and TXKIND, for a long frame SetLength, then
SetChecksum. -/
def build (k : BitVec 1) (bs : List Byte) (s : State) : State :=
  let s := setDescriptor k bs.length (writeTxs 0 bs s)
  setChecksum (if k = 1 then setLength s else s)

/-- The acceptance action of BLD_NKE (R151). -/
def acceptBldNke (s : State) : State := finish (build 0 (nkeBytes s) s)

/-- BLD_NKE, code 0x10 (R151). -/
def execBldNke (s : State) : Host.Outcome State Fault Refusal := command .bldNke acceptBldNke s

/-- The acceptance action of BLD_APPRST (R152). -/
def acceptBldApprst (s : State) : State := finish (build 1 (apprstBytes s) s)

/-- BLD_APPRST, code 0x11 (R152). -/
def execBldApprst (s : State) : Host.Outcome State Fault Refusal := command .bldApprst acceptBldApprst s

/-- The acceptance action of BLD_REQ (R153). -/
def acceptBldReq (s : State) : State := finish (build 1 (reqBytes s) s)

/-- BLD_REQ, code 0x12 (R153). -/
def execBldReq (s : State) : Host.Outcome State Fault Refusal := command .bldReq acceptBldReq s

/-- The acceptance action of BLD_PAGE (R154). -/
def acceptBldPage (s : State) : State := finish (build 1 (pageBytes s) s)

/-- BLD_PAGE, code 0x13 (R154). -/
def execBldPage (s : State) : Host.Outcome State Fault Refusal := command .bldPage acceptBldPage s

/-- The acceptance action of BLD_SETSEC (R155). -/
def acceptBldSetsec (s : State) : State := finish (build 1 (setsecBytes s) s)

/-- BLD_SETSEC, code 0x14 (R155). -/
def execBldSetsec (s : State) : Host.Outcome State Fault Refusal := command .bldSetsec acceptBldSetsec s

/-- The acceptance action of BLD_SETPRI (R156). -/
def acceptBldSetpri (s : State) : State := finish (build 1 (setpriBytes s) s)

/-- BLD_SETPRI, code 0x15 (R156). -/
def execBldSetpri (s : State) : Host.Outcome State Fault Refusal := command .bldSetpri acceptBldSetpri s

end Sys2Proof.Machine
end

