-- ==== Sys2Proof/Machine/TransportIo.lean ====
section
/-! DEFINITION. The transport unit: SEND, RDACK, RDLONG and the sequencer steps TX_CMD, TX_REQ, ACK_ARM, ACK_RD,
LF_ARM, LF_RD (42_transport_io.md). -/

namespace Sys2Proof.Machine

/-! ### Writing a frame -/

/-- The acceptance action of SEND (R171). -/
def acceptSend (s : State) : State := ifCorrectlySized (fun s => { setChecksum s with pc := .txCmd }) s

/-- SEND, code 0x20, its acceptance (R171); step TX_CMD follows. -/
def execSend (s : State) : Host.Outcome State Fault Refusal := command .send acceptSend s

/-- Step TX_CMD (R180). -/
def stepTxCmd (s : State) : State :=
  tWrite (txFrame s)
    (fun a s =>
      match a with
      | .ok => if s.op = Instr.send.code then finish s else { s with pc := .ackArm }
      | .err e => raise .transport 1 e s) s

/-- Step TX_REQ (R180). -/
def stepTxReq (s : State) : State :=
  tWrite (txFrame s)
    (fun a s =>
      match a with
      | .ok => { s with pc := .lfArm }
      | .err e => raise .transport 1 e s) s

/-! ### Acknowledgement read -/

/-- The acceptance action of RDACK (R174). -/
def acceptRdack (s : State) : State := { s with pc := .ackArm }

/-- RDACK, code 0x21, its acceptance (R174); steps ACK_ARM and ACK_RD follow. -/
def execRdack (s : State) : Host.Outcome State Fault Refusal := command .rdack acceptRdack s

/-- Step ACK_ARM (R172). -/
def stepAckArm (s : State) : State :=
  tSetDeadline s.tmo
    (fun a s =>
      match a with
      | .ok => { s with pc := .ackRd }
      | .err e => raise .transport 2 e s) s

/-- The continuation once the acknowledgement is seen (R173): SessionStart if OP is RD1 or RDALL, else `finish` (OP is
RDACK or PAGECHG). [log 17] -/
def ackSeen (s : State) : State :=
  if s.op = Instr.rd1.code ∨ s.op = Instr.rdall.code then sessionStart s else finish s

/-- Step ACK_RD (R173). -/
def stepAckRd (s : State) : State :=
  tRead
    (fun a s =>
      match a with
      | .byte b => if b = Config.ACK then ackSeen s else { s with pc := .ackArm }
      | .timeout e => raise .ackTimeout 0 e s
      | .err e => raise .transport 3 e s) s

/-! ### Long-frame read -/

/-- The acceptance action of RDLONG (R179). -/
def acceptRdlong (s : State) : State := { scanInit s with pc := .lfArm }

/-- RDLONG, code 0x22, its acceptance (R179); steps LF_ARM and LF_RD follow. -/
def execRdlong (s : State) : Host.Outcome State Fault Refusal := command .rdlong acceptRdlong s

/-- Step LF_ARM (R176). -/
def stepLfArm (s : State) : State :=
  tSetDeadline s.tmo
    (fun a s =>
      match a with
      | .ok => { s with pc := .lfRd }
      | .err e => raise .transport 2 e { s with rxlen := 0 }) s

/-- Store the next byte at `RXB[RXLEN]` and count it in RXLEN (R177). -/
def pushRx (b : Byte) (s : State) : State := { writeRx s.rxlen.toNat b s with rxlen := s.rxlen + 1 }

/-- Slide the 4-byte search window (R177). -/
def slideRx (b : Byte) (s : State) : State :=
  writeRx 3 b (writeRx 2 (rxByte s 3) (writeRx 1 (rxByte s 2) (writeRx 0 (rxByte s 1) s)))

/-- The window holds the start pattern `68 x x 68` (R177). -/
def startMatched (s : State) : Bool :=
  decide (s.rxlen.toNat = 4) && rxByte s 0 == Config.START_L && rxByte s 3 == Config.START_L && rxByte s 1 == rxByte s 2

/-- Searching: take a byte into the window; on a match latch `L` and go to Collecting (R177). -/
def searchByte (b : Byte) (s : State) : State :=
  let s := if s.rxlen.toNat < 4 then pushRx b s else slideRx b s
  if startMatched s then { s with llen := rxByte s 1, phase := true } else s

/-- Collecting: the frame is complete when the byte just stored, `b`, is the stop byte at frame index `L + 5`
(R177; conflict C3). -/
def frameComplete (b : Byte) (s : State) : Bool :=
  decide (s.rxlen.toNat = s.llen.toNat + 6) && b == Config.STOP

/-- The continuation of a complete frame (R177): VERIFY if OP is RD1 or RDALL, else `finish` (OP is RDLONG). [log 17] -/
def lfComplete (s : State) : State :=
  if s.op = Instr.rd1.code ∨ s.op = Instr.rdall.code then { s with pc := .verify } else finish s

/-- A byte that completed no frame: the bound test (R177). -/
def lfIncomplete (s : State) : State :=
  if s.ncnt.toNat > Config.SCAN_BOUND then raise .frameNotFound 0 0 { s with rxlen := 0 } else { s with pc := .lfArm }

/-- Count an accepted byte in NCNT (R177). -/
def countByte (s : State) : State := { s with ncnt := s.ncnt + 1 }

/-- What LF_RD does with a byte (R177). -/
def scanByte (b : Byte) (s : State) : State :=
  if s.phase then
    let s := pushRx b (countByte s)
    if frameComplete b s then lfComplete s else lfIncomplete s
  else lfIncomplete (searchByte b (countByte s))

/-- Step LF_RD, the scanner proper (R177). -/
def stepLfRd (s : State) : State :=
  tRead
    (fun a s =>
      match a with
      | .byte b => scanByte b s
      | .timeout e => raise .transport 4 e { s with rxlen := 0 }
      | .err e => raise .transport 3 e { s with rxlen := 0 }) s

end Sys2Proof.Machine
end

