-- ==== Sys2Proof/Machine/FrameDecode.lean ====
section
/-! DEFINITION. Frame validation and the decoder call: DECODE and the sequencer steps VERIFY and DECODE
(43_decode.md). -/

namespace Sys2Proof.Machine

/-- The acceptance action of DECODE (R205). -/
def acceptDecode (s : State) : State :=
  if s.rxlen = 0 then raise .badSize 2 0 s else { clearRes s with more := false, pc := .verify }

/-- DECODE, code 0x30, its acceptance (R205); steps VERIFY and DECODE follow. -/
def execDecode (s : State) : Host.Outcome State Fault Refusal := command .decode acceptDecode s

/-- The checksum of the frame in RXB is good: `Sum(MemRead(RXB+4, x[LLEN])) = MemRead(RXB + 4 + x[LLEN], 1)` (R203). -/
def rxChecksumOk (s : State) : Bool :=
  sumBytes (rxBytes s 4 s.llen.toNat) == rxByte s (4 + s.llen.toNat)

/-- Step VERIFY (R203). -/
def stepVerify (s : State) : State :=
  if s.llen.toNat < 3 then raise .decode 2 0 s
  else if rxChecksumOk s then { s with pc := .decode }
  else raise .decode 1 0 s

/-- `RES_CAP` is finite and RES holds that many entries (R204). -/
def resFull (s : State) : Bool := s.params.resCap == some s.rescnt

/-- `x[RESCNT] + 1`, truncated to the register's width (R204; 00_scope.md R10, 10_state.md R32). [log 9] -/
def rescntSucc (s : State) : Nat := (s.rescnt + 1) % 2 ^ rescntWidth s.params

/-- Append an entry to RES (R204; 20_memory.md R63). -/
def appendRes (record : RecVal) (more : Bool) (s : State) : State :=
  { s with
    res := s.res ++ [{ len := s.rxlen, frame := rxFrame s, record := record, more := more }]
    rescnt := rescntSucc s
    more := more }

/-- The continuation of a decoded frame (R204): LOOP if OP is RDALL, else `finish` (OP is DECODE or RD1). [log 17] -/
def decoded (s : State) : State :=
  if s.op = Instr.rdall.code then { s with pc := .loop } else finish s

/-- Step DECODE (R204). -/
def stepDecode (s : State) : State :=
  match decAnswer s.params (rxFrame s) with
  | .err d => raise .decode 3 d s
  | .ok record more => if resFull s then raise .resOverflow 0 0 s else decoded (appendRes record more s)

end Sys2Proof.Machine
end

