-- ==== Sys2Proof/Machine/Session.lean ====
section
/-! DEFINITION. The session commands RD1, RDALL, PAGECHG and the sequencer steps LOOP and REQ_BUILD (44_session.md). -/

namespace Sys2Proof.Machine

/-- `SessionInit`, the acceptance action of RD1 and RDALL (R212). -/
def sessionInit (s : State) : State :=
  { build 0 (nkeBytes s) (clearRes s) with pc := .txCmd }

/-- RD1, code 0x40, its acceptance (R210, R212). -/
def execRd1 (s : State) : Host.Outcome State Fault Refusal := command .rd1 sessionInit s

/-- RDALL, code 0x41, its acceptance (R211, R212). -/
def execRdall (s : State) : Host.Outcome State Fault Refusal := command .rdall sessionInit s

/-- The acceptance action of PAGECHG (R213). -/
def acceptPagechg (s : State) : State := { build 1 (pageBytes s) s with pc := .txCmd }

/-- PAGECHG, code 0x42, its acceptance (R213); steps TX_CMD, ACK_ARM and ACK_RD follow. -/
def execPagechg (s : State) : Host.Outcome State Fault Refusal := command .pagechg acceptPagechg s

/-- Step LOOP, the loop-entry test (R223). -/
def stepLoop (s : State) : State :=
  if s.first then { s with first := false, pc := .reqBuild }
  else if s.more then { s with fcbt := !s.fcbt, pc := .reqBuild }
  else finish s

/-- Step REQ_BUILD (R224). -/
def stepReqBuild (s : State) : State :=
  let s := build 1 (reqBytes s) s
  let s := if s.fcbt then setFcb s else s
  { scanInit (setChecksum s) with pc := .txReq }

end Sys2Proof.Machine
end

