-- ==== Sys2Proof/Machine/Dispatch.lean ====
section
/-! DEFINITION. The acceptance step of every command: one arm per constructor of `Instr`. -/

namespace Sys2Proof.Machine

def exec (i : Instr) (s : State) : Host.Outcome State Fault Refusal :=
  match i with
  | .setcs => Sys2Proof.Machine.execSetcs s
  | .setlen => Sys2Proof.Machine.execSetlen s
  | .getfcb => Sys2Proof.Machine.execGetfcb s
  | .setfcb => Sys2Proof.Machine.execSetfcb s
  | .bldNke => Sys2Proof.Machine.execBldNke s
  | .bldApprst => Sys2Proof.Machine.execBldApprst s
  | .bldReq => Sys2Proof.Machine.execBldReq s
  | .bldPage => Sys2Proof.Machine.execBldPage s
  | .bldSetsec => Sys2Proof.Machine.execBldSetsec s
  | .bldSetpri => Sys2Proof.Machine.execBldSetpri s
  | .send => Sys2Proof.Machine.execSend s
  | .rdack => Sys2Proof.Machine.execRdack s
  | .rdlong => Sys2Proof.Machine.execRdlong s
  | .decode => Sys2Proof.Machine.execDecode s
  | .rd1 => Sys2Proof.Machine.execRd1 s
  | .rdall => Sys2Proof.Machine.execRdall s
  | .pagechg => Sys2Proof.Machine.execPagechg s

end Sys2Proof.Machine
end

