-- ==== Sys2Proof/Machine/Sequencer.lean ====
section
/-! DEFINITION. One sequencer step from every sequencer state: the transition table of 44_session.md R230. -/

namespace Sys2Proof.Machine

/-- The sequencer's next step (R11, R230). In IDLE there is none: "the block waits for a command" (10_state.md R24). -/
def seqStep (s : State) : State :=
  match s.pc with
  | .idle => s
  | .txCmd => stepTxCmd s
  | .ackArm => stepAckArm s
  | .ackRd => stepAckRd s
  | .loop => stepLoop s
  | .reqBuild => stepReqBuild s
  | .txReq => stepTxReq s
  | .lfArm => stepLfArm s
  | .lfRd => stepLfRd s
  | .verify => stepVerify s
  | .decode => stepDecode s

end Sys2Proof.Machine
end

