-- ==== Sys2Proof/Machine/HostPort.lean ====
section
/-! DEFINITION. The host's accesses: the register space (10_state.md R33, R34), the buffers (20_memory.md R61 to R63),
the wait for DONE (30_encoding.md R116) and hardware reset. -/

namespace Sys2Proof.Machine

/-! ### Registers -/

/-- The number a register holds; the bits above its width read 0 (R33), so it is the number itself. CMD reads 0
(R23). -/
def regValue (s : State) : Reg → Nat
  | .CMD => 0
  | .STATUS => (status s).toNat
  | .ERR => s.err.toNat
  | .ERRSUB => s.errsub.toNat
  | .RVAL => s.rval.toNat
  | .OP => s.op.toNat
  | .PC => s.pc.code.toNat
  | .ERRENV => s.errenv
  | .ADDR => s.addr.toNat
  | .ARG => s.arg.toNat
  | .SEC0 => s.sec0.toNat
  | .SEC1 => s.sec1.toNat
  | .SEC2 => s.sec2.toNat
  | .SEC3 => s.sec3.toNat
  | .TMO => s.tmo
  | .TXLEN => s.txlen.toNat
  | .TXKIND => s.txkind.toNat
  | .RXLEN => s.rxlen.toNat
  | .LLEN => s.llen.toNat
  | .NCNT => s.ncnt.toNat
  | .RESCNT => s.rescnt

/-- A host read of a register number: a reserved number reads 0 (R33). Busy or idle (R34). -/
def readReg (s : State) (n : Byte) : Nat :=
  match Reg.ofNumber n with
  | some r => regValue s r
  | none => 0

/-- The value TXLEN stores: "A host write of a TXLEN value above 261 stores 261" (R30). [log 11] -/
def clampTxlen (v : Count) : Count := if v.toNat > Config.TXB_CAP then 261 else v

/-- Store a host write in a register, bits above its width ignored; a read-only register ignores it (R33). CMD stores
nothing: its writes are commands (R23). [log 16] -/
def storeReg (r : Reg) (v : Nat) (s : State) : State :=
  match r with
  | .ADDR => { s with addr := BitVec.ofNat 8 v }
  | .ARG => { s with arg := BitVec.ofNat 8 v }
  | .SEC0 => { s with sec0 := BitVec.ofNat 8 v }
  | .SEC1 => { s with sec1 := BitVec.ofNat 8 v }
  | .SEC2 => { s with sec2 := BitVec.ofNat 8 v }
  | .SEC3 => { s with sec3 := BitVec.ofNat 8 v }
  | .TMO => { s with tmo := v % 2 ^ s.params.tmoW }
  | .TXLEN => { s with txlen := clampTxlen (BitVec.ofNat 9 v) }
  | .TXKIND => { s with txkind := BitVec.ofNat 1 v }
  | .CMD | .STATUS | .ERR | .ERRSUB | .RVAL | .OP | .PC | .ERRENV
  | .RXLEN | .LLEN | .NCNT | .RESCNT => s

/-- A host write of a code to CMD (R23, R113): the fetch of MBUS-FE. -/
def writeCmd (c : Byte) (s : State) : Host.Outcome State Fault Refusal :=
  match decode [c] with
  | .ok (i, _) => exec i s
  | .error _ => .next (illegalCommand c s)

/-- A host write to a register number: a reserved number ignores it (R33), a busy block ignores it (R34) unless it goes
to CMD. -/
def writeReg (n : Byte) (v : Nat) (s : State) : Host.Outcome State Fault Refusal :=
  match Reg.ofNumber n with
  | some .CMD => writeCmd (BitVec.ofNat 8 v) s
  | some r => .next (if busy s then s else storeReg r v s)
  | none => .next s

/-! ### Buffers -/

/-- A host write of a buffer byte: TXB while idle (20_memory.md R61); RXB is read-only (R62); busy ignores it (R34). -/
def writeBuf (sp : Space) (i : Nat) (b : Byte) (s : State) : State :=
  match sp with
  | .TXB => if busy s then s else writeTx i b s
  | .RXB => s

/-- A value returned to the host. -/
def returnVal (v : HostVal) (s : State) : State := { s with rdata := v }

/-- A free value returned to the host (R34, U6, U7). [log 13] -/
def returnDraw (v : HostVal) (s : State) : State := { s with rdata := v, draws := s.draws + 1 }

/-- A byte as a host read returns it. -/
def byteVal (b : Byte) : HostVal := .num b.toNat

/-- A host read of a buffer byte: while busy any value (R34); TXB gives what the byte last held (R61); RXB gives a byte
of the frame, any value beyond it (R62, U7). -/
def readBuf (sp : Space) (i : Nat) (s : State) : State :=
  let drawn := returnDraw (byteVal (Config.drawnByte s.draws)) s
  if busy s then drawn
  else
    match sp with
    | .TXB => returnVal (byteVal (txByte s i)) s
    | .RXB => if i < s.rxlen.toNat then returnVal (byteVal (rxByte s i)) s else drawn

/-- A field of a result as the host reads it (20_memory.md R63). -/
def ResEntry.field (e : ResEntry) : ResField → HostVal
  | .len => .num e.len.toNat
  | .frame => .bytes e.frame
  | .record => .record e.record
  | .more => .num (if e.more then 1 else 0)

/-- The `n`-th free result (U6). [log 13] -/
def drawnEntry (n : Nat) : ResEntry where
  len := Config.drawnLen n
  frame := Config.drawnFrame n
  record := Config.drawnRecord n
  more := Config.drawnMore n

/-- A host read of a result's field: while busy, or of an entry that does not exist, any value (R34, R63). -/
def readRes (k : Nat) (f : ResField) (s : State) : State :=
  let drawn := returnDraw ((drawnEntry s.draws).field f) s
  if busy s then drawn
  else
    match s.res[k]? with
    | some e => returnVal (e.field f) s
    | none => drawn

/-! ### One move -/

/-- The host's move `m`, with `rest` still to come. `wait` stays at the head until DONE is read as 1, SEQ stepping in
between (R116). [log 3] -/
def hostMove (m : HostMove) (rest : List HostMove) (s : State) : Host.Outcome State Fault Refusal :=
  match m with
  | .wr n v => writeReg n v { s with moves := rest }
  | .wrb sp i b => .next (writeBuf sp i b { s with moves := rest })
  | .rd n => .next (returnVal (.num (readReg s n)) { s with moves := rest })
  | .rdb sp i => .next (readBuf sp i { s with moves := rest })
  | .rdRes k f => .next (readRes k f { s with moves := rest })
  | .wait =>
    .next (if s.done then returnVal (.num (readReg s Reg.STATUS.number)) { s with moves := rest } else seqStep s)
  | .seq => .next (seqStep { s with moves := rest })
  | .hwReset => .next (hwReset { s with moves := rest })

end Sys2Proof.Machine
end

