-- ==== Sys2Proof/Machine/Step.lean ====
section
/-! DEFINITION. One step of the machine, and where the next command is fetched. -/

namespace Sys2Proof.Machine

/-- One step: the host's next move, if it has one, else the sequencer's next step (00_scope.md R11, 20_memory.md R75).
[log 3] -/
def step (s : State) : Host.Outcome State Fault Refusal :=
  match s.moves with
  | [] => .next (seqStep s)
  | m :: rest => hostMove m rest s

/-- The state whose next step is the host's write of the `nbits`-bit word `w` to CMD in an idle block: MBUS-FE does not
fetch commands, the host delivers them (20_memory.md R79). [log 4] -/
def State.withFetchWord (s : State) (nbits w : Nat) : State :=
  { s with pc := .idle, moves := .wr Reg.CMD.number (w % 2 ^ nbits) :: s.moves }

end Sys2Proof.Machine
end

