-- ==== Sys2Proof/Machine/Pseudo.lean ====
section
/-! DEFINITION. Host programs: the statement `cmd` (30_encoding.md R116) and the expansion of each call of the source's
interface into host moves (R117). -/

namespace Sys2Proof.Machine

/-- `wr <REG>, <value>`. -/
def wr (r : Reg) (v : Nat) : HostMove := .wr r.number v

/-- `wr <REG>, <value>` for an 8-bit register. -/
def wr8 (r : Reg) (b : Byte) : HostMove := .wr r.number b.toNat

/-- `rd <REG>`. -/
def rd (r : Reg) : HostMove := .rd r.number

/-- `cmd <MNEMONIC>`: write the mnemonic's code to CMD. -/
def cmd (i : Instr) : HostMove := wr8 .CMD i.code

namespace Pseudo

/-- The reset frame for `primary`. -/
def resetFrame (primary : Byte) : List HostMove := [wr8 .ADDR primary, cmd .bldNke, .wait]

/-- `ApplicationReset(primary)`. -/
def applicationReset (primary : Byte) : List HostMove := [wr8 .ADDR primary, cmd .bldApprst, .wait]

/-- `RequestUD2(primary)`. -/
def requestUD2 (primary : Byte) : List HostMove := [wr8 .ADDR primary, cmd .bldReq, .wait]

/-- The page-change frame. -/
def pageChange (primary page : Byte) : List HostMove :=
  [wr8 .ADDR primary, wr8 .ARG page, cmd .bldPage, .wait]

/-- Address set by secondary address. -/
def setBySecondary (b0 b1 b2 b3 new : Byte) : List HostMove :=
  [wr8 .SEC0 b0, wr8 .SEC1 b1, wr8 .SEC2 b2, wr8 .SEC3 b3, wr8 .ARG new, cmd .bldSetsec, .wait]

/-- Address set by primary address. -/
def setByPrimary (old new : Byte) : List HostMove :=
  [wr8 .ADDR old, wr8 .ARG new, cmd .bldSetpri, .wait]

/-- `frame.SetChecksum()`. -/
def setChecksum : List HostMove := [cmd .setcs, .wait]

/-- `frame.SetLength()`. -/
def setLength : List HostMove := [cmd .setlen, .wait]

/-- `frame.FCB()`. -/
def fcb : List HostMove := [cmd .getfcb, .wait, rd .RVAL]

/-- `frame.SetFCB()`. -/
def setFCB : List HostMove := [cmd .setfcb, .wait]

/-- Read entry `k` of RES: its four fields (20_memory.md R63). -/
def readEntry (k : Nat) : List HostMove := [.rdRes k .len, .rdRes k .frame, .rdRes k .record, .rdRes k .more]

/-- Read the entries of RES from number `k` on, `n` of them, in order. -/
def readEntries : Nat → Nat → List HostMove
  | _, 0 => []
  | k, n + 1 => readEntry k ++ readEntries (k + 1) n

/-- `ReadSingleFrame(primary, timeout)`; RES holds one entry after an RD1 without error (44_session.md R210). -/
def readSingleFrame (primary : Byte) (timeout : Nat) : List HostMove :=
  [wr8 .ADDR primary, wr .TMO timeout, cmd .rd1, .wait, rd .ERR, rd .RESCNT] ++ readEntries 0 1

/-- `ReadAllFrames(primary, timeout)`; `rescnt` is the number of entries the read of RESCNT gives, the number of entries
RES has to be read (R211). [log 3] -/
def readAllFrames (primary : Byte) (timeout : Nat) (rescnt : Nat) : List HostMove :=
  [wr8 .ADDR primary, wr .TMO timeout, cmd .rdall, .wait, rd .ERR, rd .RESCNT] ++ readEntries 0 rescnt

/-- `SendPageChange(primary, page, timeout)`. -/
def sendPageChange (primary page : Byte) (timeout : Nat) : List HostMove :=
  [wr8 .ADDR primary, wr8 .ARG page, wr .TMO timeout, cmd .pagechg, .wait, rd .ERR]

end Pseudo
end Sys2Proof.Machine
end

