-- ==== Sys2Proof/Safety.lean ====
section
/-! DEFINITION. The terms claims use: runs, safe states, what a command leaves behind, the frames of 30_encoding.md
R101, the start pattern, and the invariants of the machine. -/

namespace Sys2Proof.Machine

/-- `n` steps of the machine. -/
def run (n : Nat) (s : State) : Host.Outcome State Fault Refusal := Host.Core.run Sys2Proof.core n s

/-- A state is safe if its step answers a next state: no fault, no refusal. -/
def SafeAt (s : State) : Prop := ∃ t, step s = .next t

/-- `n` sequencer steps with no host move in between. -/
def seqRun : Nat → State → State
  | 0, s => s
  | n + 1, s => seqRun n (seqStep s)

/-! ### What a command leaves behind (10_state.md R23, 60_exceptions.md R250, R255) -/

/-- An idle block after a command with code `c` was accepted and finished in the same step, its results apart. -/
def afterCommand (c : Byte) (s : State) : State :=
  { s with op := c, done := true, errf := false, ovr := false, err := 0, errsub := 0, errenv := 0 }

/-- An idle block after a command with code `c` was accepted and raised in the same step, RES apart. -/
def afterAbort (c err errsub : Byte) (s : State) : State :=
  { s with op := c, done := true, errf := true, ovr := false, err := err, errsub := errsub, errenv := 0 }

/-- An idle block after a command with code `c` was accepted and left IDLE for `p`, its results apart. -/
def running (c : Byte) (p : Pc) (s : State) : State :=
  { s with pc := p, op := c, done := false, errf := false, ovr := false, err := 0, errsub := 0, errenv := 0 }

/-! ### Frames -/

/-- The descriptor of a correctly sized short frame (40_checksum_engine.md R134). -/
def ShortSized (s : State) : Prop := s.txkind = 0 ∧ s.txlen.toNat = 5

/-- The descriptor of a correctly sized long frame (R134). -/
def LongSized (s : State) : Prop := s.txkind = 1 ∧ 9 ≤ s.txlen.toNat ∧ s.txlen.toNat ≤ 261

/-- The bytes of a frame are `bs` and the rest of TXB is as it was in `s`. -/
def txbHolds (bs : List Byte) (s t : State) : Prop := ∀ i, txByte t i = if i < bs.length then bs.getD i 0 else txByte s i

/-- The link reset frame on the wire (R101). -/
def linkResetFrame (a : Byte) : List Byte := [0x10, 0x40, a, 0x40 + a, 0x16]

/-- The control byte of a data request (30_encoding.md R96): `C_REQ`, with bit 5 set if the FCB is set. -/
def requestC (p : Params) (fcb : Bool) : Byte := if fcb then p.cReq ||| 0x20 else p.cReq

/-- The data request frame on the wire (R101). -/
def requestFrame (p : Params) (a : Byte) (fcb : Bool) : List Byte :=
  [0x68, 3, 3, 0x68, requestC p fcb, a, 0x51, requestC p fcb + a + 0x51, 0x16]

/-- The page-change frame on the wire (R101). -/
def pageFrame (a page : Byte) : List Byte :=
  [0x68, 8, 8, 0x68, 0x73, a, 0x51, 0x0F, 0x02, 0x78, page, 0x00, 0x73 + a + 0x51 + 0x0F + 0x02 + 0x78 + page, 0x16]

/-- A long frame with the counted bytes `body` (30_encoding.md R93): start, L, L, start, body, checksum, stop. -/
def longFrame (body : List Byte) : List Byte :=
  [0x68, BitVec.ofNat 8 body.length, BitVec.ofNat 8 body.length, 0x68] ++ body ++ [sumBytes body, 0x16]

/-- The checksum byte of a frame is the checksum of its bytes (30_encoding.md R95): short frames have 5 bytes, long
frames 9 to 261. -/
def checksumFresh (f : List Byte) : Prop :=
  (f.length = 5 ∧ f.getD 3 0 = f.getD 1 0 + f.getD 2 0) ∨
  (9 ≤ f.length ∧ f.length ≤ 261 ∧ f.getD (f.length - 2) 0 = sumBytes ((f.drop 4).take (f.length - 6)))

/-- The start pattern `68 x x 68` stands at index `g` of a stream (30_encoding.md R102). -/
abbrev startAt (bs : List Byte) (g : Nat) : Prop :=
  bs[g]? = some 0x68 ∧ bs[g + 3]? = some 0x68 ∧ bs[g + 1]? = bs[g + 2]?

/-- `g` is the first index of a stream where the start pattern stands (42_transport_io.md R178). -/
abbrev firstStart (bs : List Byte) (g : Nat) : Prop := startAt bs g ∧ ∀ h < g, ¬startAt bs h

/-- The stream `bs` ends with the stop byte of a frame that starts after `g` bytes of garbage (R178): the start pattern
stands first at `g`, the length byte there makes the frame end with the stream, and the last byte is the stop byte. -/
abbrev frameAfter (bs : List Byte) (g : Nat) : Prop :=
  firstStart bs g ∧ bs.length = g + (bs.getD (g + 1) 0).toNat + 6 ∧ bs.getLast? = some 0x16

/-! ### What goes over port T -/

/-- The transactions that read the bytes `bs`: before every read the deadline is set to `t` (20_memory.md R68). -/
def armedReads (t : Nat) : List Byte → List PortEvent
  | [] => []
  | b :: bs => .setDeadline t .ok :: .read (.byte b) :: armedReads t bs

/-- A device's answer to one data request: the bytes it sends, the frame in them, the record `DEC` finds there. -/
structure Reply where
  stream : List Byte
  frame : List Byte
  record : RecVal
  deriving DecidableEq, Repr

/-- The reply holds a frame the scanner returns (R178), VERIFY accepts (43_decode.md R203) and `DEC` decodes with this
more bit (R204). -/
def Reply.good (p : Params) (more : Bool) (r : Reply) : Prop :=
  (∃ g, frameAfter r.stream g ∧ r.frame = r.stream.drop g) ∧ r.stream.length ≤ 257 ∧ 9 ≤ r.frame.length ∧
  r.frame.getD (r.frame.length - 2) 0 = sumBytes ((r.frame.drop 4).take (r.frame.length - 6)) ∧
  decAnswer p r.frame = .ok r.record more

/-- The entry of RES a reply leaves (20_memory.md R63). -/
def Reply.entry (r : Reply) (more : Bool) : ResEntry where
  len := BitVec.ofNat 9 r.frame.length
  frame := r.frame
  record := r.record
  more := more

/-- The transactions of the data requests from number `k` on, each followed by the reads of its answer: request `k` has
FCB = `k mod 2` (44_session.md R231). -/
def requestLog (p : Params) (a : Byte) (t : Nat) : Nat → List (List Byte) → List PortEvent
  | _, [] => []
  | k, bs :: rest => .write (requestFrame p a (decide (k % 2 = 1))) .ok :: (armedReads t bs ++ requestLog p a t (k + 1) rest)

/-- The frames written to the transport in a log, with or without error, oldest first. -/
def written : List PortEvent → List (List Byte)
  | [] => []
  | .write bs _ :: l => bs :: written l
  | .setDeadline _ _ :: l => written l
  | .read _ :: l => written l

/-! ### Invariants -/

/-- TXB and RXB are in canonical form and list existing indices only (20_memory.md R60); TXLEN is a legal value
(10_state.md R30). -/
def MemoryOk (s : State) : Prop :=
  s.txb.wf ∧ s.rxb.wf ∧ (∀ c ∈ s.txb, c.1 < 261) ∧ (∀ c ∈ s.rxb, c.1 < 257) ∧ s.txlen.toNat ≤ 261

/-- The registers whose width is a parameter hold no more bits than that (10_state.md R22, R28, R32; 00_scope.md R6). -/
def WidthsOk (s : State) : Prop :=
  s.tmo < 2 ^ s.params.tmoW ∧ s.errenv < 2 ^ s.params.envW ∧ s.rescnt < 2 ^ rescntWidth s.params

/-- What RESCNT holds for `n` results: `n` if `RES_CAP` is finite, since it is "as wide as needed to count to
`RES_CAP`", and `n` in 32 bits if `RES_CAP` is unbounded (10_state.md R32). [log 9] -/
def resCount (p : Params) (n : Nat) : Nat :=
  match p.resCap with
  | none => n % 2 ^ 32
  | some _ => n

/-- RESCNT counts RES (10_state.md R32), and RES holds at most `RES_CAP` entries (R6). [log 9] -/
def ResultsOk (s : State) : Prop :=
  s.rescnt = resCount s.params s.res.length ∧ ∀ cap, s.params.resCap = some cap → s.res.length ≤ cap

/-- The commands that can be running in a sequencer state (44_session.md R230). -/
def mayRun : Pc → List Byte
  | .idle => []
  | .txCmd => [Instr.send.code, Instr.pagechg.code, Instr.rd1.code, Instr.rdall.code]
  | .ackArm => [Instr.rdack.code, Instr.pagechg.code, Instr.rd1.code, Instr.rdall.code]
  | .ackRd => [Instr.rdack.code, Instr.pagechg.code, Instr.rd1.code, Instr.rdall.code]
  | .loop => [Instr.rd1.code, Instr.rdall.code]
  | .reqBuild => [Instr.rd1.code, Instr.rdall.code]
  | .txReq => [Instr.rd1.code, Instr.rdall.code]
  | .lfArm => [Instr.rdlong.code, Instr.rd1.code, Instr.rdall.code]
  | .lfRd => [Instr.rdlong.code, Instr.rd1.code, Instr.rdall.code]
  | .verify => [Instr.decode.code, Instr.rd1.code, Instr.rdall.code]
  | .decode => [Instr.decode.code, Instr.rd1.code, Instr.rdall.code]

/-- A busy block runs a command that can be in that state. -/
def CommandOk (s : State) : Prop := s.pc ≠ .idle → s.op ∈ mayRun s.pc

/-- The rows of 60_exceptions.md R242 (and no error): ERR, ERRSUB, and whether ERRENV may be other than 0. -/
def errorRows : List (Byte × Byte × Bool) :=
  [(0, 0, false), (1, 1, true), (1, 2, true), (1, 3, true), (1, 4, true), (2, 0, false), (3, 1, false), (3, 2, false),
   (3, 3, true), (4, 0, true), (5, 1, false), (5, 2, false), (6, 0, false), (7, 0, false)]

/-- The error registers hold a row of R242, ERRF says whether it is an error, a busy block has none (R255). -/
def ErrorsOk (s : State) : Prop :=
  (∃ r ∈ errorRows, s.err = r.1 ∧ s.errsub = r.2.1 ∧ (r.2.2 = false → s.errenv = 0)) ∧
  (s.errf = true ↔ s.err ≠ 0) ∧ (s.errf = true → s.done = true) ∧
  (s.pc ≠ .idle → s.done = false ∧ s.errf = false)

/-- RXB holds a received frame: the precondition of step VERIFY (43_decode.md R203). -/
def FrameInRxb (s : State) : Prop :=
  s.rxlen.toNat = s.llen.toNat + 6 ∧ s.rxlen.toNat ≤ 257 ∧ rxByte s 0 = 0x68 ∧ rxByte s 3 = 0x68 ∧
  rxByte s 1 = s.llen ∧ rxByte s 2 = s.llen ∧ rxByte s (s.rxlen.toNat - 1) = 0x16

/-- A scan in progress (42_transport_io.md R177): while Searching the window holds the last `min(NCNT, 4)` bytes
(10_state.md R36); while Collecting the stored bytes begin with the start pattern. -/
def ScanInProgress (s : State) : Prop :=
  s.ncnt.toNat ≤ 256 ∧
  (s.phase = false → s.rxlen.toNat = min s.ncnt.toNat 4) ∧
  (s.phase = true → 4 ≤ s.rxlen.toNat ∧ s.rxlen.toNat ≤ s.ncnt.toNat ∧
    rxByte s 0 = 0x68 ∧ rxByte s 3 = 0x68 ∧ rxByte s 1 = s.llen ∧ rxByte s 2 = s.llen)

/-- The scanner's registers fit the sequencer state: a scan in progress in LF_ARM and LF_RD, one just initialised in
TX_REQ, a received frame in VERIFY and DECODE, else a received frame or nothing. -/
def ScanOk (s : State) : Prop :=
  s.ncnt.toNat ≤ 257 ∧
  match s.pc with
  | .lfArm | .lfRd => ScanInProgress s
  | .txReq => s.rxlen = 0 ∧ s.ncnt = 0 ∧ s.phase = false
  | .verify | .decode => FrameInRxb s
  | .idle | .txCmd | .ackArm | .ackRd | .loop | .reqBuild => s.rxlen = 0 ∨ FrameInRxb s

/-- Every read on port T is made directly after a deadline was set with success, and the sequencer is about to read only
when the last thing it did was to set the deadline to TMO (20_memory.md R68, R76). -/
def DeadlinesOk (s : State) : Prop :=
  (∀ i a, s.wire[i]? = some (.read a) → ∃ j t, i = j + 1 ∧ s.wire[j]? = some (.setDeadline t .ok)) ∧
  (s.pc = .ackRd ∨ s.pc = .lfRd → s.wire.getLast? = some (.setDeadline s.tmo .ok))

/-- No frame with a stale checksum was written to port T or is about to be. -/
def ChecksumsOk (s : State) : Prop :=
  (∀ f ∈ written s.wire, checksumFresh f) ∧ (s.pc = .txCmd ∨ s.pc = .txReq → checksumFresh (txFrame s))

/-- The command being executed or last accepted is a session that fills RES. -/
def inReadOut (s : State) : Prop := s.op = Instr.rd1.code ∨ s.op = Instr.rdall.code

/-- The session's flags fit the results so far (44_session.md R211, R222 to R224, R231, R233): the FCB toggle of the
`k`-th data request is `k mod 2`, every result but the last says that more records follow, and a session that ended
without error leaves what R233 says. -/
def SessionOk (s : State) : Prop :=
  inReadOut s →
  match s.pc with
  | .txCmd | .ackArm | .ackRd => s.res = []
  | .loop =>
    (s.first = true → s.res = [] ∧ s.fcbt = false) ∧
    (s.first = false → s.op = Instr.rdall.code ∧ s.res ≠ [] ∧ s.fcbt = decide ((s.res.length - 1) % 2 = 1) ∧
      (s.res.getLast?.map ResEntry.more) = some s.more ∧ ∀ e ∈ s.res.dropLast, e.more = true)
  | .reqBuild | .lfArm | .lfRd | .verify | .decode =>
    s.first = false ∧ s.fcbt = decide (s.res.length % 2 = 1) ∧ (∀ e ∈ s.res, e.more = true) ∧
    (s.op = Instr.rd1.code → s.res = [])
  | .txReq =>
    s.first = false ∧ s.fcbt = decide (s.res.length % 2 = 1) ∧ (∀ e ∈ s.res, e.more = true) ∧
    (s.op = Instr.rd1.code → s.res = []) ∧
    txFrame s = requestFrame s.params s.addr (decide (s.res.length % 2 = 1))
  | .idle =>
    s.done = true → s.errf = false →
    s.first = false ∧ s.res ≠ [] ∧ s.fcbt = decide ((s.res.length - 1) % 2 = 1) ∧
    (s.res.getLast?.map ResEntry.more) = some s.more ∧ (∀ e ∈ s.res.dropLast, e.more = true) ∧
    (s.op = Instr.rd1.code → s.res.length = 1) ∧ (s.op = Instr.rdall.code → s.more = false)

end Sys2Proof.Machine
end

