-- ==== Sys2Proof/Certificates/Slice0/Obligations.lean ====
section
/-! DEFINITION. The statements about MBUS-FE. Each docstring names the rules of spec/ it formalises. A statement about a
command is about the host's write of its code to CMD (`exec`); the steps that follow are `seqStep` (log 19). In every
statement the values the spec leaves open (the parameters, `DEC`, unwritten buffer bytes) are arbitrary. -/

open Sys2Proof Sys2Proof.Machine

/-! ### Commands and their encoding -/

/-- R110, R111: a command is one byte, its code; decoding an encoding gives the command back with the rest of the bytes,
and no other code means it. -/
def Obligations.EveryCodeNamesOneCommand : Prop :=
  ∀ i : Instr, (∀ rest, decode (encode i ++ rest) = .ok (i, rest)) ∧ ∀ c : Byte, decodeCode c = some i ↔ c = i.code

/-- R111: one code of each family. -/
def Obligations.SampleCodesDecode : Prop :=
  decode [0x01] = .ok (.setcs, []) ∧ decode [0x14] = .ok (.bldSetsec, []) ∧ decode [0x22] = .ok (.rdlong, []) ∧
  decode [0x30] = .ok (.decode, []) ∧ decode [0x41] = .ok (.rdall, []) ∧ decode [0x16] = .error (.illegalCmd 0x16)

/-- R113: the illegal codes; an idle block accepts one, raises IllegalCmd, and changes nothing else. -/
def Obligations.IllegalCodeRaisesIllegalCmd : Prop :=
  ∀ c : Byte,
    (c = 0x00 ∨ 0x05 ≤ c ∧ c ≤ 0x0F ∨ 0x16 ≤ c ∧ c ≤ 0x1F ∨ 0x23 ≤ c ∧ c ≤ 0x2F ∨ 0x31 ≤ c ∧ c ≤ 0x3F ∨ 0x43 ≤ c) →
    decodeCode c = none ∧
    ∀ (s : State) (rest : List HostMove), s.pc = .idle → s.moves = .wr 0x00 c.toNat :: rest →
      step s = .next { afterAbort c 6 0 s with moves := rest }

/-- What one step of the machine is. A host write of a code to register 0x00 runs the decoded command (R23, R79; that a
write carries any number and CMD takes its low 8 bits is the model's choice, log 16). That the host's moves are a list,
that the sequencer takes its step (R11) when no move is left or the next one is `seq`, and that `wait` (R116: "reads
STATUS until `DONE = 1`") lets it step while DONE is 0 is the model's choice (log 3); so is placing a command word
(`withFetchWord`, log 4). -/
def Obligations.StepRunsTheDecodedCommand : Prop :=
  (∀ (s : State) (v : Nat) (rest : List HostMove) (i : Instr), s.moves = .wr 0x00 v :: rest →
    decodeCode (BitVec.ofNat 8 v) = some i → step s = exec i { s with moves := rest }) ∧
  (∀ s : State, s.moves = [] → step s = .next (seqStep s)) ∧
  (∀ (s : State) (rest : List HostMove), s.moves = .seq :: rest → step s = .next (seqStep { s with moves := rest })) ∧
  (∀ (s : State) (rest : List HostMove), s.moves = .wait :: rest →
    (s.done = false → step s = .next (seqStep s)) ∧
    (s.done = true → step s = .next { s with moves := rest, rdata := .num (status s).toNat })) ∧
  ∀ (s : State) (nbits w : Nat) (i : Instr), decodeTableWord nbits w = some i →
    step (s.withFetchWord nbits w) = exec i { s with pc := .idle }

/-- R23: a busy block drops a command, legal or not; only OVR tells. -/
def Obligations.CommandWhileBusyOnlySetsOvr : Prop :=
  ∀ s : State, s.pc ≠ .idle → (∀ i, exec i s = .next { s with ovr := true }) ∧
    ∀ (c : Byte) (rest : List HostMove), s.moves = .wr 0x00 c.toNat :: rest →
      step s = .next { s with moves := rest, ovr := true }

/-! ### The checksum engine -/

/-- R134: the geometry of the frame in TXB. -/
def Obligations.FrameGeometry : Prop :=
  ∀ s : State,
    (correctlySized s = true ↔ ShortSized s ∨ LongSized s) ∧
    (s.txkind = 0 → cidx s = 1 ∧ sumLo s = 1 ∧ sumHi s = 3 ∧ csidx s = 3) ∧
    (s.txkind = 1 → cidx s = 4 ∧ sumLo s = 4 ∧ sumHi s = s.txlen.toNat - 2 ∧ csidx s = s.txlen.toNat - 2) ∧
    (LongSized s → (lval s).toNat = s.txlen.toNat - 6 ∧ 3 ≤ (lval s).toNat)

/-- R135: the size check of the five commands that make it. -/
def Obligations.WrongSizeRaisesBadSize : Prop :=
  ∀ (s : State) (i : Instr), s.pc = .idle →
    (i = .setcs ∨ i = .getfcb ∨ i = .setfcb ∨ i = .send) ∧ ¬ShortSized s ∧ ¬LongSized s ∨ i = .setlen ∧ ¬LongSized s →
    exec i s = .next (afterAbort i.code 5 1 s)

/-- R130: SETCS writes the sum of the summed range into the checksum slot and nothing else; a second SETCS changes no
byte; a frame of another size raises BadSize. -/
def Obligations.SetcsWritesTheChecksum : Prop :=
  Instr.setcs.code = 0x01 ∧ ∀ s : State, s.pc = .idle →
    (ShortSized s → ∃ t, exec .setcs s = .next t ∧ t = { afterCommand 0x01 s with txb := t.txb } ∧
      ∀ i, txByte t i = if i = 3 then txByte s 1 + txByte s 2 else txByte s i) ∧
    (LongSized s → ∃ t, exec .setcs s = .next t ∧ t = { afterCommand 0x01 s with txb := t.txb } ∧
      ∀ i, txByte t i =
        if i = s.txlen.toNat - 2 then sumBytes (txBytes s 4 (s.txlen.toNat - 6)) else txByte s i) ∧
    (¬ShortSized s → ¬LongSized s → exec .setcs s = .next (afterAbort 0x01 5 1 s)) ∧
    ∀ t u, exec .setcs s = .next t → exec .setcs t = .next u → ∀ i, txByte u i = txByte t i

/-- R131: SETLEN writes TXLEN - 6 into both length slots of a long frame and nothing else. -/
def Obligations.SetlenWritesBothLengths : Prop :=
  Instr.setlen.code = 0x02 ∧ ∀ s : State, s.pc = .idle →
    (LongSized s → ∃ t, exec .setlen s = .next t ∧ t = { afterCommand 0x02 s with txb := t.txb } ∧
      ∀ i, txByte t i = if i = 1 ∨ i = 2 then BitVec.ofNat 8 (s.txlen.toNat - 6) else txByte s i) ∧
    (¬LongSized s → exec .setlen s = .next (afterAbort 0x02 5 1 s))

/-- R132: GETFCB puts bit 5 of C in RVAL; no byte of TXB and no session flag changes. -/
def Obligations.GetfcbReadsBitFive : Prop :=
  Instr.getfcb.code = 0x03 ∧ ∀ s : State, s.pc = .idle →
    (ShortSized s → exec .getfcb s =
      .next { afterCommand 0x03 s with rval := if (txByte s 1).getLsbD 5 then 1 else 0 }) ∧
    (LongSized s → exec .getfcb s =
      .next { afterCommand 0x03 s with rval := if (txByte s 4).getLsbD 5 then 1 else 0 }) ∧
    (¬ShortSized s → ¬LongSized s → exec .getfcb s = .next (afterAbort 0x03 5 1 s))

/-- R133: SETFCB sets bit 5 of C and changes no other byte, in particular not the checksum, and no session flag. -/
def Obligations.SetfcbSetsBitFive : Prop :=
  Instr.setfcb.code = 0x04 ∧ ∀ s : State, s.pc = .idle →
    (ShortSized s → ∃ t, exec .setfcb s = .next t ∧ t = { afterCommand 0x04 s with txb := t.txb } ∧
      ∀ i, txByte t i = if i = 1 then txByte s 1 ||| 0x20 else txByte s i) ∧
    (LongSized s → ∃ t, exec .setfcb s = .next t ∧ t = { afterCommand 0x04 s with txb := t.txb } ∧
      ∀ i, txByte t i = if i = 4 then txByte s 4 ||| 0x20 else txByte s i) ∧
    (¬ShortSized s → ¬LongSized s → exec .setfcb s = .next (afterAbort 0x04 5 1 s))

/-- R137: SETCS and SETLEN commute on a long frame, and neither changes what the other writes. -/
def Obligations.SetcsAndSetlenCommute : Prop :=
  ∀ s t u t' u' : State, s.pc = .idle → LongSized s →
    exec .setcs s = .next t → exec .setlen t = .next u →
    exec .setlen s = .next t' → exec .setcs t' = .next u' →
    (∀ i, txByte u i = txByte u' i) ∧ (∀ i, i = 1 ∨ i = 2 → txByte t i = txByte s i) ∧
    txByte t' (s.txlen.toNat - 2) = txByte s (s.txlen.toNat - 2)

/-- R136 (a) and (b): the checksum is the arithmetic sum of the range mod 256, in any order of addition, and the length
value is exact. -/
def Obligations.ChecksumIsTheSumMod256 : Prop :=
  (∀ bs : List Byte, (sumBytes bs).toNat = (bs.map BitVec.toNat).sum % 256) ∧
  (∀ a b : List Byte, sumBytes (a ++ b) = sumBytes (b ++ a)) ∧
  ∀ s : State, LongSized s → (lval s).toNat + 6 = s.txlen.toNat

/-! ### The frame builder -/

/-- R151: BLD_NKE. -/
def Obligations.BldNkeBuildsLinkReset : Prop :=
  Instr.bldNke.code = 0x10 ∧ ∀ s : State, s.pc = .idle →
    ∃ t, exec .bldNke s = .next t ∧ t = { afterCommand 0x10 s with txb := t.txb, txlen := 5, txkind := 0 } ∧
      txbHolds [0x10, 0x40, s.addr, 0x40 + s.addr, 0x16] s t

/-- R152: BLD_APPRST. -/
def Obligations.BldApprstBuildsApplicationReset : Prop :=
  Instr.bldApprst.code = 0x11 ∧ ∀ s : State, s.pc = .idle →
    ∃ t, exec .bldApprst s = .next t ∧ t = { afterCommand 0x11 s with txb := t.txb, txlen := 9, txkind := 1 } ∧
      txbHolds [0x68, 0x03, 0x03, 0x68, 0x73, s.addr, 0x50, 0x73 + s.addr + 0x50, 0x16] s t

/-- R153: BLD_REQ, for every value of the parameter C_REQ. -/
def Obligations.BldReqBuildsDataRequest : Prop :=
  Instr.bldReq.code = 0x12 ∧ ∀ s : State, s.pc = .idle →
    ∃ t, exec .bldReq s = .next t ∧ t = { afterCommand 0x12 s with txb := t.txb, txlen := 9, txkind := 1 } ∧
      txbHolds [0x68, 0x03, 0x03, 0x68, s.params.cReq, s.addr, 0x51, s.params.cReq + s.addr + 0x51, 0x16] s t

/-- R154: BLD_PAGE. -/
def Obligations.BldPageBuildsPageChange : Prop :=
  Instr.bldPage.code = 0x13 ∧ ∀ s : State, s.pc = .idle →
    ∃ t, exec .bldPage s = .next t ∧ t = { afterCommand 0x13 s with txb := t.txb, txlen := 14, txkind := 1 } ∧
      txbHolds [0x68, 0x08, 0x08, 0x68, 0x73, s.addr, 0x51, 0x0F, 0x02, 0x78, s.arg, 0x00,
        0x73 + s.addr + 0x51 + 0x0F + 0x02 + 0x78 + s.arg + 0x00, 0x16] s t

/-- R155: BLD_SETSEC, for every number of wildcard bytes, and byte by byte for the spec's N_WILD = 4. -/
def Obligations.BldSetsecBuildsAddressBySecondary : Prop :=
  Instr.bldSetsec.code = 0x14 ∧ ∀ s : State, s.pc = .idle →
    ∃ t, exec .bldSetsec s = .next t ∧
      t = { afterCommand 0x14 s with txb := t.txb, txlen := BitVec.ofNat 9 (16 + s.params.nWild.val), txkind := 1 } ∧
      txbHolds (longFrame ([0x73, 0xFD, 0x51, s.sec0, s.sec1, s.sec2, s.sec3] ++ List.replicate s.params.nWild.val 0xFF ++
        [0x01, 0x7A, s.arg])) s t ∧
      (s.params.nWild = 4 → t.txlen = 20 ∧
        txbHolds [0x68, 0x0E, 0x0E, 0x68, 0x73, 0xFD, 0x51, s.sec0, s.sec1, s.sec2, s.sec3, 0xFF, 0xFF, 0xFF, 0xFF,
          0x01, 0x7A, s.arg,
          0x73 + 0xFD + 0x51 + s.sec0 + s.sec1 + s.sec2 + s.sec3 + 0xFF + 0xFF + 0xFF + 0xFF + 0x01 + 0x7A + s.arg,
          0x16] s t)

/-- R156: BLD_SETPRI. -/
def Obligations.BldSetpriBuildsAddressByPrimary : Prop :=
  Instr.bldSetpri.code = 0x15 ∧ ∀ s : State, s.pc = .idle →
    ∃ t, exec .bldSetpri s = .next t ∧ t = { afterCommand 0x15 s with txb := t.txb, txlen := 12, txkind := 1 } ∧
      txbHolds [0x68, 0x06, 0x06, 0x68, 0x73, s.addr, 0x51, 0x01, 0x7A, s.arg,
        0x73 + s.addr + 0x51 + 0x01 + 0x7A + s.arg, 0x16] s t

/-- R157: the built frame is a function of the command's own operand registers (R112: ADDR for all but BLD_SETSEC, ARG for
BLD_PAGE, BLD_SETSEC and BLD_SETPRI, SEC0 to SEC3 for BLD_SETSEC) and the parameters alone, its length bytes and checksum
are right, and it ends with the stop byte. -/
def Obligations.BuiltFramesAreConsistent : Prop :=
  ∀ i ∈ [Instr.bldNke, .bldApprst, .bldReq, .bldPage, .bldSetsec, .bldSetpri], ∀ s t : State, s.pc = .idle →
    exec i s = .next t →
    (ShortSized t ∧ txByte t 3 = txByte t 1 + txByte t 2 ∨
      LongSized t ∧ txByte t 1 = BitVec.ofNat 8 (t.txlen.toNat - 6) ∧ txByte t 2 = txByte t 1 ∧
        txByte t (t.txlen.toNat - 2) = sumBytes (txBytes t 4 (t.txlen.toNat - 6))) ∧
    txByte t (t.txlen.toNat - 1) = 0x16 ∧
    ∀ s' t' : State, s'.pc = .idle → exec i s' = .next t' → (i ≠ .bldSetsec → s'.addr = s.addr) →
      (i = .bldPage ∨ i = .bldSetsec ∨ i = .bldSetpri → s'.arg = s.arg) →
      (i = .bldSetsec → s'.sec0 = s.sec0 ∧ s'.sec1 = s.sec1 ∧ s'.sec2 = s.sec2 ∧ s'.sec3 = s.sec3) →
      s'.params = s.params → txFrame t' = txFrame t

/-! ### The transport unit -/

/-- R171: SEND recomputes the checksum, then writes the frame; a write that fails raises Transport; a frame of another
size raises BadSize and nothing is written. -/
def Obligations.SendTransmitsWithFreshChecksum : Prop :=
  Instr.send.code = 0x20 ∧ ∀ s : State, s.pc = .idle →
    (ShortSized s → ∃ t, exec .send s = .next t ∧ t = { running 0x20 .txCmd s with txb := t.txb } ∧
      ∀ i, txByte t i = if i = 3 then txByte s 1 + txByte s 2 else txByte s i) ∧
    (LongSized s → ∃ t, exec .send s = .next t ∧ t = { running 0x20 .txCmd s with txb := t.txb } ∧
      ∀ i, txByte t i =
        if i = s.txlen.toNat - 2 then sumBytes (txBytes s 4 (s.txlen.toNat - 6)) else txByte s i) ∧
    (¬ShortSized s → ¬LongSized s → exec .send s = .next (afterAbort 0x20 5 1 s)) ∧
    (∀ t w, exec .send s = .next t → t.pc = .txCmd → s.writeAns = .ok :: w →
      seqStep t = { t with
        pc := .idle, done := true, writeAns := w, wire := s.wire ++ [.write (txBytes t 0 s.txlen.toNat) .ok] }) ∧
    ∀ t e w, exec .send s = .next t → t.pc = .txCmd → s.writeAns = .err e :: w →
      seqStep t = raise .transport 1 e { t with
        writeAns := w, wire := s.wire ++ [.write (txBytes t 0 s.txlen.toNat) (.err e)] }

/-- R180: steps TX_CMD and TX_REQ write the whole frame in one transaction and go on by OP, or raise. -/
def Obligations.TransmitSteps : Prop :=
  ∀ (s : State) (a : CtlAnswer) (w : List CtlAnswer), s.writeAns = a :: w →
    let u : State := { s with writeAns := w, wire := s.wire ++ [.write (txBytes s 0 s.txlen.toNat) a] }
    (s.pc = .txCmd → a = .ok → s.op = 0x20 → seqStep s = { u with pc := .idle, done := true }) ∧
    (s.pc = .txCmd → a = .ok → s.op = 0x40 ∨ s.op = 0x41 ∨ s.op = 0x42 → seqStep s = { u with pc := .ackArm }) ∧
    (s.pc = .txReq → a = .ok → seqStep s = { u with pc := .lfArm }) ∧
    ∀ e, s.pc = .txCmd ∨ s.pc = .txReq → a = .err e → seqStep s = raise .transport 1 e u

/-- R172: step ACK_ARM. R173 with R222: step ACK_RD, and SessionStart as its continuation in a session. -/
def Obligations.AcknowledgementSteps : Prop :=
  (∀ (s : State) (a : CtlAnswer) (d : List CtlAnswer), s.pc = .ackArm → s.deadlineAns = a :: d →
    let u : State := { s with deadlineAns := d, wire := s.wire ++ [.setDeadline s.tmo a] }
    (a = .ok → seqStep s = { u with pc := .ackRd }) ∧ ∀ e, a = .err e → seqStep s = raise .transport 2 e u) ∧
  ∀ (s : State) (a : ReadAnswer) (r : List ReadAnswer), s.pc = .ackRd → s.readAns = a :: r →
    let u : State := { s with readAns := r, wire := s.wire ++ [.read a] }
    (a = .byte 0xE5 → s.op = 0x21 ∨ s.op = 0x42 → seqStep s = { u with pc := .idle, done := true }) ∧
    (a = .byte 0xE5 → s.op = 0x40 ∨ s.op = 0x41 →
      seqStep s = { u with fcbt := false, first := true, more := false, pc := .loop }) ∧
    (∀ b, a = .byte b → b ≠ 0xE5 → seqStep s = { u with pc := .ackArm }) ∧
    (∀ e, a = .timeout e → seqStep s = raise .ackTimeout 0 e u) ∧
    ∀ e, a = .err e → seqStep s = raise .transport 3 e u

/-- R174: every idle block accepts RDACK into ACK_ARM; RDACK then discards any number of bytes other than 0xE5, each read with a fresh deadline, and ends at 0xE5, at a
timeout (AckTimeout), at a read error or at a deadline error (Transport). -/
def Obligations.RdackDiscardsUntilAck : Prop :=
  Instr.rdack.code = 0x21 ∧ ∀ s : State, s.pc = .idle →
    ∃ t, exec .rdack s = .next t ∧ t = running 0x21 .ackArm s ∧
      ∀ noise : List Byte, (∀ b ∈ noise, b ≠ 0xE5) →
        (∀ (last : ReadAnswer) (d : List CtlAnswer) (r : List ReadAnswer),
          s.deadlineAns = List.replicate (noise.length + 1) .ok ++ d → s.readAns = noise.map .byte ++ last :: r →
          let u : State := { t with
            pc := .idle, done := true, deadlineAns := d, readAns := r,
            wire := s.wire ++ armedReads s.tmo noise ++ [.setDeadline s.tmo .ok, .read last] }
          (last = .byte 0xE5 → seqRun (2 * (noise.length + 1)) t = u) ∧
          (∀ e, last = .timeout e →
            seqRun (2 * (noise.length + 1)) t = { u with errf := true, err := 4, errsub := 0, errenv := e % 2 ^ s.params.envW }) ∧
          ∀ e, last = .err e →
            seqRun (2 * (noise.length + 1)) t = { u with errf := true, err := 1, errsub := 3, errenv := e % 2 ^ s.params.envW }) ∧
        ∀ (e : Nat) (d : List CtlAnswer) (r : List ReadAnswer),
          s.deadlineAns = List.replicate noise.length .ok ++ .err e :: d → s.readAns = noise.map .byte ++ r →
          seqRun (2 * noise.length + 1) t = raise .transport 2 e { t with
            deadlineAns := d, readAns := r,
            wire := s.wire ++ armedReads s.tmo noise ++ [.setDeadline s.tmo (.err e)] }

/-- R175: ScanInit happens at the acceptance of RDLONG and in every REQ_BUILD step; RDLONG's acceptance does nothing
else (R179). -/
def Obligations.ScanInitBeforeEveryLongRead : Prop :=
  Instr.rdlong.code = 0x22 ∧
  (∀ s : State, s.pc = .idle → exec .rdlong s =
    .next { running 0x22 .lfArm s with ncnt := 0, rxlen := 0, llen := 0, phase := false }) ∧
  ∀ s : State, s.pc = .reqBuild →
    (seqStep s).ncnt = 0 ∧ (seqStep s).rxlen = 0 ∧ (seqStep s).llen = 0 ∧ (seqStep s).phase = false

/-- R176: step LF_ARM. -/
def Obligations.LongFrameArmSetsTheDeadline : Prop :=
  ∀ (s : State) (a : CtlAnswer) (d : List CtlAnswer), s.pc = .lfArm → s.deadlineAns = a :: d →
    let u : State := { s with deadlineAns := d, wire := s.wire ++ [.setDeadline s.tmo a] }
    (a = .ok → seqStep s = { u with pc := .lfRd }) ∧
    ∀ e, a = .err e → seqStep s = raise .transport 2 e { u with rxlen := 0 }

/-- R177: step LF_RD. A timeout or an error ends the scan. While Searching the window takes the byte (sliding once it
holds four) and a match latches `L` and starts Collecting. While Collecting the byte is stored, and the frame is
complete when it is the stop byte at frame index `L + 5`; the completion test comes before the bound test. The premise
`ScanInProgress` rules out states no run reaches (it is part of the invariant `ScanOk`). -/
def Obligations.LongFrameReadStep : Prop :=
  ∀ (s : State) (a : ReadAnswer) (r : List ReadAnswer), s.pc = .lfRd → ScanInProgress s → s.readAns = a :: r →
    let v : State := { s with readAns := r, wire := s.wire ++ [.read a] }
    (∀ e, a = .timeout e → seqStep s = raise .transport 4 e { v with rxlen := 0 }) ∧
    (∀ e, a = .err e → seqStep s = raise .transport 3 e { v with rxlen := 0 }) ∧
    (∀ b, a = .byte b → s.phase = false →
      let w := if s.rxlen.toNat < 4 then rxBytes s 0 s.rxlen.toNat ++ [b] else [rxByte s 1, rxByte s 2, rxByte s 3, b]
      ∃ u : State,
        u = { v with
          ncnt := s.ncnt + 1, rxb := u.rxb, rxlen := BitVec.ofNat 9 w.length,
          llen := if startAt w 0 then w.getD 1 0 else s.llen, phase := decide (startAt w 0) } ∧
        u.ncnt.toNat = s.ncnt.toNat + 1 ∧ (∀ j, rxByte u j = if j < w.length then w.getD j 0 else rxByte s j) ∧
        (u.ncnt.toNat ≤ 256 → seqStep s = { u with pc := .lfArm }) ∧
        (256 < u.ncnt.toNat → seqStep s = raise .frameNotFound 0 0 { u with rxlen := 0 })) ∧
    ∀ b, a = .byte b → s.phase = true →
      ∃ u : State,
        u = { v with ncnt := s.ncnt + 1, rxb := u.rxb, rxlen := s.rxlen + 1 } ∧
        u.ncnt.toNat = s.ncnt.toNat + 1 ∧ u.rxlen.toNat = s.rxlen.toNat + 1 ∧
        (∀ j, rxByte u j = if j = s.rxlen.toNat then b else rxByte s j) ∧
        (u.rxlen.toNat = s.llen.toNat + 6 → b = 0x16 → s.op = 0x40 ∨ s.op = 0x41 → seqStep s = { u with pc := .verify }) ∧
        (u.rxlen.toNat = s.llen.toNat + 6 → b = 0x16 → s.op = 0x22 → seqStep s = { u with pc := .idle, done := true }) ∧
        (¬(u.rxlen.toNat = s.llen.toNat + 6 ∧ b = 0x16) → u.ncnt.toNat ≤ 256 → seqStep s = { u with pc := .lfArm }) ∧
        (¬(u.rxlen.toNat = s.llen.toNat + 6 ∧ b = 0x16) → 256 < u.ncnt.toNat →
          seqStep s = raise .frameNotFound 0 0 { u with rxlen := 0 })

/-- R178 (a), (c), (d), (f): the scan returns the frame that starts at the first start pattern of the stream, exactly
its `L + 6` bytes, if its last byte is the stop byte and it ends within 257 bytes. -/
def Obligations.ScannerReturnsTheFirstFrame : Prop :=
  ∀ (s : State) (bs : List Byte) (g : Nat) (d : List CtlAnswer) (r : List ReadAnswer), s.pc = .lfArm → s.ncnt = 0 →
    s.rxlen = 0 → s.phase = false → frameAfter bs g → bs.length ≤ 257 →
    s.deadlineAns = List.replicate bs.length .ok ++ d → s.readAns = bs.map .byte ++ r →
    ∃ u, u = { s with
        rxb := u.rxb, rxlen := BitVec.ofNat 9 (bs.length - g), llen := bs.getD (g + 1) 0,
        ncnt := BitVec.ofNat 9 bs.length, phase := true, deadlineAns := d, readAns := r,
        wire := s.wire ++ armedReads s.tmo bs } ∧
      rxFrame u = bs.drop g ∧
      (s.op = 0x40 ∨ s.op = 0x41 → seqRun (2 * bs.length) s = { u with pc := .verify }) ∧
      (s.op = 0x22 → seqRun (2 * bs.length) s = { u with pc := .idle, done := true })

/-- R178 (a), (b), (e): as long as no prefix of the stream ends a frame that starts at the stream's first start pattern,
the scan goes on, and ends with FrameNotFound on the 257th byte and not before. -/
def Obligations.ScannerGivesUpOnByte257 : Prop :=
  ∀ (s : State) (bs : List Byte) (d : List CtlAnswer) (r : List ReadAnswer), s.pc = .lfArm → s.ncnt = 0 →
    s.rxlen = 0 → s.phase = false → bs.length ≤ 257 → (∀ n ≤ bs.length, ∀ g, ¬frameAfter (bs.take n) g) →
    s.deadlineAns = List.replicate bs.length .ok ++ d → s.readAns = bs.map .byte ++ r →
    ∃ u, u = { s with
        rxb := u.rxb, rxlen := u.rxlen, llen := u.llen, ncnt := BitVec.ofNat 9 bs.length, phase := u.phase,
        deadlineAns := d, readAns := r, wire := s.wire ++ armedReads s.tmo bs } ∧
      (bs.length ≤ 256 → seqRun (2 * bs.length) s = u) ∧
      (bs.length = 257 → seqRun (2 * bs.length) s = raise .frameNotFound 0 0 { u with rxlen := 0 })

/-- R311 (with R178 (g), R294): the bounds on the number of steps of the commands that always end, whatever the answers,
and that the commands with an acknowledgement wait need not end. -/
def Obligations.TerminationBounds : Prop :=
  (∀ i ∈ [Instr.setcs, .setlen, .getfcb, .setfcb, .bldNke, .bldApprst, .bldReq, .bldPage, .bldSetsec, .bldSetpri],
    ∀ s t : State, s.pc = .idle → exec i s = .next t → t.pc = .idle) ∧
  (∀ s t : State, s.pc = .idle → exec .decode s = .next t → ∃ n ≤ 2, (seqRun n t).pc = .idle) ∧
  (∀ s t : State, s.pc = .idle → s.writeAns ≠ [] → exec .send s = .next t → ∃ n ≤ 1, (seqRun n t).pc = .idle) ∧
  (∀ s t : State, s.pc = .idle → 257 ≤ s.deadlineAns.length → 257 ≤ s.readAns.length → exec .rdlong s = .next t →
    ∃ n ≤ 2 * 257, (seqRun n t).pc = .idle) ∧
  ∀ i ∈ [Instr.rdack, .pagechg, .rd1, .rdall], ∀ n, ∃ s t : State, s.pc = .idle ∧ exec i s = .next t ∧
    (seqRun n t).pc ≠ .idle ∧ (seqRun n t).wire.length = s.wire.length + n

/-! ### Frame validation and the decoder call -/

/-- R203: step VERIFY. -/
def Obligations.VerifyChecksLengthThenChecksum : Prop :=
  ∀ s : State, s.pc = .verify → FrameInRxb s →
    (s.llen.toNat < 3 → seqStep s = raise .decode 2 0 s) ∧
    (3 ≤ s.llen.toNat → sumBytes (rxBytes s 4 s.llen.toNat) ≠ rxByte s (4 + s.llen.toNat) →
      seqStep s = raise .decode 1 0 s) ∧
    (3 ≤ s.llen.toNat → sumBytes (rxBytes s 4 s.llen.toNat) = rxByte s (4 + s.llen.toNat) →
      seqStep s = { s with pc := .decode })

/-- R204: step DECODE. `rescntSucc` is RESCNT + 1 truncated to the register's width (R10, R32): with a finite RES_CAP the
same number. That it wraps to 0 at 2^32 if RES_CAP is unbounded, while RES goes on growing, is the model's choice (log
9). -/
def Obligations.DecodeStepStoresTheResult : Prop :=
  ∀ s : State, s.pc = .decode →
    let f := rxBytes s 0 s.rxlen.toNat
    (∀ d, decAnswer s.params f = .err d → seqStep s = raise .decode 3 d s) ∧
    ∀ record more, decAnswer s.params f = .ok record more →
      (∀ cap, s.params.resCap = some cap → s.rescnt < cap → rescntSucc s = s.rescnt + 1) ∧
      (s.params.resCap = none → rescntSucc s = (s.rescnt + 1) % 2 ^ 32) ∧
      let u : State := { s with
        res := s.res ++ [{ len := s.rxlen, frame := f, record := record, more := more }], rescnt := rescntSucc s,
        more := more }
      (s.params.resCap = some s.rescnt → seqStep s = raise .resOverflow 0 0 s) ∧
      (s.params.resCap ≠ some s.rescnt → s.op = 0x30 ∨ s.op = 0x40 → seqStep s = { u with pc := .idle, done := true }) ∧
      (s.params.resCap ≠ some s.rescnt → s.op = 0x41 → seqStep s = { u with pc := .loop })

/-- R205: DECODE, its acceptance and its whole run; whenever an idle block has RXLEN other than 0, RXB holds a frame
(`ScanOk`, kept by every step: StepKeepsScannerRight). -/
def Obligations.DecodeCommandRun : Prop :=
  Instr.decode.code = 0x30 ∧ ∀ s : State, s.pc = .idle →
    (ScanOk s → s.rxlen ≠ 0 → FrameInRxb s) ∧
    (s.rxlen = 0 → exec .decode s = .next { afterAbort 0x30 5 2 s with res := [], rescnt := 0 }) ∧
    (s.rxlen ≠ 0 → ∃ t, exec .decode s = .next t ∧
      t = { running 0x30 .verify s with res := [], rescnt := 0, more := false } ∧
      (s.llen.toNat < 3 → seqStep t = raise .decode 2 0 t) ∧
      (3 ≤ s.llen.toNat → sumBytes (rxBytes s 4 s.llen.toNat) ≠ rxByte s (4 + s.llen.toNat) →
        seqStep t = raise .decode 1 0 t) ∧
      (3 ≤ s.llen.toNat → sumBytes (rxBytes s 4 s.llen.toNat) = rxByte s (4 + s.llen.toNat) →
        (∀ e, decAnswer s.params (rxFrame s) = .err e → seqRun 2 t = raise .decode 3 e t) ∧
        ∀ record more, decAnswer s.params (rxFrame s) = .ok record more →
          (s.params.resCap = some 0 → seqRun 2 t = raise .resOverflow 0 0 t) ∧
          (s.params.resCap ≠ some 0 → seqRun 2 t = { t with
            pc := .idle, done := true, more := more, rescnt := 1,
            res := [{ len := s.rxlen, frame := rxFrame s, record := record, more := more }] })))

/-! ### Sessions -/

/-- R212: SessionInit, the acceptance of RD1 and RDALL. -/
def Obligations.SessionInitBuildsLinkReset : Prop :=
  ∀ s : State, s.pc = .idle → ∀ i, i = .rd1 ∨ i = .rdall →
    ∃ t, exec i s = .next t ∧
      t = { running i.code .txCmd s with res := [], rescnt := 0, txb := t.txb, txlen := 5, txkind := 0 } ∧
      txbHolds [0x10, 0x40, s.addr, 0x40 + s.addr, 0x16] s t

/-- R213: PAGECHG, its acceptance and its whole run when the frame is written and the acknowledgement comes. -/
def Obligations.PagechgRun : Prop :=
  Instr.pagechg.code = 0x42 ∧ ∀ s : State, s.pc = .idle →
    ∃ t, exec .pagechg s = .next t ∧ t = { running 0x42 .txCmd s with txb := t.txb, txlen := 14, txkind := 1 } ∧
      txbHolds [0x68, 0x08, 0x08, 0x68, 0x73, s.addr, 0x51, 0x0F, 0x02, 0x78, s.arg, 0x00,
        0x73 + s.addr + 0x51 + 0x0F + 0x02 + 0x78 + s.arg + 0x00, 0x16] s t ∧
      ∀ (noise : List Byte) (w d : List CtlAnswer) (r : List ReadAnswer), (∀ b ∈ noise, b ≠ 0xE5) →
        s.writeAns = .ok :: w → s.deadlineAns = List.replicate (noise.length + 1) .ok ++ d →
        s.readAns = (noise ++ [0xE5]).map .byte ++ r →
        seqRun (2 * noise.length + 3) t = { t with
          pc := .idle, done := true, writeAns := w, deadlineAns := d, readAns := r,
          wire := s.wire ++ .write (pageFrame s.addr s.arg) .ok :: armedReads s.tmo (noise ++ [0xE5]) }

/-- R223: step LOOP. For RD1 the step that enters LOOP sets FIRST, so that the first branch is taken, and LOOP is not
entered again. -/
def Obligations.LoopEntryTest : Prop :=
  (∀ s : State, s.pc = .loop →
    (s.first = true → seqStep s = { s with first := false, pc := .reqBuild }) ∧
    (s.first = false → s.more = true → seqStep s = { s with fcbt := !s.fcbt, pc := .reqBuild }) ∧
    (s.first = false → s.more = false → seqStep s = { s with done := true, pc := .idle })) ∧
  ∀ s : State, s.op = 0x40 →
    (s.pc ≠ .loop → (seqStep s).pc = .loop → (seqStep s).first = true) ∧
    (s.pc = .loop → ∀ n, (seqRun (n + 1) s).pc ≠ .loop)

/-- R224: step REQ_BUILD builds the request afresh, with the FCB bit of FCBT and a checksum computed after it. -/
def Obligations.RequestBuildStep : Prop :=
  ∀ s : State, s.pc = .reqBuild →
    ∃ t, seqStep s = t ∧
      t = { s with
        pc := .txReq, txb := t.txb, txlen := 9, txkind := 1, ncnt := 0, rxlen := 0, llen := 0, phase := false } ∧
      (s.fcbt = false → txbHolds [0x68, 0x03, 0x03, 0x68, s.params.cReq, s.addr, 0x51,
        s.params.cReq + s.addr + 0x51, 0x16] s t) ∧
      (s.fcbt = true → txbHolds [0x68, 0x03, 0x03, 0x68, s.params.cReq ||| 0x20, s.addr, 0x51,
        (s.params.cReq ||| 0x20) + s.addr + 0x51, 0x16] s t)

/-- R230: every row of the transition table; a step whose transaction is not answered stays where it is (R311). -/
def Obligations.TransitionTable : Prop :=
  (∀ (i : Instr) (s t : State), s.pc = .idle → exec i s = .next t → t.pc =
    match i with
    | .setcs | .setlen | .getfcb | .setfcb => Pc.idle
    | .bldNke | .bldApprst | .bldReq | .bldPage | .bldSetsec | .bldSetpri => .idle
    | .send => if correctlySized s then .txCmd else .idle
    | .rdack => .ackArm
    | .rdlong => .lfArm
    | .decode => if s.rxlen = 0 then .idle else .verify
    | .rd1 | .rdall | .pagechg => .txCmd) ∧
  (∀ (c : Byte) (s t : State) (rest : List HostMove), s.pc = .idle → s.moves = .wr 0x00 c.toNat :: rest →
    decodeCode c = none → step s = .next t → t.pc = .idle) ∧
  ∀ s : State, CommandOk s → (seqStep s).pc =
    match s.pc with
    | .idle => .idle
    | .txCmd =>
      match s.writeAns with
      | [] => .txCmd
      | .ok :: _ => if s.op = 0x20 then .idle else .ackArm
      | .err _ :: _ => .idle
    | .ackArm =>
      match s.deadlineAns with
      | [] => .ackArm
      | .ok :: _ => .ackRd
      | .err _ :: _ => .idle
    | .ackRd =>
      match s.readAns with
      | [] => .ackRd
      | .byte b :: _ => if b = 0xE5 then (if s.op = 0x21 ∨ s.op = 0x42 then .idle else .loop) else .ackArm
      | .timeout _ :: _ => .idle
      | .err _ :: _ => .idle
    | .loop => if s.first = true ∨ s.more = true then .reqBuild else .idle
    | .reqBuild => .txReq
    | .txReq =>
      match s.writeAns with
      | [] => .txReq
      | .ok :: _ => .lfArm
      | .err _ :: _ => .idle
    | .lfArm =>
      match s.deadlineAns with
      | [] => .lfArm
      | .ok :: _ => .lfRd
      | .err _ :: _ => .idle
    | .lfRd =>
      match s.readAns with
      | [] => .lfRd
      | .byte b :: _ =>
        if s.phase = true ∧ (s.rxlen + 1).toNat = s.llen.toNat + 6 ∧ b = 0x16 then
          (if s.op = 0x22 then .idle else .verify)
        else if 256 < (s.ncnt + 1).toNat then .idle else .lfArm
      | .timeout _ :: _ => .idle
      | .err _ :: _ => .idle
    | .verify =>
      if s.llen.toNat < 3 ∨ sumBytes (rxBytes s 4 s.llen.toNat) ≠ rxByte s (4 + s.llen.toNat) then .idle else .decode
    | .decode =>
      match decAnswer s.params (rxFrame s) with
      | .err _ => .idle
      | .ok _ _ => if s.params.resCap = some s.rescnt ∨ s.op ≠ 0x41 then .idle else .loop

/-- R210: a whole RD1 against a device that acknowledges (after any noise) and answers with a good frame (after any
garbage). Exactly one link reset and one data request with the FCB clear are written. -/
def Obligations.ReadSingleFrameRun : Prop :=
  ∀ (s : State) (noise : List Byte) (p : Reply) (more : Bool) (w d : List CtlAnswer) (r : List ReadAnswer),
    s.pc = .idle → (∀ b ∈ noise, b ≠ 0xE5) → p.good s.params more → s.params.resCap ≠ some 0 →
    s.writeAns = .ok :: .ok :: w →
    s.deadlineAns = List.replicate (noise.length + 1 + p.stream.length) .ok ++ d →
    s.readAns = (noise ++ [0xE5] ++ p.stream).map .byte ++ r →
    ∃ t u, exec .rd1 s = .next t ∧ seqRun (2 * noise.length + 2 * p.stream.length + 8) t = u ∧
      u = { afterCommand 0x40 s with
        txb := u.txb, txlen := 9, txkind := 1, rxb := u.rxb, rxlen := BitVec.ofNat 9 p.frame.length,
        llen := BitVec.ofNat 8 (p.frame.length - 6), ncnt := BitVec.ofNat 9 p.stream.length, phase := true,
        fcbt := false, first := false, more := more, res := [p.entry more], rescnt := 1,
        writeAns := w, deadlineAns := d, readAns := r,
        wire := s.wire ++ .write (linkResetFrame s.addr) .ok :: (armedReads s.tmo (noise ++ [0xE5]) ++
          .write (requestFrame s.params s.addr false) .ok :: armedReads s.tmo p.stream) } ∧
      rxFrame u = p.frame

/-- R211 with R231 and R233: a whole RDALL against a device whose decoded answers say more, ..., more, no more. The
requests' FCB bits are 0, 1, 0, 1, ...; RES holds every answer in order; one link reset and one request per answer are
written. RESCNT is the number of answers; in 32 bits if RES_CAP is unbounded, while RES goes on growing: that is the
model's choice (log 9). -/
def Obligations.ReadAllFramesRun : Prop :=
  ∀ (s : State) (noise : List Byte) (ps : List Reply) (p : Reply) (w d : List CtlAnswer) (r : List ReadAnswer),
    s.pc = .idle → (∀ b ∈ noise, b ≠ 0xE5) → (∀ q ∈ ps, q.good s.params true) → p.good s.params false →
    (∀ cap, s.params.resCap = some cap → ps.length < cap) →
    s.writeAns = List.replicate (ps.length + 2) .ok ++ w →
    s.deadlineAns =
      List.replicate (noise.length + 1 + ((ps ++ [p]).flatMap Reply.stream).length) .ok ++ d →
    s.readAns = (noise ++ [0xE5] ++ (ps ++ [p]).flatMap Reply.stream).map .byte ++ r →
    ∃ t n u, exec .rdall s = .next t ∧ seqRun n t = u ∧
      u = { afterCommand 0x41 s with
        txb := u.txb, txlen := 9, txkind := 1, rxb := u.rxb, rxlen := BitVec.ofNat 9 p.frame.length,
        llen := BitVec.ofNat 8 (p.frame.length - 6), ncnt := BitVec.ofNat 9 p.stream.length, phase := true,
        fcbt := decide (ps.length % 2 = 1), first := false, more := false,
        res := ps.map (Reply.entry · true) ++ [p.entry false], rescnt := resCount s.params (ps.length + 1),
        writeAns := w, deadlineAns := d, readAns := r,
        wire := s.wire ++ .write (linkResetFrame s.addr) .ok :: (armedReads s.tmo (noise ++ [0xE5]) ++
          requestLog s.params s.addr s.tmo 0 ((ps ++ [p]).map Reply.stream)) } ∧
      rxFrame u = p.frame

/-! ### Errors, abort, completion -/

/-- R250, R241: what `raise` writes, for each kind; ERRENV takes `ENV_W` bits (R6, R28). R255: what `finish` writes. -/
def Obligations.RaiseAndFinish : Prop :=
  (∀ (k : ErrKind) (sub : Byte) (env : Nat) (s : State),
    (s.op = 0x40 ∨ s.op = 0x41 ∨ s.op = 0x30 → raise k sub env s = { s with
      err := k.code, errsub := sub, errenv := env % 2 ^ s.params.envW, errf := true, done := true,
      res := [], rescnt := 0, pc := .idle }) ∧
    (¬(s.op = 0x40 ∨ s.op = 0x41 ∨ s.op = 0x30) → raise k sub env s = { s with
      err := k.code, errsub := sub, errenv := env % 2 ^ s.params.envW, errf := true, done := true, pc := .idle })) ∧
  ErrKind.transport.code = 1 ∧ ErrKind.frameNotFound.code = 2 ∧ ErrKind.decode.code = 3 ∧ ErrKind.ackTimeout.code = 4 ∧
  ErrKind.badSize.code = 5 ∧ ErrKind.illegalCmd.code = 6 ∧ ErrKind.resOverflow.code = 7 ∧
  (∀ s : State, finish s = { s with done := true, pc := .idle }) ∧
  ∀ s : State, ErrorsOk s → s.pc ≠ .idle → (seqStep s).pc = .idle → (seqStep s).done = true ∧
    ((seqStep s).errf = false → (seqStep s).err = 0 ∧ (seqStep s).errsub = 0 ∧ (seqStep s).errenv = 0)

/-- R232 with R250: a sequencer step that fails ends the command at once; the results of RD1, RDALL and DECODE are gone;
nothing more goes over port T; what the block keeps is unchanged. -/
def Obligations.AbortDiscardsResults : Prop :=
  ∀ s : State, s.pc ≠ .idle → s.errf = false → (seqStep s).errf = true →
    (seqStep s).pc = .idle ∧ (seqStep s).done = true ∧
    (s.op = 0x40 ∨ s.op = 0x41 ∨ s.op = 0x30 → (seqStep s).res = [] ∧ (seqStep s).rescnt = 0) ∧
    (¬(s.op = 0x40 ∨ s.op = 0x41 ∨ s.op = 0x30) → (seqStep s).res = s.res ∧ (seqStep s).rescnt = s.rescnt) ∧
    (seqStep s).txb = s.txb ∧ (seqStep s).txlen = s.txlen ∧ (seqStep s).txkind = s.txkind ∧
    (seqStep s).fcbt = s.fcbt ∧ (seqStep s).first = s.first ∧ (seqStep s).more = s.more ∧ (seqStep s).rval = s.rval ∧
    (s.pc ≠ .lfRd → (seqStep s).rxb = s.rxb ∧ (seqStep s).llen = s.llen ∧ (seqStep s).ncnt = s.ncnt ∧
      (seqStep s).phase = s.phase) ∧
    ∀ n, seqRun n (seqStep s) = seqStep s

/-! ### Reset -/

/-- R37, R280: the values the spec gives for reset. The values of ADDR, ARG, SEC0 to SEC3 and TMO are the model's (log
1) and are not stated. -/
def Obligations.ResetState : Prop :=
  let s := State.reset
  s.pc = .idle ∧ status s = 0 ∧ s.err = 0 ∧ s.errsub = 0 ∧ s.errenv = 0 ∧ s.rval = 0 ∧ s.op = 0 ∧ s.txlen = 0 ∧
  s.txkind = 0 ∧ s.rxlen = 0 ∧ s.llen = 0 ∧ s.ncnt = 0 ∧ s.rescnt = 0 ∧ s.res = [] ∧ s.txb = [] ∧ s.rxb = []

/-- R281, R282: hardware reset at any time, also during a command, gives the reset values, records no end and no error,
and touches nothing outside the block. -/
def Obligations.HardwareResetEndsACommand : Prop :=
  ∀ (s : State) (rest : List HostMove), s.moves = .hwReset :: rest →
    ∃ t, step s = .next t ∧ t.pc = .idle ∧ status t = 0 ∧ t.err = 0 ∧ t.errsub = 0 ∧ t.errenv = 0 ∧ t.rval = 0 ∧
      t.op = 0 ∧ t.txlen = 0 ∧ t.txkind = 0 ∧ t.rxlen = 0 ∧ t.llen = 0 ∧ t.ncnt = 0 ∧ t.rescnt = 0 ∧ t.res = [] ∧
      t.wire = s.wire ∧ t.writeAns = s.writeAns ∧ t.deadlineAns = s.deadlineAns ∧ t.readAns = s.readAns ∧
      t.params = s.params ∧ t.moves = rest

/-! ### The host's accesses -/

/-- R26: the layout of STATUS, and R39: the pins. -/
def Obligations.StatusLayout : Prop :=
  ∀ s : State,
    (status s).getLsbD 0 = decide (s.pc ≠ .idle) ∧ (status s).getLsbD 1 = s.done ∧ (status s).getLsbD 2 = s.errf ∧
    (status s).getLsbD 3 = s.ovr ∧ (status s).getLsbD 4 = s.fcbt ∧ (status s).getLsbD 5 = s.first ∧
    (status s).getLsbD 6 = s.more ∧ (status s).getLsbD 7 = s.phase ∧
    pinBusy s = decide (s.pc ≠ .idle) ∧ pinDone s = s.done ∧ pinErr s = s.errf

/-- R33, R34, R72: a host read of a register number, busy or idle, gives the number the register holds, 0 for CMD and the
reserved numbers, and has no other effect. R24: the codes of the sequencer states, the values of PC. -/
def Obligations.RegisterReads : Prop :=
  (Pc.code .idle = 0 ∧ Pc.code .txCmd = 1 ∧ Pc.code .ackArm = 2 ∧ Pc.code .ackRd = 3 ∧ Pc.code .loop = 4 ∧
    Pc.code .reqBuild = 5 ∧ Pc.code .txReq = 6 ∧ Pc.code .lfArm = 7 ∧ Pc.code .lfRd = 8 ∧ Pc.code .verify = 9 ∧
    Pc.code .decode = 10) ∧
  ∀ (s : State) (n : Byte) (rest : List HostMove), s.moves = .rd n :: rest →
    step s = .next { s with moves := rest, rdata := .num (
      if n = 0x01 then (status s).toNat else if n = 0x02 then s.err.toNat else if n = 0x03 then s.errsub.toNat
      else if n = 0x04 then s.rval.toNat else if n = 0x05 then s.op.toNat else if n = 0x06 then s.pc.code.toNat
      else if n = 0x07 then s.errenv else if n = 0x08 then s.addr.toNat else if n = 0x09 then s.arg.toNat
      else if n = 0x0A then s.sec0.toNat else if n = 0x0B then s.sec1.toNat else if n = 0x0C then s.sec2.toNat
      else if n = 0x0D then s.sec3.toNat else if n = 0x0E then s.tmo else if n = 0x10 then s.txlen.toNat
      else if n = 0x11 then s.txkind.toNat else if n = 0x12 then s.rxlen.toNat else if n = 0x13 then s.llen.toNat
      else if n = 0x14 then s.ncnt.toNat else if n = 0x15 then s.rescnt else 0) }

/-- R21, R22, R30, R33: a host write to a register of an idle block stores the low bits in a read/write register (TXLEN
clamped to 261), and is ignored by a read-only register and a reserved number. -/
def Obligations.RegisterWritesWhenIdle : Prop :=
  ∀ (s : State) (n : Byte) (v : Nat) (rest : List HostMove), s.pc = .idle → s.moves = .wr n v :: rest →
    let u : State := { s with moves := rest }
    (n = 0x08 → step s = .next { u with addr := BitVec.ofNat 8 v }) ∧
    (n = 0x09 → step s = .next { u with arg := BitVec.ofNat 8 v }) ∧
    (n = 0x0A → step s = .next { u with sec0 := BitVec.ofNat 8 v }) ∧
    (n = 0x0B → step s = .next { u with sec1 := BitVec.ofNat 8 v }) ∧
    (n = 0x0C → step s = .next { u with sec2 := BitVec.ofNat 8 v }) ∧
    (n = 0x0D → step s = .next { u with sec3 := BitVec.ofNat 8 v }) ∧
    (n = 0x0E → step s = .next { u with tmo := v % 2 ^ s.params.tmoW }) ∧
    (n = 0x10 → v < 512 → step s = .next { u with txlen := BitVec.ofNat 9 (min v 261) }) ∧
    (n = 0x11 → step s = .next { u with txkind := BitVec.ofNat 1 v }) ∧
    (0x01 ≤ n ∧ n ≤ 0x07 ∨ n = 0x0F ∨ 0x12 ≤ n → step s = .next u)

/-- R34: while the block is busy the host's writes to registers other than CMD and to buffers are ignored. -/
def Obligations.HostWritesWhileBusyAreIgnored : Prop :=
  ∀ (s : State) (rest : List HostMove), s.pc ≠ .idle →
    (∀ n v, n ≠ 0x00 → s.moves = .wr n v :: rest → step s = .next { s with moves := rest }) ∧
    ∀ sp i b, s.moves = .wrb sp i b :: rest → step s = .next { s with moves := rest }

/-- R61, R62, R63, R72: the host's accesses to the buffers and to RES of an idle block: a TXB write changes that byte
alone, an index past the end is ignored and reads 0, RXB is read-only, a read changes nothing but the value returned. -/
def Obligations.BufferAccessesWhenIdle : Prop :=
  ∀ (s : State) (rest : List HostMove), s.pc = .idle →
    (∀ i b, s.moves = .wrb .TXB i b :: rest → ∃ t, step s = .next t ∧ t = { s with moves := rest, txb := t.txb } ∧
      ∀ j, txByte t j = if j = i ∧ i < 261 then b else txByte s j) ∧
    (∀ i b, s.moves = .wrb .RXB i b :: rest → step s = .next { s with moves := rest }) ∧
    (∀ i, s.moves = .rdb .TXB i :: rest →
      step s = .next { s with moves := rest, rdata := .num (txByte s i).toNat }) ∧
    (∀ i, 261 ≤ i → txByte s i = 0) ∧
    (∀ i, s.moves = .rdb .RXB i :: rest → i < s.rxlen.toNat →
      step s = .next { s with moves := rest, rdata := .num (rxByte s i).toNat }) ∧
    ∀ k e, s.res[k]? = some e →
      (s.moves = .rdRes k .len :: rest → step s = .next { s with moves := rest, rdata := .num e.len.toNat }) ∧
      (s.moves = .rdRes k .frame :: rest → step s = .next { s with moves := rest, rdata := .bytes e.frame }) ∧
      (s.moves = .rdRes k .record :: rest → step s = .next { s with moves := rest, rdata := .record e.record }) ∧
      (s.moves = .rdRes k .more :: rest →
        step s = .next { s with moves := rest, rdata := .num (if e.more then 1 else 0) })

/-! ### The machine as a whole -/

/-- What a sequencer step never changes: the operand registers and TMO (R21, R22), OP (R25), OVR (R26), RVAL (R29); that it
makes at most one transaction on port T (R11); and which step can change TXB and its descriptors (R30, R61), RXB (R62),
the scanner's registers (R31, R175 to R177), the session's flags (R27) and RES with RESCNT (R32, R63, R250). `wire`,
`moves`, `rdata`, `params`, `epoch` and `draws` are the model's own fields (log 3, 6, 7, 12, 13, 14). -/
def Obligations.SequencerStepFrame : Prop :=
  ∀ s : State,
    (seqStep s).addr = s.addr ∧ (seqStep s).arg = s.arg ∧ (seqStep s).sec0 = s.sec0 ∧ (seqStep s).sec1 = s.sec1 ∧
    (seqStep s).sec2 = s.sec2 ∧ (seqStep s).sec3 = s.sec3 ∧ (seqStep s).tmo = s.tmo ∧ (seqStep s).op = s.op ∧
    (seqStep s).ovr = s.ovr ∧ (seqStep s).rval = s.rval ∧ (seqStep s).moves = s.moves ∧ (seqStep s).rdata = s.rdata ∧
    (seqStep s).params = s.params ∧ (seqStep s).epoch = s.epoch ∧ (seqStep s).draws = s.draws ∧
    ((seqStep s).wire = s.wire ∨ ∃ e, (seqStep s).wire = s.wire ++ [e]) ∧
    (s.pc ≠ .reqBuild → (seqStep s).txb = s.txb ∧ (seqStep s).txlen = s.txlen ∧ (seqStep s).txkind = s.txkind) ∧
    (s.pc ≠ .lfRd → (seqStep s).rxb = s.rxb) ∧
    (s.pc ≠ .lfRd → s.pc ≠ .reqBuild →
      (seqStep s).llen = s.llen ∧ (seqStep s).ncnt = s.ncnt ∧ (seqStep s).phase = s.phase) ∧
    (s.pc ≠ .reqBuild → s.pc ≠ .lfArm → s.pc ≠ .lfRd → (seqStep s).rxlen = s.rxlen) ∧
    (s.pc ≠ .ackRd → s.pc ≠ .decode → (seqStep s).more = s.more) ∧
    (s.pc ≠ .ackRd → s.pc ≠ .loop → (seqStep s).fcbt = s.fcbt ∧ (seqStep s).first = s.first) ∧
    (s.pc ≠ .decode → (seqStep s).res = s.res ∧ (seqStep s).rescnt = s.rescnt ∨
      (seqStep s).res = [] ∧ (seqStep s).rescnt = 0 ∧ (seqStep s).errf = true)

/-- No step ends in a fault or a refusal: the model's choice (log 20), read from R250, by which every error leaves a block
that goes on, and from R70, by which every answer is allowed. Where R37 and R135 ask a model for a refusal the model
gives an effect (log 2, log 15), and an unanswered transaction leaves the state as it is (log 5). -/
def Obligations.StepNeverStops : Prop := ∀ s : State, SafeAt s

/-- The invariants below hold after reset (R37). -/
def Obligations.ResetMeetsTheInvariants : Prop :=
  MemoryOk State.reset ∧ WidthsOk State.reset ∧ ResultsOk State.reset ∧ CommandOk State.reset ∧
  ErrorsOk State.reset ∧ ScanOk State.reset ∧ DeadlinesOk State.reset ∧ ChecksumsOk State.reset ∧ SessionOk State.reset

/-- Every step keeps the canonical form of TXB and RXB and their bounds (R60), and TXLEN at most 261 (R30); and it keeps
TMO, ERRENV and RESCNT within their widths (R6, R22, R28, R32). -/
def Obligations.StepKeepsBuffersCanonical : Prop :=
  ∀ s t : State, step s = .next t → (MemoryOk s → MemoryOk t) ∧ (WidthsOk s → WidthsOk t)

/-- Every step keeps RESCNT right: the number of entries of RES, at most RES_CAP of them, if RES_CAP is finite (R6, R32,
R204); that number modulo 2^32 if RES_CAP is unbounded, R32's 32 bits, while RES goes on growing, which is the model's
choice (log 9). -/
def Obligations.StepKeepsResultCount : Prop := ∀ s t : State, ResultsOk s → step s = .next t → ResultsOk t

/-- Every step keeps the command that is running one that can be in that sequencer state (R230), and keeps the error
registers at a row of R242, ERRF at `ERR ≠ 0`, and a busy block without error (R23, R250, R255). -/
def Obligations.StepKeepsCommandAndErrorsLegal : Prop :=
  ∀ s t : State, step s = .next t → (CommandOk s → CommandOk t) ∧ (ErrorsOk s → ErrorsOk t)

/-- Every step keeps the scanner's registers right: NCNT stops at 257 (R136 (c)), the window of Searching (R36), the
precondition of VERIFY (R203), and RXB holding a frame whenever an idle block has RXLEN other than 0 (R205). -/
def Obligations.StepKeepsScannerRight : Prop := ∀ s t : State, ScanOk s → step s = .next t → ScanOk t

/-- Every read on port T comes directly after a deadline set to the running command's TMO (R68, R76). -/
def Obligations.EveryReadIsArmed : Prop := ∀ s t : State, DeadlinesOk s → step s = .next t → DeadlinesOk t

/-- No frame with a stale checksum is ever written to port T (R138, R290). -/
def Obligations.NoStaleChecksumOnTheWire : Prop := ∀ s t : State, ChecksumsOk s → step s = .next t → ChecksumsOk t

/-- Every step keeps the session's flags right for its results: the FCB of request `k` is `k mod 2`, every result but
the last says more, and what R233 says of a session that ended without error. -/
def Obligations.StepKeepsSessionRight : Prop := ∀ s t : State, SessionOk s → step s = .next t → SessionOk t

/-- R34, R72 with U6 and U7 (93_implementation_defined.md): a host read of TXB, RXB or RES of a busy block, of RXB from
index RXLEN on, or of an entry RES does not have, changes nothing of the block but the value returned. What it returns is
free; `rdata` and the counter `draws` of such reads are the model's own fields (log 13, log 14). -/
def Obligations.OpenReadsChangeNothing : Prop :=
  ∀ (s : State) (rest : List HostMove) (m : HostMove), s.moves = m :: rest →
    (s.pc ≠ .idle ∧ (∃ sp i, m = .rdb sp i) ∨ s.pc ≠ .idle ∧ (∃ k f, m = .rdRes k f) ∨
      (∃ i, m = .rdb .RXB i ∧ s.rxlen.toNat ≤ i) ∨ ∃ k f, m = .rdRes k f ∧ s.res.length ≤ k) →
    ∃ v, step s = .next { s with moves := rest, rdata := v, draws := s.draws + 1 }
end

