-- ==== Sys2Proof/Laws/Memory.lean ====
section
/-! SUPPORT. The laws of the byte buffers: read after write, canonical form, index bounds. -/

namespace Sys2Proof.Machine

@[simp] theorem Memory.read_nil (i : Nat) : Memory.read [] i = none := rfl

theorem Memory.read_write_same (m : Memory) (i : Nat) (v : Byte) : (Memory.write m i v).read i = some v := by
  induction m with
  | nil => simp [Memory.write, Memory.read]
  | cons c m ih =>
    obtain ⟨a, b⟩ := c
    unfold Memory.write
    split
    · simp [Memory.read]
    · split
      · simp [Memory.read]
      · simp [Memory.read, *]

theorem Memory.read_write_other (m : Memory) {i j : Nat} (v : Byte) (h : j ≠ i) :
    (Memory.write m i v).read j = m.read j := by
  induction m with
  | nil => simp [Memory.write, Memory.read, h, Memory.unlisted]
  | cons c m ih =>
    obtain ⟨a, b⟩ := c
    unfold Memory.write
    split
    · simp [Memory.read, h]
    · split
      · rename_i h1; subst h1; simp [Memory.read, h]
      · simp [Memory.read, ih]

/-- What one read gives after one write. -/
theorem Memory.read_write (m : Memory) (i j : Nat) (v : Byte) :
    (Memory.write m i v).read j = if j = i then some v else m.read j := by
  split
  · subst j; exact Memory.read_write_same m i v
  · exact Memory.read_write_other m v ‹_›

theorem Memory.mem_write {m : Memory} {i : Nat} {v : Byte} {c : Host.Cell} (h : c ∈ Memory.write m i v) :
    c = (i, v) ∨ c ∈ m := by
  induction m with
  | nil => simpa [Memory.write] using h
  | cons d m ih =>
    obtain ⟨a, b⟩ := d
    unfold Memory.write at h
    split at h
    · simpa using h
    · split at h
      · rcases List.mem_cons.1 h with h | h
        · exact .inl h
        · exact .inr (List.mem_cons_of_mem _ h)
      · rcases List.mem_cons.1 h with h | h
        · exact .inr (h ▸ List.mem_cons_self)
        · rcases ih h with h | h
          · exact .inl h
          · exact .inr (List.mem_cons_of_mem _ h)

/-- Every write keeps the canonical form. -/
theorem Memory.wf_write {m : Memory} (i : Nat) (v : Byte) (h : m.wf) : (Memory.write m i v).wf := by
  refine ⟨?_, by simp [Memory.unlisted]⟩
  replace h := h.1
  induction m with
  | nil => simp [Memory.write]
  | cons c m ih =>
    obtain ⟨a, b⟩ := c
    simp only [List.map_cons, List.pairwise_cons] at h
    unfold Memory.write
    split
    · rename_i hia
      simp only [List.map_cons, List.pairwise_cons]
      refine ⟨fun x hx => ?_, h⟩
      rcases List.mem_cons.1 hx with rfl | hx
      · exact hia
      · exact Nat.lt_trans hia (h.1 x hx)
    · split
      · rename_i hi; subst hi; simpa using h
      · simp only [List.map_cons, List.pairwise_cons]
        refine ⟨fun x hx => ?_, ih h.2⟩
        obtain ⟨c, hc, rfl⟩ := List.mem_map.1 hx
        rcases Memory.mem_write hc with rfl | hc
        · simp only; omega
        · exact h.1 _ (List.mem_map_of_mem hc)

theorem Memory.wf_nil : Memory.wf [] := by decide

/-- A write inside the buffer keeps the indices inside. -/
theorem Memory.bound_write {m : Memory} {i n : Nat} (v : Byte) (hi : i < n) (h : ∀ c ∈ m, c.1 < n) :
    ∀ c ∈ Memory.write m i v, c.1 < n := by
  intro c hc
  rcases Memory.mem_write hc with rfl | hc
  · exact hi
  · exact h c hc

/-- Canonical memories that read alike are equal data. -/
theorem Memory.ext_of_wf {m m' : Memory} (h : m.wf) (h' : m'.wf) (hr : ∀ i, m.read i = m'.read i) : m = m' := by
  have head : ∀ {a : Nat} {b : Byte} {m : Memory}, Memory.wf ((a, b) :: m) → Memory.read m a = none := by
    intro a b m hm
    replace hm := (List.pairwise_cons.1 (show List.Pairwise _ (a :: m.map Prod.fst) from hm.1)).1
    induction m with
    | nil => rfl
    | cons c m ih =>
      obtain ⟨x, y⟩ := c
      have hx : a < x := hm x (by simp)
      simp only [Memory.read, show a ≠ x by omega, if_false]
      exact ih fun z hz => hm z (by simp only [List.map_cons, List.mem_cons]; exact .inr hz)
  have lo : ∀ {a : Nat} {b : Byte} {m : Memory} {j : Nat}, Memory.wf ((a, b) :: m) → j < a → Memory.read m j = none := by
    intro a b m j hm hj
    replace hm := (List.pairwise_cons.1 (show List.Pairwise _ (a :: m.map Prod.fst) from hm.1)).1
    induction m with
    | nil => rfl
    | cons c m ih =>
      obtain ⟨x, y⟩ := c
      have hx : a < x := hm x (by simp)
      simp only [Memory.read, show j ≠ x by omega, if_false]
      exact ih fun z hz => hm z (by simp only [List.map_cons, List.mem_cons]; exact .inr hz)
  induction m generalizing m' with
  | nil =>
    cases m' with
    | nil => rfl
    | cons c m' =>
      obtain ⟨a, b⟩ := c
      simpa [Memory.read, Memory.unlisted] using hr a
  | cons c m ih =>
    obtain ⟨a, b⟩ := c
    cases m' with
    | nil => simpa [Memory.read, Memory.unlisted] using hr a
    | cons c' m' =>
      obtain ⟨a', b'⟩ := c'
      have ha : a = a' := by
        rcases Nat.lt_trichotomy a a' with hlt | heq | hlt
        · have := hr a
          simp [Memory.read, show a ≠ a' by omega, lo h' hlt] at this
        · exact heq
        · have := hr a'
          simp [Memory.read, show a' ≠ a by omega, lo h hlt] at this
      subst ha
      have hb : b = b' := by simpa [Memory.read, Memory.unlisted] using hr a
      subst hb
      have hm : Memory.wf m := ⟨(List.pairwise_cons.1 (show List.Pairwise _ (a :: m.map Prod.fst) from h.1)).2, by simp [Memory.unlisted]⟩
      have hm' : Memory.wf m' := ⟨(List.pairwise_cons.1 (show List.Pairwise _ (a :: m'.map Prod.fst) from h'.1)).2, by simp [Memory.unlisted]⟩
      congr 1
      refine ih hm hm' fun i => ?_
      by_cases hi : i = a
      · subst hi; rw [head h, head h']
      · simpa [Memory.read, hi] using hr i

end Sys2Proof.Machine
end

