-- ==== Sys2Proof/Laws/State.lean ====
section
/-! SUPPORT. What each named update does to each field of State, so that no proof unfolds a record update. -/

namespace Sys2Proof.Machine

/-! ### `accept` (10_state.md R23) -/

@[simp] theorem accept_addr (c : Byte) (s : State) : (accept c s).addr = s.addr := rfl
@[simp] theorem accept_arg (c : Byte) (s : State) : (accept c s).arg = s.arg := rfl
@[simp] theorem accept_sec0 (c : Byte) (s : State) : (accept c s).sec0 = s.sec0 := rfl
@[simp] theorem accept_sec1 (c : Byte) (s : State) : (accept c s).sec1 = s.sec1 := rfl
@[simp] theorem accept_sec2 (c : Byte) (s : State) : (accept c s).sec2 = s.sec2 := rfl
@[simp] theorem accept_sec3 (c : Byte) (s : State) : (accept c s).sec3 = s.sec3 := rfl
@[simp] theorem accept_tmo (c : Byte) (s : State) : (accept c s).tmo = s.tmo := rfl
@[simp] theorem accept_pc (c : Byte) (s : State) : (accept c s).pc = s.pc := rfl
@[simp] theorem accept_op (c : Byte) (s : State) : (accept c s).op = c := rfl
@[simp] theorem accept_done (c : Byte) (s : State) : (accept c s).done = false := rfl
@[simp] theorem accept_errf (c : Byte) (s : State) : (accept c s).errf = false := rfl
@[simp] theorem accept_ovr (c : Byte) (s : State) : (accept c s).ovr = false := rfl
@[simp] theorem accept_fcbt (c : Byte) (s : State) : (accept c s).fcbt = s.fcbt := rfl
@[simp] theorem accept_first (c : Byte) (s : State) : (accept c s).first = s.first := rfl
@[simp] theorem accept_more (c : Byte) (s : State) : (accept c s).more = s.more := rfl
@[simp] theorem accept_phase (c : Byte) (s : State) : (accept c s).phase = s.phase := rfl
@[simp] theorem accept_err (c : Byte) (s : State) : (accept c s).err = 0 := rfl
@[simp] theorem accept_errsub (c : Byte) (s : State) : (accept c s).errsub = 0 := rfl
@[simp] theorem accept_errenv (c : Byte) (s : State) : (accept c s).errenv = 0 := rfl
@[simp] theorem accept_rval (c : Byte) (s : State) : (accept c s).rval = s.rval := rfl
@[simp] theorem accept_txlen (c : Byte) (s : State) : (accept c s).txlen = s.txlen := rfl
@[simp] theorem accept_txkind (c : Byte) (s : State) : (accept c s).txkind = s.txkind := rfl
@[simp] theorem accept_rxlen (c : Byte) (s : State) : (accept c s).rxlen = s.rxlen := rfl
@[simp] theorem accept_llen (c : Byte) (s : State) : (accept c s).llen = s.llen := rfl
@[simp] theorem accept_ncnt (c : Byte) (s : State) : (accept c s).ncnt = s.ncnt := rfl
@[simp] theorem accept_rescnt (c : Byte) (s : State) : (accept c s).rescnt = s.rescnt := rfl
@[simp] theorem accept_txb (c : Byte) (s : State) : (accept c s).txb = s.txb := rfl
@[simp] theorem accept_rxb (c : Byte) (s : State) : (accept c s).rxb = s.rxb := rfl
@[simp] theorem accept_res (c : Byte) (s : State) : (accept c s).res = s.res := rfl
@[simp] theorem accept_writeAns (c : Byte) (s : State) : (accept c s).writeAns = s.writeAns := rfl
@[simp] theorem accept_deadlineAns (c : Byte) (s : State) : (accept c s).deadlineAns = s.deadlineAns := rfl
@[simp] theorem accept_readAns (c : Byte) (s : State) : (accept c s).readAns = s.readAns := rfl
@[simp] theorem accept_wire (c : Byte) (s : State) : (accept c s).wire = s.wire := rfl
@[simp] theorem accept_moves (c : Byte) (s : State) : (accept c s).moves = s.moves := rfl
@[simp] theorem accept_rdata (c : Byte) (s : State) : (accept c s).rdata = s.rdata := rfl
@[simp] theorem accept_draws (c : Byte) (s : State) : (accept c s).draws = s.draws := rfl
@[simp] theorem accept_epoch (c : Byte) (s : State) : (accept c s).epoch = s.epoch := rfl
@[simp] theorem accept_params (c : Byte) (s : State) : (accept c s).params = s.params := rfl

/-! ### `raise` (60_exceptions.md R250) -/

@[simp] theorem raise_addr (k : ErrKind) (sub : Byte) (env : Nat) (s : State) : (raise k sub env s).addr = s.addr := rfl
@[simp] theorem raise_arg (k : ErrKind) (sub : Byte) (env : Nat) (s : State) : (raise k sub env s).arg = s.arg := rfl
@[simp] theorem raise_sec0 (k : ErrKind) (sub : Byte) (env : Nat) (s : State) : (raise k sub env s).sec0 = s.sec0 := rfl
@[simp] theorem raise_sec1 (k : ErrKind) (sub : Byte) (env : Nat) (s : State) : (raise k sub env s).sec1 = s.sec1 := rfl
@[simp] theorem raise_sec2 (k : ErrKind) (sub : Byte) (env : Nat) (s : State) : (raise k sub env s).sec2 = s.sec2 := rfl
@[simp] theorem raise_sec3 (k : ErrKind) (sub : Byte) (env : Nat) (s : State) : (raise k sub env s).sec3 = s.sec3 := rfl
@[simp] theorem raise_tmo (k : ErrKind) (sub : Byte) (env : Nat) (s : State) : (raise k sub env s).tmo = s.tmo := rfl
@[simp] theorem raise_pc (k : ErrKind) (sub : Byte) (env : Nat) (s : State) : (raise k sub env s).pc = .idle := rfl
@[simp] theorem raise_op (k : ErrKind) (sub : Byte) (env : Nat) (s : State) : (raise k sub env s).op = s.op := rfl
@[simp] theorem raise_done (k : ErrKind) (sub : Byte) (env : Nat) (s : State) : (raise k sub env s).done = true := rfl
@[simp] theorem raise_errf (k : ErrKind) (sub : Byte) (env : Nat) (s : State) : (raise k sub env s).errf = true := rfl
@[simp] theorem raise_ovr (k : ErrKind) (sub : Byte) (env : Nat) (s : State) : (raise k sub env s).ovr = s.ovr := rfl
@[simp] theorem raise_fcbt (k : ErrKind) (sub : Byte) (env : Nat) (s : State) : (raise k sub env s).fcbt = s.fcbt := rfl
@[simp] theorem raise_first (k : ErrKind) (sub : Byte) (env : Nat) (s : State) : (raise k sub env s).first = s.first := rfl
@[simp] theorem raise_more (k : ErrKind) (sub : Byte) (env : Nat) (s : State) : (raise k sub env s).more = s.more := rfl
@[simp] theorem raise_phase (k : ErrKind) (sub : Byte) (env : Nat) (s : State) : (raise k sub env s).phase = s.phase := rfl
@[simp] theorem raise_err (k : ErrKind) (sub : Byte) (env : Nat) (s : State) : (raise k sub env s).err = k.code := rfl
@[simp] theorem raise_errsub (k : ErrKind) (sub : Byte) (env : Nat) (s : State) : (raise k sub env s).errsub = sub := rfl
@[simp] theorem raise_errenv (k : ErrKind) (sub : Byte) (env : Nat) (s : State) : (raise k sub env s).errenv = env % 2 ^ s.params.envW := rfl
@[simp] theorem raise_rval (k : ErrKind) (sub : Byte) (env : Nat) (s : State) : (raise k sub env s).rval = s.rval := rfl
@[simp] theorem raise_txlen (k : ErrKind) (sub : Byte) (env : Nat) (s : State) : (raise k sub env s).txlen = s.txlen := rfl
@[simp] theorem raise_txkind (k : ErrKind) (sub : Byte) (env : Nat) (s : State) : (raise k sub env s).txkind = s.txkind := rfl
@[simp] theorem raise_rxlen (k : ErrKind) (sub : Byte) (env : Nat) (s : State) : (raise k sub env s).rxlen = s.rxlen := rfl
@[simp] theorem raise_llen (k : ErrKind) (sub : Byte) (env : Nat) (s : State) : (raise k sub env s).llen = s.llen := rfl
@[simp] theorem raise_ncnt (k : ErrKind) (sub : Byte) (env : Nat) (s : State) : (raise k sub env s).ncnt = s.ncnt := rfl
@[simp] theorem raise_rescnt (k : ErrKind) (sub : Byte) (env : Nat) (s : State) : (raise k sub env s).rescnt = if fillsRes s.op then 0 else s.rescnt := rfl
@[simp] theorem raise_txb (k : ErrKind) (sub : Byte) (env : Nat) (s : State) : (raise k sub env s).txb = s.txb := rfl
@[simp] theorem raise_rxb (k : ErrKind) (sub : Byte) (env : Nat) (s : State) : (raise k sub env s).rxb = s.rxb := rfl
@[simp] theorem raise_res (k : ErrKind) (sub : Byte) (env : Nat) (s : State) : (raise k sub env s).res = if fillsRes s.op then [] else s.res := rfl
@[simp] theorem raise_writeAns (k : ErrKind) (sub : Byte) (env : Nat) (s : State) : (raise k sub env s).writeAns = s.writeAns := rfl
@[simp] theorem raise_deadlineAns (k : ErrKind) (sub : Byte) (env : Nat) (s : State) : (raise k sub env s).deadlineAns = s.deadlineAns := rfl
@[simp] theorem raise_readAns (k : ErrKind) (sub : Byte) (env : Nat) (s : State) : (raise k sub env s).readAns = s.readAns := rfl
@[simp] theorem raise_wire (k : ErrKind) (sub : Byte) (env : Nat) (s : State) : (raise k sub env s).wire = s.wire := rfl
@[simp] theorem raise_moves (k : ErrKind) (sub : Byte) (env : Nat) (s : State) : (raise k sub env s).moves = s.moves := rfl
@[simp] theorem raise_rdata (k : ErrKind) (sub : Byte) (env : Nat) (s : State) : (raise k sub env s).rdata = s.rdata := rfl
@[simp] theorem raise_draws (k : ErrKind) (sub : Byte) (env : Nat) (s : State) : (raise k sub env s).draws = s.draws := rfl
@[simp] theorem raise_epoch (k : ErrKind) (sub : Byte) (env : Nat) (s : State) : (raise k sub env s).epoch = s.epoch := rfl
@[simp] theorem raise_params (k : ErrKind) (sub : Byte) (env : Nat) (s : State) : (raise k sub env s).params = s.params := rfl

/-! ### `finish` (60_exceptions.md R255) -/

@[simp] theorem finish_addr (s : State) : (finish s).addr = s.addr := rfl
@[simp] theorem finish_arg (s : State) : (finish s).arg = s.arg := rfl
@[simp] theorem finish_sec0 (s : State) : (finish s).sec0 = s.sec0 := rfl
@[simp] theorem finish_sec1 (s : State) : (finish s).sec1 = s.sec1 := rfl
@[simp] theorem finish_sec2 (s : State) : (finish s).sec2 = s.sec2 := rfl
@[simp] theorem finish_sec3 (s : State) : (finish s).sec3 = s.sec3 := rfl
@[simp] theorem finish_tmo (s : State) : (finish s).tmo = s.tmo := rfl
@[simp] theorem finish_pc (s : State) : (finish s).pc = .idle := rfl
@[simp] theorem finish_op (s : State) : (finish s).op = s.op := rfl
@[simp] theorem finish_done (s : State) : (finish s).done = true := rfl
@[simp] theorem finish_errf (s : State) : (finish s).errf = s.errf := rfl
@[simp] theorem finish_ovr (s : State) : (finish s).ovr = s.ovr := rfl
@[simp] theorem finish_fcbt (s : State) : (finish s).fcbt = s.fcbt := rfl
@[simp] theorem finish_first (s : State) : (finish s).first = s.first := rfl
@[simp] theorem finish_more (s : State) : (finish s).more = s.more := rfl
@[simp] theorem finish_phase (s : State) : (finish s).phase = s.phase := rfl
@[simp] theorem finish_err (s : State) : (finish s).err = s.err := rfl
@[simp] theorem finish_errsub (s : State) : (finish s).errsub = s.errsub := rfl
@[simp] theorem finish_errenv (s : State) : (finish s).errenv = s.errenv := rfl
@[simp] theorem finish_rval (s : State) : (finish s).rval = s.rval := rfl
@[simp] theorem finish_txlen (s : State) : (finish s).txlen = s.txlen := rfl
@[simp] theorem finish_txkind (s : State) : (finish s).txkind = s.txkind := rfl
@[simp] theorem finish_rxlen (s : State) : (finish s).rxlen = s.rxlen := rfl
@[simp] theorem finish_llen (s : State) : (finish s).llen = s.llen := rfl
@[simp] theorem finish_ncnt (s : State) : (finish s).ncnt = s.ncnt := rfl
@[simp] theorem finish_rescnt (s : State) : (finish s).rescnt = s.rescnt := rfl
@[simp] theorem finish_txb (s : State) : (finish s).txb = s.txb := rfl
@[simp] theorem finish_rxb (s : State) : (finish s).rxb = s.rxb := rfl
@[simp] theorem finish_res (s : State) : (finish s).res = s.res := rfl
@[simp] theorem finish_writeAns (s : State) : (finish s).writeAns = s.writeAns := rfl
@[simp] theorem finish_deadlineAns (s : State) : (finish s).deadlineAns = s.deadlineAns := rfl
@[simp] theorem finish_readAns (s : State) : (finish s).readAns = s.readAns := rfl
@[simp] theorem finish_wire (s : State) : (finish s).wire = s.wire := rfl
@[simp] theorem finish_moves (s : State) : (finish s).moves = s.moves := rfl
@[simp] theorem finish_rdata (s : State) : (finish s).rdata = s.rdata := rfl
@[simp] theorem finish_draws (s : State) : (finish s).draws = s.draws := rfl
@[simp] theorem finish_epoch (s : State) : (finish s).epoch = s.epoch := rfl
@[simp] theorem finish_params (s : State) : (finish s).params = s.params := rfl

/-! ### `clearRes` -/

@[simp] theorem clearRes_addr (s : State) : (clearRes s).addr = s.addr := rfl
@[simp] theorem clearRes_arg (s : State) : (clearRes s).arg = s.arg := rfl
@[simp] theorem clearRes_sec0 (s : State) : (clearRes s).sec0 = s.sec0 := rfl
@[simp] theorem clearRes_sec1 (s : State) : (clearRes s).sec1 = s.sec1 := rfl
@[simp] theorem clearRes_sec2 (s : State) : (clearRes s).sec2 = s.sec2 := rfl
@[simp] theorem clearRes_sec3 (s : State) : (clearRes s).sec3 = s.sec3 := rfl
@[simp] theorem clearRes_tmo (s : State) : (clearRes s).tmo = s.tmo := rfl
@[simp] theorem clearRes_pc (s : State) : (clearRes s).pc = s.pc := rfl
@[simp] theorem clearRes_op (s : State) : (clearRes s).op = s.op := rfl
@[simp] theorem clearRes_done (s : State) : (clearRes s).done = s.done := rfl
@[simp] theorem clearRes_errf (s : State) : (clearRes s).errf = s.errf := rfl
@[simp] theorem clearRes_ovr (s : State) : (clearRes s).ovr = s.ovr := rfl
@[simp] theorem clearRes_fcbt (s : State) : (clearRes s).fcbt = s.fcbt := rfl
@[simp] theorem clearRes_first (s : State) : (clearRes s).first = s.first := rfl
@[simp] theorem clearRes_more (s : State) : (clearRes s).more = s.more := rfl
@[simp] theorem clearRes_phase (s : State) : (clearRes s).phase = s.phase := rfl
@[simp] theorem clearRes_err (s : State) : (clearRes s).err = s.err := rfl
@[simp] theorem clearRes_errsub (s : State) : (clearRes s).errsub = s.errsub := rfl
@[simp] theorem clearRes_errenv (s : State) : (clearRes s).errenv = s.errenv := rfl
@[simp] theorem clearRes_rval (s : State) : (clearRes s).rval = s.rval := rfl
@[simp] theorem clearRes_txlen (s : State) : (clearRes s).txlen = s.txlen := rfl
@[simp] theorem clearRes_txkind (s : State) : (clearRes s).txkind = s.txkind := rfl
@[simp] theorem clearRes_rxlen (s : State) : (clearRes s).rxlen = s.rxlen := rfl
@[simp] theorem clearRes_llen (s : State) : (clearRes s).llen = s.llen := rfl
@[simp] theorem clearRes_ncnt (s : State) : (clearRes s).ncnt = s.ncnt := rfl
@[simp] theorem clearRes_rescnt (s : State) : (clearRes s).rescnt = 0 := rfl
@[simp] theorem clearRes_txb (s : State) : (clearRes s).txb = s.txb := rfl
@[simp] theorem clearRes_rxb (s : State) : (clearRes s).rxb = s.rxb := rfl
@[simp] theorem clearRes_res (s : State) : (clearRes s).res = [] := rfl
@[simp] theorem clearRes_writeAns (s : State) : (clearRes s).writeAns = s.writeAns := rfl
@[simp] theorem clearRes_deadlineAns (s : State) : (clearRes s).deadlineAns = s.deadlineAns := rfl
@[simp] theorem clearRes_readAns (s : State) : (clearRes s).readAns = s.readAns := rfl
@[simp] theorem clearRes_wire (s : State) : (clearRes s).wire = s.wire := rfl
@[simp] theorem clearRes_moves (s : State) : (clearRes s).moves = s.moves := rfl
@[simp] theorem clearRes_rdata (s : State) : (clearRes s).rdata = s.rdata := rfl
@[simp] theorem clearRes_draws (s : State) : (clearRes s).draws = s.draws := rfl
@[simp] theorem clearRes_epoch (s : State) : (clearRes s).epoch = s.epoch := rfl
@[simp] theorem clearRes_params (s : State) : (clearRes s).params = s.params := rfl

/-! ### `sessionStart` (44_session.md R222) -/

@[simp] theorem sessionStart_addr (s : State) : (sessionStart s).addr = s.addr := rfl
@[simp] theorem sessionStart_arg (s : State) : (sessionStart s).arg = s.arg := rfl
@[simp] theorem sessionStart_sec0 (s : State) : (sessionStart s).sec0 = s.sec0 := rfl
@[simp] theorem sessionStart_sec1 (s : State) : (sessionStart s).sec1 = s.sec1 := rfl
@[simp] theorem sessionStart_sec2 (s : State) : (sessionStart s).sec2 = s.sec2 := rfl
@[simp] theorem sessionStart_sec3 (s : State) : (sessionStart s).sec3 = s.sec3 := rfl
@[simp] theorem sessionStart_tmo (s : State) : (sessionStart s).tmo = s.tmo := rfl
@[simp] theorem sessionStart_pc (s : State) : (sessionStart s).pc = .loop := rfl
@[simp] theorem sessionStart_op (s : State) : (sessionStart s).op = s.op := rfl
@[simp] theorem sessionStart_done (s : State) : (sessionStart s).done = s.done := rfl
@[simp] theorem sessionStart_errf (s : State) : (sessionStart s).errf = s.errf := rfl
@[simp] theorem sessionStart_ovr (s : State) : (sessionStart s).ovr = s.ovr := rfl
@[simp] theorem sessionStart_fcbt (s : State) : (sessionStart s).fcbt = false := rfl
@[simp] theorem sessionStart_first (s : State) : (sessionStart s).first = true := rfl
@[simp] theorem sessionStart_more (s : State) : (sessionStart s).more = false := rfl
@[simp] theorem sessionStart_phase (s : State) : (sessionStart s).phase = s.phase := rfl
@[simp] theorem sessionStart_err (s : State) : (sessionStart s).err = s.err := rfl
@[simp] theorem sessionStart_errsub (s : State) : (sessionStart s).errsub = s.errsub := rfl
@[simp] theorem sessionStart_errenv (s : State) : (sessionStart s).errenv = s.errenv := rfl
@[simp] theorem sessionStart_rval (s : State) : (sessionStart s).rval = s.rval := rfl
@[simp] theorem sessionStart_txlen (s : State) : (sessionStart s).txlen = s.txlen := rfl
@[simp] theorem sessionStart_txkind (s : State) : (sessionStart s).txkind = s.txkind := rfl
@[simp] theorem sessionStart_rxlen (s : State) : (sessionStart s).rxlen = s.rxlen := rfl
@[simp] theorem sessionStart_llen (s : State) : (sessionStart s).llen = s.llen := rfl
@[simp] theorem sessionStart_ncnt (s : State) : (sessionStart s).ncnt = s.ncnt := rfl
@[simp] theorem sessionStart_rescnt (s : State) : (sessionStart s).rescnt = s.rescnt := rfl
@[simp] theorem sessionStart_txb (s : State) : (sessionStart s).txb = s.txb := rfl
@[simp] theorem sessionStart_rxb (s : State) : (sessionStart s).rxb = s.rxb := rfl
@[simp] theorem sessionStart_res (s : State) : (sessionStart s).res = s.res := rfl
@[simp] theorem sessionStart_writeAns (s : State) : (sessionStart s).writeAns = s.writeAns := rfl
@[simp] theorem sessionStart_deadlineAns (s : State) : (sessionStart s).deadlineAns = s.deadlineAns := rfl
@[simp] theorem sessionStart_readAns (s : State) : (sessionStart s).readAns = s.readAns := rfl
@[simp] theorem sessionStart_wire (s : State) : (sessionStart s).wire = s.wire := rfl
@[simp] theorem sessionStart_moves (s : State) : (sessionStart s).moves = s.moves := rfl
@[simp] theorem sessionStart_rdata (s : State) : (sessionStart s).rdata = s.rdata := rfl
@[simp] theorem sessionStart_draws (s : State) : (sessionStart s).draws = s.draws := rfl
@[simp] theorem sessionStart_epoch (s : State) : (sessionStart s).epoch = s.epoch := rfl
@[simp] theorem sessionStart_params (s : State) : (sessionStart s).params = s.params := rfl

/-! ### `scanInit` (42_transport_io.md R175) -/

@[simp] theorem scanInit_addr (s : State) : (scanInit s).addr = s.addr := rfl
@[simp] theorem scanInit_arg (s : State) : (scanInit s).arg = s.arg := rfl
@[simp] theorem scanInit_sec0 (s : State) : (scanInit s).sec0 = s.sec0 := rfl
@[simp] theorem scanInit_sec1 (s : State) : (scanInit s).sec1 = s.sec1 := rfl
@[simp] theorem scanInit_sec2 (s : State) : (scanInit s).sec2 = s.sec2 := rfl
@[simp] theorem scanInit_sec3 (s : State) : (scanInit s).sec3 = s.sec3 := rfl
@[simp] theorem scanInit_tmo (s : State) : (scanInit s).tmo = s.tmo := rfl
@[simp] theorem scanInit_pc (s : State) : (scanInit s).pc = s.pc := rfl
@[simp] theorem scanInit_op (s : State) : (scanInit s).op = s.op := rfl
@[simp] theorem scanInit_done (s : State) : (scanInit s).done = s.done := rfl
@[simp] theorem scanInit_errf (s : State) : (scanInit s).errf = s.errf := rfl
@[simp] theorem scanInit_ovr (s : State) : (scanInit s).ovr = s.ovr := rfl
@[simp] theorem scanInit_fcbt (s : State) : (scanInit s).fcbt = s.fcbt := rfl
@[simp] theorem scanInit_first (s : State) : (scanInit s).first = s.first := rfl
@[simp] theorem scanInit_more (s : State) : (scanInit s).more = s.more := rfl
@[simp] theorem scanInit_phase (s : State) : (scanInit s).phase = false := rfl
@[simp] theorem scanInit_err (s : State) : (scanInit s).err = s.err := rfl
@[simp] theorem scanInit_errsub (s : State) : (scanInit s).errsub = s.errsub := rfl
@[simp] theorem scanInit_errenv (s : State) : (scanInit s).errenv = s.errenv := rfl
@[simp] theorem scanInit_rval (s : State) : (scanInit s).rval = s.rval := rfl
@[simp] theorem scanInit_txlen (s : State) : (scanInit s).txlen = s.txlen := rfl
@[simp] theorem scanInit_txkind (s : State) : (scanInit s).txkind = s.txkind := rfl
@[simp] theorem scanInit_rxlen (s : State) : (scanInit s).rxlen = 0 := rfl
@[simp] theorem scanInit_llen (s : State) : (scanInit s).llen = 0 := rfl
@[simp] theorem scanInit_ncnt (s : State) : (scanInit s).ncnt = 0 := rfl
@[simp] theorem scanInit_rescnt (s : State) : (scanInit s).rescnt = s.rescnt := rfl
@[simp] theorem scanInit_txb (s : State) : (scanInit s).txb = s.txb := rfl
@[simp] theorem scanInit_rxb (s : State) : (scanInit s).rxb = s.rxb := rfl
@[simp] theorem scanInit_res (s : State) : (scanInit s).res = s.res := rfl
@[simp] theorem scanInit_writeAns (s : State) : (scanInit s).writeAns = s.writeAns := rfl
@[simp] theorem scanInit_deadlineAns (s : State) : (scanInit s).deadlineAns = s.deadlineAns := rfl
@[simp] theorem scanInit_readAns (s : State) : (scanInit s).readAns = s.readAns := rfl
@[simp] theorem scanInit_wire (s : State) : (scanInit s).wire = s.wire := rfl
@[simp] theorem scanInit_moves (s : State) : (scanInit s).moves = s.moves := rfl
@[simp] theorem scanInit_rdata (s : State) : (scanInit s).rdata = s.rdata := rfl
@[simp] theorem scanInit_draws (s : State) : (scanInit s).draws = s.draws := rfl
@[simp] theorem scanInit_epoch (s : State) : (scanInit s).epoch = s.epoch := rfl
@[simp] theorem scanInit_params (s : State) : (scanInit s).params = s.params := rfl

/-! ### `writeTx` (20_memory.md R61) -/

@[simp] theorem writeTx_addr (i : Nat) (b : Byte) (s : State) : (writeTx i b s).addr = s.addr := by unfold writeTx; split <;> rfl
@[simp] theorem writeTx_arg (i : Nat) (b : Byte) (s : State) : (writeTx i b s).arg = s.arg := by unfold writeTx; split <;> rfl
@[simp] theorem writeTx_sec0 (i : Nat) (b : Byte) (s : State) : (writeTx i b s).sec0 = s.sec0 := by unfold writeTx; split <;> rfl
@[simp] theorem writeTx_sec1 (i : Nat) (b : Byte) (s : State) : (writeTx i b s).sec1 = s.sec1 := by unfold writeTx; split <;> rfl
@[simp] theorem writeTx_sec2 (i : Nat) (b : Byte) (s : State) : (writeTx i b s).sec2 = s.sec2 := by unfold writeTx; split <;> rfl
@[simp] theorem writeTx_sec3 (i : Nat) (b : Byte) (s : State) : (writeTx i b s).sec3 = s.sec3 := by unfold writeTx; split <;> rfl
@[simp] theorem writeTx_tmo (i : Nat) (b : Byte) (s : State) : (writeTx i b s).tmo = s.tmo := by unfold writeTx; split <;> rfl
@[simp] theorem writeTx_pc (i : Nat) (b : Byte) (s : State) : (writeTx i b s).pc = s.pc := by unfold writeTx; split <;> rfl
@[simp] theorem writeTx_op (i : Nat) (b : Byte) (s : State) : (writeTx i b s).op = s.op := by unfold writeTx; split <;> rfl
@[simp] theorem writeTx_done (i : Nat) (b : Byte) (s : State) : (writeTx i b s).done = s.done := by unfold writeTx; split <;> rfl
@[simp] theorem writeTx_errf (i : Nat) (b : Byte) (s : State) : (writeTx i b s).errf = s.errf := by unfold writeTx; split <;> rfl
@[simp] theorem writeTx_ovr (i : Nat) (b : Byte) (s : State) : (writeTx i b s).ovr = s.ovr := by unfold writeTx; split <;> rfl
@[simp] theorem writeTx_fcbt (i : Nat) (b : Byte) (s : State) : (writeTx i b s).fcbt = s.fcbt := by unfold writeTx; split <;> rfl
@[simp] theorem writeTx_first (i : Nat) (b : Byte) (s : State) : (writeTx i b s).first = s.first := by unfold writeTx; split <;> rfl
@[simp] theorem writeTx_more (i : Nat) (b : Byte) (s : State) : (writeTx i b s).more = s.more := by unfold writeTx; split <;> rfl
@[simp] theorem writeTx_phase (i : Nat) (b : Byte) (s : State) : (writeTx i b s).phase = s.phase := by unfold writeTx; split <;> rfl
@[simp] theorem writeTx_err (i : Nat) (b : Byte) (s : State) : (writeTx i b s).err = s.err := by unfold writeTx; split <;> rfl
@[simp] theorem writeTx_errsub (i : Nat) (b : Byte) (s : State) : (writeTx i b s).errsub = s.errsub := by unfold writeTx; split <;> rfl
@[simp] theorem writeTx_errenv (i : Nat) (b : Byte) (s : State) : (writeTx i b s).errenv = s.errenv := by unfold writeTx; split <;> rfl
@[simp] theorem writeTx_rval (i : Nat) (b : Byte) (s : State) : (writeTx i b s).rval = s.rval := by unfold writeTx; split <;> rfl
@[simp] theorem writeTx_txlen (i : Nat) (b : Byte) (s : State) : (writeTx i b s).txlen = s.txlen := by unfold writeTx; split <;> rfl
@[simp] theorem writeTx_txkind (i : Nat) (b : Byte) (s : State) : (writeTx i b s).txkind = s.txkind := by unfold writeTx; split <;> rfl
@[simp] theorem writeTx_rxlen (i : Nat) (b : Byte) (s : State) : (writeTx i b s).rxlen = s.rxlen := by unfold writeTx; split <;> rfl
@[simp] theorem writeTx_llen (i : Nat) (b : Byte) (s : State) : (writeTx i b s).llen = s.llen := by unfold writeTx; split <;> rfl
@[simp] theorem writeTx_ncnt (i : Nat) (b : Byte) (s : State) : (writeTx i b s).ncnt = s.ncnt := by unfold writeTx; split <;> rfl
@[simp] theorem writeTx_rescnt (i : Nat) (b : Byte) (s : State) : (writeTx i b s).rescnt = s.rescnt := by unfold writeTx; split <;> rfl
@[simp] theorem writeTx_rxb (i : Nat) (b : Byte) (s : State) : (writeTx i b s).rxb = s.rxb := by unfold writeTx; split <;> rfl
@[simp] theorem writeTx_res (i : Nat) (b : Byte) (s : State) : (writeTx i b s).res = s.res := by unfold writeTx; split <;> rfl
@[simp] theorem writeTx_writeAns (i : Nat) (b : Byte) (s : State) : (writeTx i b s).writeAns = s.writeAns := by unfold writeTx; split <;> rfl
@[simp] theorem writeTx_deadlineAns (i : Nat) (b : Byte) (s : State) : (writeTx i b s).deadlineAns = s.deadlineAns := by unfold writeTx; split <;> rfl
@[simp] theorem writeTx_readAns (i : Nat) (b : Byte) (s : State) : (writeTx i b s).readAns = s.readAns := by unfold writeTx; split <;> rfl
@[simp] theorem writeTx_wire (i : Nat) (b : Byte) (s : State) : (writeTx i b s).wire = s.wire := by unfold writeTx; split <;> rfl
@[simp] theorem writeTx_moves (i : Nat) (b : Byte) (s : State) : (writeTx i b s).moves = s.moves := by unfold writeTx; split <;> rfl
@[simp] theorem writeTx_rdata (i : Nat) (b : Byte) (s : State) : (writeTx i b s).rdata = s.rdata := by unfold writeTx; split <;> rfl
@[simp] theorem writeTx_draws (i : Nat) (b : Byte) (s : State) : (writeTx i b s).draws = s.draws := by unfold writeTx; split <;> rfl
@[simp] theorem writeTx_epoch (i : Nat) (b : Byte) (s : State) : (writeTx i b s).epoch = s.epoch := by unfold writeTx; split <;> rfl
@[simp] theorem writeTx_params (i : Nat) (b : Byte) (s : State) : (writeTx i b s).params = s.params := by unfold writeTx; split <;> rfl

/-! ### `writeRx` (20_memory.md R62) -/

@[simp] theorem writeRx_addr (i : Nat) (b : Byte) (s : State) : (writeRx i b s).addr = s.addr := by unfold writeRx; split <;> rfl
@[simp] theorem writeRx_arg (i : Nat) (b : Byte) (s : State) : (writeRx i b s).arg = s.arg := by unfold writeRx; split <;> rfl
@[simp] theorem writeRx_sec0 (i : Nat) (b : Byte) (s : State) : (writeRx i b s).sec0 = s.sec0 := by unfold writeRx; split <;> rfl
@[simp] theorem writeRx_sec1 (i : Nat) (b : Byte) (s : State) : (writeRx i b s).sec1 = s.sec1 := by unfold writeRx; split <;> rfl
@[simp] theorem writeRx_sec2 (i : Nat) (b : Byte) (s : State) : (writeRx i b s).sec2 = s.sec2 := by unfold writeRx; split <;> rfl
@[simp] theorem writeRx_sec3 (i : Nat) (b : Byte) (s : State) : (writeRx i b s).sec3 = s.sec3 := by unfold writeRx; split <;> rfl
@[simp] theorem writeRx_tmo (i : Nat) (b : Byte) (s : State) : (writeRx i b s).tmo = s.tmo := by unfold writeRx; split <;> rfl
@[simp] theorem writeRx_pc (i : Nat) (b : Byte) (s : State) : (writeRx i b s).pc = s.pc := by unfold writeRx; split <;> rfl
@[simp] theorem writeRx_op (i : Nat) (b : Byte) (s : State) : (writeRx i b s).op = s.op := by unfold writeRx; split <;> rfl
@[simp] theorem writeRx_done (i : Nat) (b : Byte) (s : State) : (writeRx i b s).done = s.done := by unfold writeRx; split <;> rfl
@[simp] theorem writeRx_errf (i : Nat) (b : Byte) (s : State) : (writeRx i b s).errf = s.errf := by unfold writeRx; split <;> rfl
@[simp] theorem writeRx_ovr (i : Nat) (b : Byte) (s : State) : (writeRx i b s).ovr = s.ovr := by unfold writeRx; split <;> rfl
@[simp] theorem writeRx_fcbt (i : Nat) (b : Byte) (s : State) : (writeRx i b s).fcbt = s.fcbt := by unfold writeRx; split <;> rfl
@[simp] theorem writeRx_first (i : Nat) (b : Byte) (s : State) : (writeRx i b s).first = s.first := by unfold writeRx; split <;> rfl
@[simp] theorem writeRx_more (i : Nat) (b : Byte) (s : State) : (writeRx i b s).more = s.more := by unfold writeRx; split <;> rfl
@[simp] theorem writeRx_phase (i : Nat) (b : Byte) (s : State) : (writeRx i b s).phase = s.phase := by unfold writeRx; split <;> rfl
@[simp] theorem writeRx_err (i : Nat) (b : Byte) (s : State) : (writeRx i b s).err = s.err := by unfold writeRx; split <;> rfl
@[simp] theorem writeRx_errsub (i : Nat) (b : Byte) (s : State) : (writeRx i b s).errsub = s.errsub := by unfold writeRx; split <;> rfl
@[simp] theorem writeRx_errenv (i : Nat) (b : Byte) (s : State) : (writeRx i b s).errenv = s.errenv := by unfold writeRx; split <;> rfl
@[simp] theorem writeRx_rval (i : Nat) (b : Byte) (s : State) : (writeRx i b s).rval = s.rval := by unfold writeRx; split <;> rfl
@[simp] theorem writeRx_txlen (i : Nat) (b : Byte) (s : State) : (writeRx i b s).txlen = s.txlen := by unfold writeRx; split <;> rfl
@[simp] theorem writeRx_txkind (i : Nat) (b : Byte) (s : State) : (writeRx i b s).txkind = s.txkind := by unfold writeRx; split <;> rfl
@[simp] theorem writeRx_rxlen (i : Nat) (b : Byte) (s : State) : (writeRx i b s).rxlen = s.rxlen := by unfold writeRx; split <;> rfl
@[simp] theorem writeRx_llen (i : Nat) (b : Byte) (s : State) : (writeRx i b s).llen = s.llen := by unfold writeRx; split <;> rfl
@[simp] theorem writeRx_ncnt (i : Nat) (b : Byte) (s : State) : (writeRx i b s).ncnt = s.ncnt := by unfold writeRx; split <;> rfl
@[simp] theorem writeRx_rescnt (i : Nat) (b : Byte) (s : State) : (writeRx i b s).rescnt = s.rescnt := by unfold writeRx; split <;> rfl
@[simp] theorem writeRx_txb (i : Nat) (b : Byte) (s : State) : (writeRx i b s).txb = s.txb := by unfold writeRx; split <;> rfl
@[simp] theorem writeRx_res (i : Nat) (b : Byte) (s : State) : (writeRx i b s).res = s.res := by unfold writeRx; split <;> rfl
@[simp] theorem writeRx_writeAns (i : Nat) (b : Byte) (s : State) : (writeRx i b s).writeAns = s.writeAns := by unfold writeRx; split <;> rfl
@[simp] theorem writeRx_deadlineAns (i : Nat) (b : Byte) (s : State) : (writeRx i b s).deadlineAns = s.deadlineAns := by unfold writeRx; split <;> rfl
@[simp] theorem writeRx_readAns (i : Nat) (b : Byte) (s : State) : (writeRx i b s).readAns = s.readAns := by unfold writeRx; split <;> rfl
@[simp] theorem writeRx_wire (i : Nat) (b : Byte) (s : State) : (writeRx i b s).wire = s.wire := by unfold writeRx; split <;> rfl
@[simp] theorem writeRx_moves (i : Nat) (b : Byte) (s : State) : (writeRx i b s).moves = s.moves := by unfold writeRx; split <;> rfl
@[simp] theorem writeRx_rdata (i : Nat) (b : Byte) (s : State) : (writeRx i b s).rdata = s.rdata := by unfold writeRx; split <;> rfl
@[simp] theorem writeRx_draws (i : Nat) (b : Byte) (s : State) : (writeRx i b s).draws = s.draws := by unfold writeRx; split <;> rfl
@[simp] theorem writeRx_epoch (i : Nat) (b : Byte) (s : State) : (writeRx i b s).epoch = s.epoch := by unfold writeRx; split <;> rfl
@[simp] theorem writeRx_params (i : Nat) (b : Byte) (s : State) : (writeRx i b s).params = s.params := by unfold writeRx; split <;> rfl

/-! ### `writeTxs` -/

@[simp] theorem writeTxs_addr (i : Nat) (bs : List Byte) (s : State) : (writeTxs i bs s).addr = s.addr := by
  induction bs generalizing i s with
  | nil => rfl
  | cons b bs ih => simp [writeTxs, ih]
@[simp] theorem writeTxs_arg (i : Nat) (bs : List Byte) (s : State) : (writeTxs i bs s).arg = s.arg := by
  induction bs generalizing i s with
  | nil => rfl
  | cons b bs ih => simp [writeTxs, ih]
@[simp] theorem writeTxs_sec0 (i : Nat) (bs : List Byte) (s : State) : (writeTxs i bs s).sec0 = s.sec0 := by
  induction bs generalizing i s with
  | nil => rfl
  | cons b bs ih => simp [writeTxs, ih]
@[simp] theorem writeTxs_sec1 (i : Nat) (bs : List Byte) (s : State) : (writeTxs i bs s).sec1 = s.sec1 := by
  induction bs generalizing i s with
  | nil => rfl
  | cons b bs ih => simp [writeTxs, ih]
@[simp] theorem writeTxs_sec2 (i : Nat) (bs : List Byte) (s : State) : (writeTxs i bs s).sec2 = s.sec2 := by
  induction bs generalizing i s with
  | nil => rfl
  | cons b bs ih => simp [writeTxs, ih]
@[simp] theorem writeTxs_sec3 (i : Nat) (bs : List Byte) (s : State) : (writeTxs i bs s).sec3 = s.sec3 := by
  induction bs generalizing i s with
  | nil => rfl
  | cons b bs ih => simp [writeTxs, ih]
@[simp] theorem writeTxs_tmo (i : Nat) (bs : List Byte) (s : State) : (writeTxs i bs s).tmo = s.tmo := by
  induction bs generalizing i s with
  | nil => rfl
  | cons b bs ih => simp [writeTxs, ih]
@[simp] theorem writeTxs_pc (i : Nat) (bs : List Byte) (s : State) : (writeTxs i bs s).pc = s.pc := by
  induction bs generalizing i s with
  | nil => rfl
  | cons b bs ih => simp [writeTxs, ih]
@[simp] theorem writeTxs_op (i : Nat) (bs : List Byte) (s : State) : (writeTxs i bs s).op = s.op := by
  induction bs generalizing i s with
  | nil => rfl
  | cons b bs ih => simp [writeTxs, ih]
@[simp] theorem writeTxs_done (i : Nat) (bs : List Byte) (s : State) : (writeTxs i bs s).done = s.done := by
  induction bs generalizing i s with
  | nil => rfl
  | cons b bs ih => simp [writeTxs, ih]
@[simp] theorem writeTxs_errf (i : Nat) (bs : List Byte) (s : State) : (writeTxs i bs s).errf = s.errf := by
  induction bs generalizing i s with
  | nil => rfl
  | cons b bs ih => simp [writeTxs, ih]
@[simp] theorem writeTxs_ovr (i : Nat) (bs : List Byte) (s : State) : (writeTxs i bs s).ovr = s.ovr := by
  induction bs generalizing i s with
  | nil => rfl
  | cons b bs ih => simp [writeTxs, ih]
@[simp] theorem writeTxs_fcbt (i : Nat) (bs : List Byte) (s : State) : (writeTxs i bs s).fcbt = s.fcbt := by
  induction bs generalizing i s with
  | nil => rfl
  | cons b bs ih => simp [writeTxs, ih]
@[simp] theorem writeTxs_first (i : Nat) (bs : List Byte) (s : State) : (writeTxs i bs s).first = s.first := by
  induction bs generalizing i s with
  | nil => rfl
  | cons b bs ih => simp [writeTxs, ih]
@[simp] theorem writeTxs_more (i : Nat) (bs : List Byte) (s : State) : (writeTxs i bs s).more = s.more := by
  induction bs generalizing i s with
  | nil => rfl
  | cons b bs ih => simp [writeTxs, ih]
@[simp] theorem writeTxs_phase (i : Nat) (bs : List Byte) (s : State) : (writeTxs i bs s).phase = s.phase := by
  induction bs generalizing i s with
  | nil => rfl
  | cons b bs ih => simp [writeTxs, ih]
@[simp] theorem writeTxs_err (i : Nat) (bs : List Byte) (s : State) : (writeTxs i bs s).err = s.err := by
  induction bs generalizing i s with
  | nil => rfl
  | cons b bs ih => simp [writeTxs, ih]
@[simp] theorem writeTxs_errsub (i : Nat) (bs : List Byte) (s : State) : (writeTxs i bs s).errsub = s.errsub := by
  induction bs generalizing i s with
  | nil => rfl
  | cons b bs ih => simp [writeTxs, ih]
@[simp] theorem writeTxs_errenv (i : Nat) (bs : List Byte) (s : State) : (writeTxs i bs s).errenv = s.errenv := by
  induction bs generalizing i s with
  | nil => rfl
  | cons b bs ih => simp [writeTxs, ih]
@[simp] theorem writeTxs_rval (i : Nat) (bs : List Byte) (s : State) : (writeTxs i bs s).rval = s.rval := by
  induction bs generalizing i s with
  | nil => rfl
  | cons b bs ih => simp [writeTxs, ih]
@[simp] theorem writeTxs_txlen (i : Nat) (bs : List Byte) (s : State) : (writeTxs i bs s).txlen = s.txlen := by
  induction bs generalizing i s with
  | nil => rfl
  | cons b bs ih => simp [writeTxs, ih]
@[simp] theorem writeTxs_txkind (i : Nat) (bs : List Byte) (s : State) : (writeTxs i bs s).txkind = s.txkind := by
  induction bs generalizing i s with
  | nil => rfl
  | cons b bs ih => simp [writeTxs, ih]
@[simp] theorem writeTxs_rxlen (i : Nat) (bs : List Byte) (s : State) : (writeTxs i bs s).rxlen = s.rxlen := by
  induction bs generalizing i s with
  | nil => rfl
  | cons b bs ih => simp [writeTxs, ih]
@[simp] theorem writeTxs_llen (i : Nat) (bs : List Byte) (s : State) : (writeTxs i bs s).llen = s.llen := by
  induction bs generalizing i s with
  | nil => rfl
  | cons b bs ih => simp [writeTxs, ih]
@[simp] theorem writeTxs_ncnt (i : Nat) (bs : List Byte) (s : State) : (writeTxs i bs s).ncnt = s.ncnt := by
  induction bs generalizing i s with
  | nil => rfl
  | cons b bs ih => simp [writeTxs, ih]
@[simp] theorem writeTxs_rescnt (i : Nat) (bs : List Byte) (s : State) : (writeTxs i bs s).rescnt = s.rescnt := by
  induction bs generalizing i s with
  | nil => rfl
  | cons b bs ih => simp [writeTxs, ih]
@[simp] theorem writeTxs_rxb (i : Nat) (bs : List Byte) (s : State) : (writeTxs i bs s).rxb = s.rxb := by
  induction bs generalizing i s with
  | nil => rfl
  | cons b bs ih => simp [writeTxs, ih]
@[simp] theorem writeTxs_res (i : Nat) (bs : List Byte) (s : State) : (writeTxs i bs s).res = s.res := by
  induction bs generalizing i s with
  | nil => rfl
  | cons b bs ih => simp [writeTxs, ih]
@[simp] theorem writeTxs_writeAns (i : Nat) (bs : List Byte) (s : State) : (writeTxs i bs s).writeAns = s.writeAns := by
  induction bs generalizing i s with
  | nil => rfl
  | cons b bs ih => simp [writeTxs, ih]
@[simp] theorem writeTxs_deadlineAns (i : Nat) (bs : List Byte) (s : State) : (writeTxs i bs s).deadlineAns = s.deadlineAns := by
  induction bs generalizing i s with
  | nil => rfl
  | cons b bs ih => simp [writeTxs, ih]
@[simp] theorem writeTxs_readAns (i : Nat) (bs : List Byte) (s : State) : (writeTxs i bs s).readAns = s.readAns := by
  induction bs generalizing i s with
  | nil => rfl
  | cons b bs ih => simp [writeTxs, ih]
@[simp] theorem writeTxs_wire (i : Nat) (bs : List Byte) (s : State) : (writeTxs i bs s).wire = s.wire := by
  induction bs generalizing i s with
  | nil => rfl
  | cons b bs ih => simp [writeTxs, ih]
@[simp] theorem writeTxs_moves (i : Nat) (bs : List Byte) (s : State) : (writeTxs i bs s).moves = s.moves := by
  induction bs generalizing i s with
  | nil => rfl
  | cons b bs ih => simp [writeTxs, ih]
@[simp] theorem writeTxs_rdata (i : Nat) (bs : List Byte) (s : State) : (writeTxs i bs s).rdata = s.rdata := by
  induction bs generalizing i s with
  | nil => rfl
  | cons b bs ih => simp [writeTxs, ih]
@[simp] theorem writeTxs_draws (i : Nat) (bs : List Byte) (s : State) : (writeTxs i bs s).draws = s.draws := by
  induction bs generalizing i s with
  | nil => rfl
  | cons b bs ih => simp [writeTxs, ih]
@[simp] theorem writeTxs_epoch (i : Nat) (bs : List Byte) (s : State) : (writeTxs i bs s).epoch = s.epoch := by
  induction bs generalizing i s with
  | nil => rfl
  | cons b bs ih => simp [writeTxs, ih]
@[simp] theorem writeTxs_params (i : Nat) (bs : List Byte) (s : State) : (writeTxs i bs s).params = s.params := by
  induction bs generalizing i s with
  | nil => rfl
  | cons b bs ih => simp [writeTxs, ih]

/-! ### `setChecksum` (40_checksum_engine.md R138) -/

@[simp] theorem setChecksum_addr (s : State) : (setChecksum s).addr = s.addr := by simp [setChecksum]
@[simp] theorem setChecksum_arg (s : State) : (setChecksum s).arg = s.arg := by simp [setChecksum]
@[simp] theorem setChecksum_sec0 (s : State) : (setChecksum s).sec0 = s.sec0 := by simp [setChecksum]
@[simp] theorem setChecksum_sec1 (s : State) : (setChecksum s).sec1 = s.sec1 := by simp [setChecksum]
@[simp] theorem setChecksum_sec2 (s : State) : (setChecksum s).sec2 = s.sec2 := by simp [setChecksum]
@[simp] theorem setChecksum_sec3 (s : State) : (setChecksum s).sec3 = s.sec3 := by simp [setChecksum]
@[simp] theorem setChecksum_tmo (s : State) : (setChecksum s).tmo = s.tmo := by simp [setChecksum]
@[simp] theorem setChecksum_pc (s : State) : (setChecksum s).pc = s.pc := by simp [setChecksum]
@[simp] theorem setChecksum_op (s : State) : (setChecksum s).op = s.op := by simp [setChecksum]
@[simp] theorem setChecksum_done (s : State) : (setChecksum s).done = s.done := by simp [setChecksum]
@[simp] theorem setChecksum_errf (s : State) : (setChecksum s).errf = s.errf := by simp [setChecksum]
@[simp] theorem setChecksum_ovr (s : State) : (setChecksum s).ovr = s.ovr := by simp [setChecksum]
@[simp] theorem setChecksum_fcbt (s : State) : (setChecksum s).fcbt = s.fcbt := by simp [setChecksum]
@[simp] theorem setChecksum_first (s : State) : (setChecksum s).first = s.first := by simp [setChecksum]
@[simp] theorem setChecksum_more (s : State) : (setChecksum s).more = s.more := by simp [setChecksum]
@[simp] theorem setChecksum_phase (s : State) : (setChecksum s).phase = s.phase := by simp [setChecksum]
@[simp] theorem setChecksum_err (s : State) : (setChecksum s).err = s.err := by simp [setChecksum]
@[simp] theorem setChecksum_errsub (s : State) : (setChecksum s).errsub = s.errsub := by simp [setChecksum]
@[simp] theorem setChecksum_errenv (s : State) : (setChecksum s).errenv = s.errenv := by simp [setChecksum]
@[simp] theorem setChecksum_rval (s : State) : (setChecksum s).rval = s.rval := by simp [setChecksum]
@[simp] theorem setChecksum_txlen (s : State) : (setChecksum s).txlen = s.txlen := by simp [setChecksum]
@[simp] theorem setChecksum_txkind (s : State) : (setChecksum s).txkind = s.txkind := by simp [setChecksum]
@[simp] theorem setChecksum_rxlen (s : State) : (setChecksum s).rxlen = s.rxlen := by simp [setChecksum]
@[simp] theorem setChecksum_llen (s : State) : (setChecksum s).llen = s.llen := by simp [setChecksum]
@[simp] theorem setChecksum_ncnt (s : State) : (setChecksum s).ncnt = s.ncnt := by simp [setChecksum]
@[simp] theorem setChecksum_rescnt (s : State) : (setChecksum s).rescnt = s.rescnt := by simp [setChecksum]
@[simp] theorem setChecksum_rxb (s : State) : (setChecksum s).rxb = s.rxb := by simp [setChecksum]
@[simp] theorem setChecksum_res (s : State) : (setChecksum s).res = s.res := by simp [setChecksum]
@[simp] theorem setChecksum_writeAns (s : State) : (setChecksum s).writeAns = s.writeAns := by simp [setChecksum]
@[simp] theorem setChecksum_deadlineAns (s : State) : (setChecksum s).deadlineAns = s.deadlineAns := by simp [setChecksum]
@[simp] theorem setChecksum_readAns (s : State) : (setChecksum s).readAns = s.readAns := by simp [setChecksum]
@[simp] theorem setChecksum_wire (s : State) : (setChecksum s).wire = s.wire := by simp [setChecksum]
@[simp] theorem setChecksum_moves (s : State) : (setChecksum s).moves = s.moves := by simp [setChecksum]
@[simp] theorem setChecksum_rdata (s : State) : (setChecksum s).rdata = s.rdata := by simp [setChecksum]
@[simp] theorem setChecksum_draws (s : State) : (setChecksum s).draws = s.draws := by simp [setChecksum]
@[simp] theorem setChecksum_epoch (s : State) : (setChecksum s).epoch = s.epoch := by simp [setChecksum]
@[simp] theorem setChecksum_params (s : State) : (setChecksum s).params = s.params := by simp [setChecksum]

/-! ### `setLength` (40_checksum_engine.md R138) -/

@[simp] theorem setLength_addr (s : State) : (setLength s).addr = s.addr := by simp [setLength]
@[simp] theorem setLength_arg (s : State) : (setLength s).arg = s.arg := by simp [setLength]
@[simp] theorem setLength_sec0 (s : State) : (setLength s).sec0 = s.sec0 := by simp [setLength]
@[simp] theorem setLength_sec1 (s : State) : (setLength s).sec1 = s.sec1 := by simp [setLength]
@[simp] theorem setLength_sec2 (s : State) : (setLength s).sec2 = s.sec2 := by simp [setLength]
@[simp] theorem setLength_sec3 (s : State) : (setLength s).sec3 = s.sec3 := by simp [setLength]
@[simp] theorem setLength_tmo (s : State) : (setLength s).tmo = s.tmo := by simp [setLength]
@[simp] theorem setLength_pc (s : State) : (setLength s).pc = s.pc := by simp [setLength]
@[simp] theorem setLength_op (s : State) : (setLength s).op = s.op := by simp [setLength]
@[simp] theorem setLength_done (s : State) : (setLength s).done = s.done := by simp [setLength]
@[simp] theorem setLength_errf (s : State) : (setLength s).errf = s.errf := by simp [setLength]
@[simp] theorem setLength_ovr (s : State) : (setLength s).ovr = s.ovr := by simp [setLength]
@[simp] theorem setLength_fcbt (s : State) : (setLength s).fcbt = s.fcbt := by simp [setLength]
@[simp] theorem setLength_first (s : State) : (setLength s).first = s.first := by simp [setLength]
@[simp] theorem setLength_more (s : State) : (setLength s).more = s.more := by simp [setLength]
@[simp] theorem setLength_phase (s : State) : (setLength s).phase = s.phase := by simp [setLength]
@[simp] theorem setLength_err (s : State) : (setLength s).err = s.err := by simp [setLength]
@[simp] theorem setLength_errsub (s : State) : (setLength s).errsub = s.errsub := by simp [setLength]
@[simp] theorem setLength_errenv (s : State) : (setLength s).errenv = s.errenv := by simp [setLength]
@[simp] theorem setLength_rval (s : State) : (setLength s).rval = s.rval := by simp [setLength]
@[simp] theorem setLength_txlen (s : State) : (setLength s).txlen = s.txlen := by simp [setLength]
@[simp] theorem setLength_txkind (s : State) : (setLength s).txkind = s.txkind := by simp [setLength]
@[simp] theorem setLength_rxlen (s : State) : (setLength s).rxlen = s.rxlen := by simp [setLength]
@[simp] theorem setLength_llen (s : State) : (setLength s).llen = s.llen := by simp [setLength]
@[simp] theorem setLength_ncnt (s : State) : (setLength s).ncnt = s.ncnt := by simp [setLength]
@[simp] theorem setLength_rescnt (s : State) : (setLength s).rescnt = s.rescnt := by simp [setLength]
@[simp] theorem setLength_rxb (s : State) : (setLength s).rxb = s.rxb := by simp [setLength]
@[simp] theorem setLength_res (s : State) : (setLength s).res = s.res := by simp [setLength]
@[simp] theorem setLength_writeAns (s : State) : (setLength s).writeAns = s.writeAns := by simp [setLength]
@[simp] theorem setLength_deadlineAns (s : State) : (setLength s).deadlineAns = s.deadlineAns := by simp [setLength]
@[simp] theorem setLength_readAns (s : State) : (setLength s).readAns = s.readAns := by simp [setLength]
@[simp] theorem setLength_wire (s : State) : (setLength s).wire = s.wire := by simp [setLength]
@[simp] theorem setLength_moves (s : State) : (setLength s).moves = s.moves := by simp [setLength]
@[simp] theorem setLength_rdata (s : State) : (setLength s).rdata = s.rdata := by simp [setLength]
@[simp] theorem setLength_draws (s : State) : (setLength s).draws = s.draws := by simp [setLength]
@[simp] theorem setLength_epoch (s : State) : (setLength s).epoch = s.epoch := by simp [setLength]
@[simp] theorem setLength_params (s : State) : (setLength s).params = s.params := by simp [setLength]

/-! ### `setFcb` (40_checksum_engine.md R138) -/

@[simp] theorem setFcb_addr (s : State) : (setFcb s).addr = s.addr := by simp [setFcb]
@[simp] theorem setFcb_arg (s : State) : (setFcb s).arg = s.arg := by simp [setFcb]
@[simp] theorem setFcb_sec0 (s : State) : (setFcb s).sec0 = s.sec0 := by simp [setFcb]
@[simp] theorem setFcb_sec1 (s : State) : (setFcb s).sec1 = s.sec1 := by simp [setFcb]
@[simp] theorem setFcb_sec2 (s : State) : (setFcb s).sec2 = s.sec2 := by simp [setFcb]
@[simp] theorem setFcb_sec3 (s : State) : (setFcb s).sec3 = s.sec3 := by simp [setFcb]
@[simp] theorem setFcb_tmo (s : State) : (setFcb s).tmo = s.tmo := by simp [setFcb]
@[simp] theorem setFcb_pc (s : State) : (setFcb s).pc = s.pc := by simp [setFcb]
@[simp] theorem setFcb_op (s : State) : (setFcb s).op = s.op := by simp [setFcb]
@[simp] theorem setFcb_done (s : State) : (setFcb s).done = s.done := by simp [setFcb]
@[simp] theorem setFcb_errf (s : State) : (setFcb s).errf = s.errf := by simp [setFcb]
@[simp] theorem setFcb_ovr (s : State) : (setFcb s).ovr = s.ovr := by simp [setFcb]
@[simp] theorem setFcb_fcbt (s : State) : (setFcb s).fcbt = s.fcbt := by simp [setFcb]
@[simp] theorem setFcb_first (s : State) : (setFcb s).first = s.first := by simp [setFcb]
@[simp] theorem setFcb_more (s : State) : (setFcb s).more = s.more := by simp [setFcb]
@[simp] theorem setFcb_phase (s : State) : (setFcb s).phase = s.phase := by simp [setFcb]
@[simp] theorem setFcb_err (s : State) : (setFcb s).err = s.err := by simp [setFcb]
@[simp] theorem setFcb_errsub (s : State) : (setFcb s).errsub = s.errsub := by simp [setFcb]
@[simp] theorem setFcb_errenv (s : State) : (setFcb s).errenv = s.errenv := by simp [setFcb]
@[simp] theorem setFcb_rval (s : State) : (setFcb s).rval = s.rval := by simp [setFcb]
@[simp] theorem setFcb_txlen (s : State) : (setFcb s).txlen = s.txlen := by simp [setFcb]
@[simp] theorem setFcb_txkind (s : State) : (setFcb s).txkind = s.txkind := by simp [setFcb]
@[simp] theorem setFcb_rxlen (s : State) : (setFcb s).rxlen = s.rxlen := by simp [setFcb]
@[simp] theorem setFcb_llen (s : State) : (setFcb s).llen = s.llen := by simp [setFcb]
@[simp] theorem setFcb_ncnt (s : State) : (setFcb s).ncnt = s.ncnt := by simp [setFcb]
@[simp] theorem setFcb_rescnt (s : State) : (setFcb s).rescnt = s.rescnt := by simp [setFcb]
@[simp] theorem setFcb_rxb (s : State) : (setFcb s).rxb = s.rxb := by simp [setFcb]
@[simp] theorem setFcb_res (s : State) : (setFcb s).res = s.res := by simp [setFcb]
@[simp] theorem setFcb_writeAns (s : State) : (setFcb s).writeAns = s.writeAns := by simp [setFcb]
@[simp] theorem setFcb_deadlineAns (s : State) : (setFcb s).deadlineAns = s.deadlineAns := by simp [setFcb]
@[simp] theorem setFcb_readAns (s : State) : (setFcb s).readAns = s.readAns := by simp [setFcb]
@[simp] theorem setFcb_wire (s : State) : (setFcb s).wire = s.wire := by simp [setFcb]
@[simp] theorem setFcb_moves (s : State) : (setFcb s).moves = s.moves := by simp [setFcb]
@[simp] theorem setFcb_rdata (s : State) : (setFcb s).rdata = s.rdata := by simp [setFcb]
@[simp] theorem setFcb_draws (s : State) : (setFcb s).draws = s.draws := by simp [setFcb]
@[simp] theorem setFcb_epoch (s : State) : (setFcb s).epoch = s.epoch := by simp [setFcb]
@[simp] theorem setFcb_params (s : State) : (setFcb s).params = s.params := by simp [setFcb]

/-! ### `setDescriptor` (41_frame_builder.md R150) -/

@[simp] theorem setDescriptor_addr (k : BitVec 1) (n : Nat) (s : State) : (setDescriptor k n s).addr = s.addr := rfl
@[simp] theorem setDescriptor_arg (k : BitVec 1) (n : Nat) (s : State) : (setDescriptor k n s).arg = s.arg := rfl
@[simp] theorem setDescriptor_sec0 (k : BitVec 1) (n : Nat) (s : State) : (setDescriptor k n s).sec0 = s.sec0 := rfl
@[simp] theorem setDescriptor_sec1 (k : BitVec 1) (n : Nat) (s : State) : (setDescriptor k n s).sec1 = s.sec1 := rfl
@[simp] theorem setDescriptor_sec2 (k : BitVec 1) (n : Nat) (s : State) : (setDescriptor k n s).sec2 = s.sec2 := rfl
@[simp] theorem setDescriptor_sec3 (k : BitVec 1) (n : Nat) (s : State) : (setDescriptor k n s).sec3 = s.sec3 := rfl
@[simp] theorem setDescriptor_tmo (k : BitVec 1) (n : Nat) (s : State) : (setDescriptor k n s).tmo = s.tmo := rfl
@[simp] theorem setDescriptor_pc (k : BitVec 1) (n : Nat) (s : State) : (setDescriptor k n s).pc = s.pc := rfl
@[simp] theorem setDescriptor_op (k : BitVec 1) (n : Nat) (s : State) : (setDescriptor k n s).op = s.op := rfl
@[simp] theorem setDescriptor_done (k : BitVec 1) (n : Nat) (s : State) : (setDescriptor k n s).done = s.done := rfl
@[simp] theorem setDescriptor_errf (k : BitVec 1) (n : Nat) (s : State) : (setDescriptor k n s).errf = s.errf := rfl
@[simp] theorem setDescriptor_ovr (k : BitVec 1) (n : Nat) (s : State) : (setDescriptor k n s).ovr = s.ovr := rfl
@[simp] theorem setDescriptor_fcbt (k : BitVec 1) (n : Nat) (s : State) : (setDescriptor k n s).fcbt = s.fcbt := rfl
@[simp] theorem setDescriptor_first (k : BitVec 1) (n : Nat) (s : State) : (setDescriptor k n s).first = s.first := rfl
@[simp] theorem setDescriptor_more (k : BitVec 1) (n : Nat) (s : State) : (setDescriptor k n s).more = s.more := rfl
@[simp] theorem setDescriptor_phase (k : BitVec 1) (n : Nat) (s : State) : (setDescriptor k n s).phase = s.phase := rfl
@[simp] theorem setDescriptor_err (k : BitVec 1) (n : Nat) (s : State) : (setDescriptor k n s).err = s.err := rfl
@[simp] theorem setDescriptor_errsub (k : BitVec 1) (n : Nat) (s : State) : (setDescriptor k n s).errsub = s.errsub := rfl
@[simp] theorem setDescriptor_errenv (k : BitVec 1) (n : Nat) (s : State) : (setDescriptor k n s).errenv = s.errenv := rfl
@[simp] theorem setDescriptor_rval (k : BitVec 1) (n : Nat) (s : State) : (setDescriptor k n s).rval = s.rval := rfl
@[simp] theorem setDescriptor_txlen (k : BitVec 1) (n : Nat) (s : State) : (setDescriptor k n s).txlen = BitVec.ofNat 9 n := rfl
@[simp] theorem setDescriptor_txkind (k : BitVec 1) (n : Nat) (s : State) : (setDescriptor k n s).txkind = k := rfl
@[simp] theorem setDescriptor_rxlen (k : BitVec 1) (n : Nat) (s : State) : (setDescriptor k n s).rxlen = s.rxlen := rfl
@[simp] theorem setDescriptor_llen (k : BitVec 1) (n : Nat) (s : State) : (setDescriptor k n s).llen = s.llen := rfl
@[simp] theorem setDescriptor_ncnt (k : BitVec 1) (n : Nat) (s : State) : (setDescriptor k n s).ncnt = s.ncnt := rfl
@[simp] theorem setDescriptor_rescnt (k : BitVec 1) (n : Nat) (s : State) : (setDescriptor k n s).rescnt = s.rescnt := rfl
@[simp] theorem setDescriptor_txb (k : BitVec 1) (n : Nat) (s : State) : (setDescriptor k n s).txb = s.txb := rfl
@[simp] theorem setDescriptor_rxb (k : BitVec 1) (n : Nat) (s : State) : (setDescriptor k n s).rxb = s.rxb := rfl
@[simp] theorem setDescriptor_res (k : BitVec 1) (n : Nat) (s : State) : (setDescriptor k n s).res = s.res := rfl
@[simp] theorem setDescriptor_writeAns (k : BitVec 1) (n : Nat) (s : State) : (setDescriptor k n s).writeAns = s.writeAns := rfl
@[simp] theorem setDescriptor_deadlineAns (k : BitVec 1) (n : Nat) (s : State) : (setDescriptor k n s).deadlineAns = s.deadlineAns := rfl
@[simp] theorem setDescriptor_readAns (k : BitVec 1) (n : Nat) (s : State) : (setDescriptor k n s).readAns = s.readAns := rfl
@[simp] theorem setDescriptor_wire (k : BitVec 1) (n : Nat) (s : State) : (setDescriptor k n s).wire = s.wire := rfl
@[simp] theorem setDescriptor_moves (k : BitVec 1) (n : Nat) (s : State) : (setDescriptor k n s).moves = s.moves := rfl
@[simp] theorem setDescriptor_rdata (k : BitVec 1) (n : Nat) (s : State) : (setDescriptor k n s).rdata = s.rdata := rfl
@[simp] theorem setDescriptor_draws (k : BitVec 1) (n : Nat) (s : State) : (setDescriptor k n s).draws = s.draws := rfl
@[simp] theorem setDescriptor_epoch (k : BitVec 1) (n : Nat) (s : State) : (setDescriptor k n s).epoch = s.epoch := rfl
@[simp] theorem setDescriptor_params (k : BitVec 1) (n : Nat) (s : State) : (setDescriptor k n s).params = s.params := rfl

/-! ### `build` (41_frame_builder.md R150) -/

@[simp] theorem build_addr (k : BitVec 1) (bs : List Byte) (s : State) : (build k bs s).addr = s.addr := by
  unfold build; dsimp only; split <;> simp
@[simp] theorem build_arg (k : BitVec 1) (bs : List Byte) (s : State) : (build k bs s).arg = s.arg := by
  unfold build; dsimp only; split <;> simp
@[simp] theorem build_sec0 (k : BitVec 1) (bs : List Byte) (s : State) : (build k bs s).sec0 = s.sec0 := by
  unfold build; dsimp only; split <;> simp
@[simp] theorem build_sec1 (k : BitVec 1) (bs : List Byte) (s : State) : (build k bs s).sec1 = s.sec1 := by
  unfold build; dsimp only; split <;> simp
@[simp] theorem build_sec2 (k : BitVec 1) (bs : List Byte) (s : State) : (build k bs s).sec2 = s.sec2 := by
  unfold build; dsimp only; split <;> simp
@[simp] theorem build_sec3 (k : BitVec 1) (bs : List Byte) (s : State) : (build k bs s).sec3 = s.sec3 := by
  unfold build; dsimp only; split <;> simp
@[simp] theorem build_tmo (k : BitVec 1) (bs : List Byte) (s : State) : (build k bs s).tmo = s.tmo := by
  unfold build; dsimp only; split <;> simp
@[simp] theorem build_pc (k : BitVec 1) (bs : List Byte) (s : State) : (build k bs s).pc = s.pc := by
  unfold build; dsimp only; split <;> simp
@[simp] theorem build_op (k : BitVec 1) (bs : List Byte) (s : State) : (build k bs s).op = s.op := by
  unfold build; dsimp only; split <;> simp
@[simp] theorem build_done (k : BitVec 1) (bs : List Byte) (s : State) : (build k bs s).done = s.done := by
  unfold build; dsimp only; split <;> simp
@[simp] theorem build_errf (k : BitVec 1) (bs : List Byte) (s : State) : (build k bs s).errf = s.errf := by
  unfold build; dsimp only; split <;> simp
@[simp] theorem build_ovr (k : BitVec 1) (bs : List Byte) (s : State) : (build k bs s).ovr = s.ovr := by
  unfold build; dsimp only; split <;> simp
@[simp] theorem build_fcbt (k : BitVec 1) (bs : List Byte) (s : State) : (build k bs s).fcbt = s.fcbt := by
  unfold build; dsimp only; split <;> simp
@[simp] theorem build_first (k : BitVec 1) (bs : List Byte) (s : State) : (build k bs s).first = s.first := by
  unfold build; dsimp only; split <;> simp
@[simp] theorem build_more (k : BitVec 1) (bs : List Byte) (s : State) : (build k bs s).more = s.more := by
  unfold build; dsimp only; split <;> simp
@[simp] theorem build_phase (k : BitVec 1) (bs : List Byte) (s : State) : (build k bs s).phase = s.phase := by
  unfold build; dsimp only; split <;> simp
@[simp] theorem build_err (k : BitVec 1) (bs : List Byte) (s : State) : (build k bs s).err = s.err := by
  unfold build; dsimp only; split <;> simp
@[simp] theorem build_errsub (k : BitVec 1) (bs : List Byte) (s : State) : (build k bs s).errsub = s.errsub := by
  unfold build; dsimp only; split <;> simp
@[simp] theorem build_errenv (k : BitVec 1) (bs : List Byte) (s : State) : (build k bs s).errenv = s.errenv := by
  unfold build; dsimp only; split <;> simp
@[simp] theorem build_rval (k : BitVec 1) (bs : List Byte) (s : State) : (build k bs s).rval = s.rval := by
  unfold build; dsimp only; split <;> simp
@[simp] theorem build_txlen (k : BitVec 1) (bs : List Byte) (s : State) : (build k bs s).txlen = BitVec.ofNat 9 bs.length := by
  unfold build; dsimp only; split <;> simp
@[simp] theorem build_txkind (k : BitVec 1) (bs : List Byte) (s : State) : (build k bs s).txkind = k := by
  unfold build; dsimp only; split <;> simp
@[simp] theorem build_rxlen (k : BitVec 1) (bs : List Byte) (s : State) : (build k bs s).rxlen = s.rxlen := by
  unfold build; dsimp only; split <;> simp
@[simp] theorem build_llen (k : BitVec 1) (bs : List Byte) (s : State) : (build k bs s).llen = s.llen := by
  unfold build; dsimp only; split <;> simp
@[simp] theorem build_ncnt (k : BitVec 1) (bs : List Byte) (s : State) : (build k bs s).ncnt = s.ncnt := by
  unfold build; dsimp only; split <;> simp
@[simp] theorem build_rescnt (k : BitVec 1) (bs : List Byte) (s : State) : (build k bs s).rescnt = s.rescnt := by
  unfold build; dsimp only; split <;> simp
@[simp] theorem build_rxb (k : BitVec 1) (bs : List Byte) (s : State) : (build k bs s).rxb = s.rxb := by
  unfold build; dsimp only; split <;> simp
@[simp] theorem build_res (k : BitVec 1) (bs : List Byte) (s : State) : (build k bs s).res = s.res := by
  unfold build; dsimp only; split <;> simp
@[simp] theorem build_writeAns (k : BitVec 1) (bs : List Byte) (s : State) : (build k bs s).writeAns = s.writeAns := by
  unfold build; dsimp only; split <;> simp
@[simp] theorem build_deadlineAns (k : BitVec 1) (bs : List Byte) (s : State) : (build k bs s).deadlineAns = s.deadlineAns := by
  unfold build; dsimp only; split <;> simp
@[simp] theorem build_readAns (k : BitVec 1) (bs : List Byte) (s : State) : (build k bs s).readAns = s.readAns := by
  unfold build; dsimp only; split <;> simp
@[simp] theorem build_wire (k : BitVec 1) (bs : List Byte) (s : State) : (build k bs s).wire = s.wire := by
  unfold build; dsimp only; split <;> simp
@[simp] theorem build_moves (k : BitVec 1) (bs : List Byte) (s : State) : (build k bs s).moves = s.moves := by
  unfold build; dsimp only; split <;> simp
@[simp] theorem build_rdata (k : BitVec 1) (bs : List Byte) (s : State) : (build k bs s).rdata = s.rdata := by
  unfold build; dsimp only; split <;> simp
@[simp] theorem build_draws (k : BitVec 1) (bs : List Byte) (s : State) : (build k bs s).draws = s.draws := by
  unfold build; dsimp only; split <;> simp
@[simp] theorem build_epoch (k : BitVec 1) (bs : List Byte) (s : State) : (build k bs s).epoch = s.epoch := by
  unfold build; dsimp only; split <;> simp
@[simp] theorem build_params (k : BitVec 1) (bs : List Byte) (s : State) : (build k bs s).params = s.params := by
  unfold build; dsimp only; split <;> simp

/-! ### `pushRx` (42_transport_io.md R177) -/

@[simp] theorem pushRx_addr (b : Byte) (s : State) : (pushRx b s).addr = s.addr := by simp [pushRx]
@[simp] theorem pushRx_arg (b : Byte) (s : State) : (pushRx b s).arg = s.arg := by simp [pushRx]
@[simp] theorem pushRx_sec0 (b : Byte) (s : State) : (pushRx b s).sec0 = s.sec0 := by simp [pushRx]
@[simp] theorem pushRx_sec1 (b : Byte) (s : State) : (pushRx b s).sec1 = s.sec1 := by simp [pushRx]
@[simp] theorem pushRx_sec2 (b : Byte) (s : State) : (pushRx b s).sec2 = s.sec2 := by simp [pushRx]
@[simp] theorem pushRx_sec3 (b : Byte) (s : State) : (pushRx b s).sec3 = s.sec3 := by simp [pushRx]
@[simp] theorem pushRx_tmo (b : Byte) (s : State) : (pushRx b s).tmo = s.tmo := by simp [pushRx]
@[simp] theorem pushRx_pc (b : Byte) (s : State) : (pushRx b s).pc = s.pc := by simp [pushRx]
@[simp] theorem pushRx_op (b : Byte) (s : State) : (pushRx b s).op = s.op := by simp [pushRx]
@[simp] theorem pushRx_done (b : Byte) (s : State) : (pushRx b s).done = s.done := by simp [pushRx]
@[simp] theorem pushRx_errf (b : Byte) (s : State) : (pushRx b s).errf = s.errf := by simp [pushRx]
@[simp] theorem pushRx_ovr (b : Byte) (s : State) : (pushRx b s).ovr = s.ovr := by simp [pushRx]
@[simp] theorem pushRx_fcbt (b : Byte) (s : State) : (pushRx b s).fcbt = s.fcbt := by simp [pushRx]
@[simp] theorem pushRx_first (b : Byte) (s : State) : (pushRx b s).first = s.first := by simp [pushRx]
@[simp] theorem pushRx_more (b : Byte) (s : State) : (pushRx b s).more = s.more := by simp [pushRx]
@[simp] theorem pushRx_phase (b : Byte) (s : State) : (pushRx b s).phase = s.phase := by simp [pushRx]
@[simp] theorem pushRx_err (b : Byte) (s : State) : (pushRx b s).err = s.err := by simp [pushRx]
@[simp] theorem pushRx_errsub (b : Byte) (s : State) : (pushRx b s).errsub = s.errsub := by simp [pushRx]
@[simp] theorem pushRx_errenv (b : Byte) (s : State) : (pushRx b s).errenv = s.errenv := by simp [pushRx]
@[simp] theorem pushRx_rval (b : Byte) (s : State) : (pushRx b s).rval = s.rval := by simp [pushRx]
@[simp] theorem pushRx_txlen (b : Byte) (s : State) : (pushRx b s).txlen = s.txlen := by simp [pushRx]
@[simp] theorem pushRx_txkind (b : Byte) (s : State) : (pushRx b s).txkind = s.txkind := by simp [pushRx]
@[simp] theorem pushRx_rxlen (b : Byte) (s : State) : (pushRx b s).rxlen = s.rxlen + 1 := rfl
@[simp] theorem pushRx_llen (b : Byte) (s : State) : (pushRx b s).llen = s.llen := by simp [pushRx]
@[simp] theorem pushRx_ncnt (b : Byte) (s : State) : (pushRx b s).ncnt = s.ncnt := by simp [pushRx]
@[simp] theorem pushRx_rescnt (b : Byte) (s : State) : (pushRx b s).rescnt = s.rescnt := by simp [pushRx]
@[simp] theorem pushRx_txb (b : Byte) (s : State) : (pushRx b s).txb = s.txb := by simp [pushRx]
@[simp] theorem pushRx_res (b : Byte) (s : State) : (pushRx b s).res = s.res := by simp [pushRx]
@[simp] theorem pushRx_writeAns (b : Byte) (s : State) : (pushRx b s).writeAns = s.writeAns := by simp [pushRx]
@[simp] theorem pushRx_deadlineAns (b : Byte) (s : State) : (pushRx b s).deadlineAns = s.deadlineAns := by simp [pushRx]
@[simp] theorem pushRx_readAns (b : Byte) (s : State) : (pushRx b s).readAns = s.readAns := by simp [pushRx]
@[simp] theorem pushRx_wire (b : Byte) (s : State) : (pushRx b s).wire = s.wire := by simp [pushRx]
@[simp] theorem pushRx_moves (b : Byte) (s : State) : (pushRx b s).moves = s.moves := by simp [pushRx]
@[simp] theorem pushRx_rdata (b : Byte) (s : State) : (pushRx b s).rdata = s.rdata := by simp [pushRx]
@[simp] theorem pushRx_draws (b : Byte) (s : State) : (pushRx b s).draws = s.draws := by simp [pushRx]
@[simp] theorem pushRx_epoch (b : Byte) (s : State) : (pushRx b s).epoch = s.epoch := by simp [pushRx]
@[simp] theorem pushRx_params (b : Byte) (s : State) : (pushRx b s).params = s.params := by simp [pushRx]

/-! ### `slideRx` (42_transport_io.md R177) -/

@[simp] theorem slideRx_addr (b : Byte) (s : State) : (slideRx b s).addr = s.addr := by simp [slideRx]
@[simp] theorem slideRx_arg (b : Byte) (s : State) : (slideRx b s).arg = s.arg := by simp [slideRx]
@[simp] theorem slideRx_sec0 (b : Byte) (s : State) : (slideRx b s).sec0 = s.sec0 := by simp [slideRx]
@[simp] theorem slideRx_sec1 (b : Byte) (s : State) : (slideRx b s).sec1 = s.sec1 := by simp [slideRx]
@[simp] theorem slideRx_sec2 (b : Byte) (s : State) : (slideRx b s).sec2 = s.sec2 := by simp [slideRx]
@[simp] theorem slideRx_sec3 (b : Byte) (s : State) : (slideRx b s).sec3 = s.sec3 := by simp [slideRx]
@[simp] theorem slideRx_tmo (b : Byte) (s : State) : (slideRx b s).tmo = s.tmo := by simp [slideRx]
@[simp] theorem slideRx_pc (b : Byte) (s : State) : (slideRx b s).pc = s.pc := by simp [slideRx]
@[simp] theorem slideRx_op (b : Byte) (s : State) : (slideRx b s).op = s.op := by simp [slideRx]
@[simp] theorem slideRx_done (b : Byte) (s : State) : (slideRx b s).done = s.done := by simp [slideRx]
@[simp] theorem slideRx_errf (b : Byte) (s : State) : (slideRx b s).errf = s.errf := by simp [slideRx]
@[simp] theorem slideRx_ovr (b : Byte) (s : State) : (slideRx b s).ovr = s.ovr := by simp [slideRx]
@[simp] theorem slideRx_fcbt (b : Byte) (s : State) : (slideRx b s).fcbt = s.fcbt := by simp [slideRx]
@[simp] theorem slideRx_first (b : Byte) (s : State) : (slideRx b s).first = s.first := by simp [slideRx]
@[simp] theorem slideRx_more (b : Byte) (s : State) : (slideRx b s).more = s.more := by simp [slideRx]
@[simp] theorem slideRx_phase (b : Byte) (s : State) : (slideRx b s).phase = s.phase := by simp [slideRx]
@[simp] theorem slideRx_err (b : Byte) (s : State) : (slideRx b s).err = s.err := by simp [slideRx]
@[simp] theorem slideRx_errsub (b : Byte) (s : State) : (slideRx b s).errsub = s.errsub := by simp [slideRx]
@[simp] theorem slideRx_errenv (b : Byte) (s : State) : (slideRx b s).errenv = s.errenv := by simp [slideRx]
@[simp] theorem slideRx_rval (b : Byte) (s : State) : (slideRx b s).rval = s.rval := by simp [slideRx]
@[simp] theorem slideRx_txlen (b : Byte) (s : State) : (slideRx b s).txlen = s.txlen := by simp [slideRx]
@[simp] theorem slideRx_txkind (b : Byte) (s : State) : (slideRx b s).txkind = s.txkind := by simp [slideRx]
@[simp] theorem slideRx_rxlen (b : Byte) (s : State) : (slideRx b s).rxlen = s.rxlen := by simp [slideRx]
@[simp] theorem slideRx_llen (b : Byte) (s : State) : (slideRx b s).llen = s.llen := by simp [slideRx]
@[simp] theorem slideRx_ncnt (b : Byte) (s : State) : (slideRx b s).ncnt = s.ncnt := by simp [slideRx]
@[simp] theorem slideRx_rescnt (b : Byte) (s : State) : (slideRx b s).rescnt = s.rescnt := by simp [slideRx]
@[simp] theorem slideRx_txb (b : Byte) (s : State) : (slideRx b s).txb = s.txb := by simp [slideRx]
@[simp] theorem slideRx_res (b : Byte) (s : State) : (slideRx b s).res = s.res := by simp [slideRx]
@[simp] theorem slideRx_writeAns (b : Byte) (s : State) : (slideRx b s).writeAns = s.writeAns := by simp [slideRx]
@[simp] theorem slideRx_deadlineAns (b : Byte) (s : State) : (slideRx b s).deadlineAns = s.deadlineAns := by simp [slideRx]
@[simp] theorem slideRx_readAns (b : Byte) (s : State) : (slideRx b s).readAns = s.readAns := by simp [slideRx]
@[simp] theorem slideRx_wire (b : Byte) (s : State) : (slideRx b s).wire = s.wire := by simp [slideRx]
@[simp] theorem slideRx_moves (b : Byte) (s : State) : (slideRx b s).moves = s.moves := by simp [slideRx]
@[simp] theorem slideRx_rdata (b : Byte) (s : State) : (slideRx b s).rdata = s.rdata := by simp [slideRx]
@[simp] theorem slideRx_draws (b : Byte) (s : State) : (slideRx b s).draws = s.draws := by simp [slideRx]
@[simp] theorem slideRx_epoch (b : Byte) (s : State) : (slideRx b s).epoch = s.epoch := by simp [slideRx]
@[simp] theorem slideRx_params (b : Byte) (s : State) : (slideRx b s).params = s.params := by simp [slideRx]

/-! ### `countByte` (42_transport_io.md R177) -/

@[simp] theorem countByte_addr (s : State) : (countByte s).addr = s.addr := rfl
@[simp] theorem countByte_arg (s : State) : (countByte s).arg = s.arg := rfl
@[simp] theorem countByte_sec0 (s : State) : (countByte s).sec0 = s.sec0 := rfl
@[simp] theorem countByte_sec1 (s : State) : (countByte s).sec1 = s.sec1 := rfl
@[simp] theorem countByte_sec2 (s : State) : (countByte s).sec2 = s.sec2 := rfl
@[simp] theorem countByte_sec3 (s : State) : (countByte s).sec3 = s.sec3 := rfl
@[simp] theorem countByte_tmo (s : State) : (countByte s).tmo = s.tmo := rfl
@[simp] theorem countByte_pc (s : State) : (countByte s).pc = s.pc := rfl
@[simp] theorem countByte_op (s : State) : (countByte s).op = s.op := rfl
@[simp] theorem countByte_done (s : State) : (countByte s).done = s.done := rfl
@[simp] theorem countByte_errf (s : State) : (countByte s).errf = s.errf := rfl
@[simp] theorem countByte_ovr (s : State) : (countByte s).ovr = s.ovr := rfl
@[simp] theorem countByte_fcbt (s : State) : (countByte s).fcbt = s.fcbt := rfl
@[simp] theorem countByte_first (s : State) : (countByte s).first = s.first := rfl
@[simp] theorem countByte_more (s : State) : (countByte s).more = s.more := rfl
@[simp] theorem countByte_phase (s : State) : (countByte s).phase = s.phase := rfl
@[simp] theorem countByte_err (s : State) : (countByte s).err = s.err := rfl
@[simp] theorem countByte_errsub (s : State) : (countByte s).errsub = s.errsub := rfl
@[simp] theorem countByte_errenv (s : State) : (countByte s).errenv = s.errenv := rfl
@[simp] theorem countByte_rval (s : State) : (countByte s).rval = s.rval := rfl
@[simp] theorem countByte_txlen (s : State) : (countByte s).txlen = s.txlen := rfl
@[simp] theorem countByte_txkind (s : State) : (countByte s).txkind = s.txkind := rfl
@[simp] theorem countByte_rxlen (s : State) : (countByte s).rxlen = s.rxlen := rfl
@[simp] theorem countByte_llen (s : State) : (countByte s).llen = s.llen := rfl
@[simp] theorem countByte_ncnt (s : State) : (countByte s).ncnt = s.ncnt + 1 := rfl
@[simp] theorem countByte_rescnt (s : State) : (countByte s).rescnt = s.rescnt := rfl
@[simp] theorem countByte_txb (s : State) : (countByte s).txb = s.txb := rfl
@[simp] theorem countByte_rxb (s : State) : (countByte s).rxb = s.rxb := rfl
@[simp] theorem countByte_res (s : State) : (countByte s).res = s.res := rfl
@[simp] theorem countByte_writeAns (s : State) : (countByte s).writeAns = s.writeAns := rfl
@[simp] theorem countByte_deadlineAns (s : State) : (countByte s).deadlineAns = s.deadlineAns := rfl
@[simp] theorem countByte_readAns (s : State) : (countByte s).readAns = s.readAns := rfl
@[simp] theorem countByte_wire (s : State) : (countByte s).wire = s.wire := rfl
@[simp] theorem countByte_moves (s : State) : (countByte s).moves = s.moves := rfl
@[simp] theorem countByte_rdata (s : State) : (countByte s).rdata = s.rdata := rfl
@[simp] theorem countByte_draws (s : State) : (countByte s).draws = s.draws := rfl
@[simp] theorem countByte_epoch (s : State) : (countByte s).epoch = s.epoch := rfl
@[simp] theorem countByte_params (s : State) : (countByte s).params = s.params := rfl

/-! ### `appendRes` (43_decode.md R204) -/

@[simp] theorem appendRes_addr (r : RecVal) (m : Bool) (s : State) : (appendRes r m s).addr = s.addr := rfl
@[simp] theorem appendRes_arg (r : RecVal) (m : Bool) (s : State) : (appendRes r m s).arg = s.arg := rfl
@[simp] theorem appendRes_sec0 (r : RecVal) (m : Bool) (s : State) : (appendRes r m s).sec0 = s.sec0 := rfl
@[simp] theorem appendRes_sec1 (r : RecVal) (m : Bool) (s : State) : (appendRes r m s).sec1 = s.sec1 := rfl
@[simp] theorem appendRes_sec2 (r : RecVal) (m : Bool) (s : State) : (appendRes r m s).sec2 = s.sec2 := rfl
@[simp] theorem appendRes_sec3 (r : RecVal) (m : Bool) (s : State) : (appendRes r m s).sec3 = s.sec3 := rfl
@[simp] theorem appendRes_tmo (r : RecVal) (m : Bool) (s : State) : (appendRes r m s).tmo = s.tmo := rfl
@[simp] theorem appendRes_pc (r : RecVal) (m : Bool) (s : State) : (appendRes r m s).pc = s.pc := rfl
@[simp] theorem appendRes_op (r : RecVal) (m : Bool) (s : State) : (appendRes r m s).op = s.op := rfl
@[simp] theorem appendRes_done (r : RecVal) (m : Bool) (s : State) : (appendRes r m s).done = s.done := rfl
@[simp] theorem appendRes_errf (r : RecVal) (m : Bool) (s : State) : (appendRes r m s).errf = s.errf := rfl
@[simp] theorem appendRes_ovr (r : RecVal) (m : Bool) (s : State) : (appendRes r m s).ovr = s.ovr := rfl
@[simp] theorem appendRes_fcbt (r : RecVal) (m : Bool) (s : State) : (appendRes r m s).fcbt = s.fcbt := rfl
@[simp] theorem appendRes_first (r : RecVal) (m : Bool) (s : State) : (appendRes r m s).first = s.first := rfl
@[simp] theorem appendRes_more (r : RecVal) (m : Bool) (s : State) : (appendRes r m s).more = m := rfl
@[simp] theorem appendRes_phase (r : RecVal) (m : Bool) (s : State) : (appendRes r m s).phase = s.phase := rfl
@[simp] theorem appendRes_err (r : RecVal) (m : Bool) (s : State) : (appendRes r m s).err = s.err := rfl
@[simp] theorem appendRes_errsub (r : RecVal) (m : Bool) (s : State) : (appendRes r m s).errsub = s.errsub := rfl
@[simp] theorem appendRes_errenv (r : RecVal) (m : Bool) (s : State) : (appendRes r m s).errenv = s.errenv := rfl
@[simp] theorem appendRes_rval (r : RecVal) (m : Bool) (s : State) : (appendRes r m s).rval = s.rval := rfl
@[simp] theorem appendRes_txlen (r : RecVal) (m : Bool) (s : State) : (appendRes r m s).txlen = s.txlen := rfl
@[simp] theorem appendRes_txkind (r : RecVal) (m : Bool) (s : State) : (appendRes r m s).txkind = s.txkind := rfl
@[simp] theorem appendRes_rxlen (r : RecVal) (m : Bool) (s : State) : (appendRes r m s).rxlen = s.rxlen := rfl
@[simp] theorem appendRes_llen (r : RecVal) (m : Bool) (s : State) : (appendRes r m s).llen = s.llen := rfl
@[simp] theorem appendRes_ncnt (r : RecVal) (m : Bool) (s : State) : (appendRes r m s).ncnt = s.ncnt := rfl
@[simp] theorem appendRes_rescnt (r : RecVal) (m : Bool) (s : State) : (appendRes r m s).rescnt = rescntSucc s := rfl
@[simp] theorem appendRes_txb (r : RecVal) (m : Bool) (s : State) : (appendRes r m s).txb = s.txb := rfl
@[simp] theorem appendRes_rxb (r : RecVal) (m : Bool) (s : State) : (appendRes r m s).rxb = s.rxb := rfl
@[simp] theorem appendRes_res (r : RecVal) (m : Bool) (s : State) : (appendRes r m s).res = s.res ++ [ResEntry.mk s.rxlen (rxFrame s) r m] := rfl
@[simp] theorem appendRes_writeAns (r : RecVal) (m : Bool) (s : State) : (appendRes r m s).writeAns = s.writeAns := rfl
@[simp] theorem appendRes_deadlineAns (r : RecVal) (m : Bool) (s : State) : (appendRes r m s).deadlineAns = s.deadlineAns := rfl
@[simp] theorem appendRes_readAns (r : RecVal) (m : Bool) (s : State) : (appendRes r m s).readAns = s.readAns := rfl
@[simp] theorem appendRes_wire (r : RecVal) (m : Bool) (s : State) : (appendRes r m s).wire = s.wire := rfl
@[simp] theorem appendRes_moves (r : RecVal) (m : Bool) (s : State) : (appendRes r m s).moves = s.moves := rfl
@[simp] theorem appendRes_rdata (r : RecVal) (m : Bool) (s : State) : (appendRes r m s).rdata = s.rdata := rfl
@[simp] theorem appendRes_draws (r : RecVal) (m : Bool) (s : State) : (appendRes r m s).draws = s.draws := rfl
@[simp] theorem appendRes_epoch (r : RecVal) (m : Bool) (s : State) : (appendRes r m s).epoch = s.epoch := rfl
@[simp] theorem appendRes_params (r : RecVal) (m : Bool) (s : State) : (appendRes r m s).params = s.params := rfl

end Sys2Proof.Machine
end

