-- ==== Sys2Proof/Laws/Ops.lean ====
section
/-! SUPPORT. One lemma per shared operation that says everything it can do: buffer bytes after a write, commands,
the transport transactions, abort. -/

namespace Sys2Proof.Machine

/-! ### Bytes of the buffers -/

/-- A TXB byte depends on the buffer and the epoch alone. -/
theorem txByte_congr {s t : State} (h : t.txb = s.txb) (he : t.epoch = s.epoch) (i : Nat) : txByte t i = txByte s i := by
  simp [txByte, h, he]

/-- An RXB byte depends on the buffer and the epoch alone. -/
theorem rxByte_congr {s t : State} (h : t.rxb = s.rxb) (he : t.epoch = s.epoch) (i : Nat) : rxByte t i = rxByte s i := by
  simp [rxByte, h, he]

/-- Every TXB byte after a write of one. -/
theorem txByte_writeTx (s : State) (i j : Nat) (b : Byte) :
    txByte (writeTx i b s) j = if j = i ∧ i < 261 then b else txByte s j := by
  unfold writeTx
  by_cases hi : i < Config.TXB_CAP
  · by_cases hj : j = i
    · subst hj
      simp [txByte, hi, Memory.read_write_same]
    · simp [txByte, hi, hj, Memory.read_write_other _ _ hj]
  · rw [if_neg hi, if_neg (fun h => hi h.2)]

/-- Every RXB byte after a write of one. -/
theorem rxByte_writeRx (s : State) (i j : Nat) (b : Byte) :
    rxByte (writeRx i b s) j = if j = i ∧ i < 257 then b else rxByte s j := by
  unfold writeRx rxByte
  by_cases hi : i < Config.RXB_CAP
  · rw [if_pos hi]
    by_cases hj : j = i
    · subst hj
      rw [if_pos ⟨rfl, hi⟩]
      simp [Memory.read_write_same]
    · rw [if_neg (fun h => hj h.1)]
      simp [Memory.read_write_other _ _ hj]
  · rw [if_neg hi, if_neg (fun h => hi h.2)]

/-- Every TXB byte after a write of several. -/
theorem txByte_writeTxs (bs : List Byte) (s : State) (i j : Nat) (h : i + bs.length ≤ 261) :
    txByte (writeTxs i bs s) j = if i ≤ j ∧ j < i + bs.length then bs.getD (j - i) 0 else txByte s j := by
  induction bs generalizing i s with
  | nil => simp only [writeTxs, List.length_nil]; rw [if_neg (by omega)]
  | cons b bs ih =>
    simp only [List.length_cons] at h ⊢
    rw [writeTxs, ih _ _ (by omega), txByte_writeTx]
    by_cases h1 : i + 1 ≤ j ∧ j < i + 1 + bs.length
    · rw [if_pos h1, if_pos (by omega)]
      obtain ⟨k, rfl⟩ : ∃ k, j = i + 1 + k := ⟨j - (i + 1), by omega⟩
      simp [show i + 1 + k - i = k + 1 by omega]
    · rw [if_neg h1]
      by_cases h2 : j = i
      · subst h2; rw [if_pos ⟨rfl, by omega⟩, if_pos (by omega)]; simp
      · rw [if_neg (by omega), if_neg (by omega)]

/-! ### Reading several bytes -/

@[simp] theorem readFrom_length (f : Nat → Byte) (i n : Nat) : (readFrom f i n).length = n := by
  induction n generalizing i with
  | zero => rfl
  | succ n ih => simp [readFrom, ih]

/-- The `k`-th of several bytes read. -/
theorem readFrom_getElem? (f : Nat → Byte) (i n k : Nat) : (readFrom f i n)[k]? = if k < n then some (f (i + k)) else none := by
  induction n generalizing i k with
  | zero => simp [readFrom]
  | succ n ih =>
    cases k with
    | zero => simp [readFrom]
    | succ k =>
      rw [readFrom, List.getElem?_cons_succ, ih]
      simp [show i + 1 + k = i + (k + 1) by omega]

/-- Reading several bytes looks at those bytes only. -/
theorem readFrom_congr {f g : Nat → Byte} {i n : Nat} (h : ∀ j, i ≤ j → j < i + n → f j = g j) :
    readFrom f i n = readFrom g i n := by
  apply List.ext_getElem?
  intro k
  rw [readFrom_getElem?, readFrom_getElem?]
  split
  · rw [h (i + k) (by omega) (by omega)]
  · rfl

/-- Reading in two parts. -/
theorem readFrom_add (f : Nat → Byte) (i m n : Nat) : readFrom f i (m + n) = readFrom f i m ++ readFrom f (i + m) n := by
  induction m generalizing i with
  | zero => simp [readFrom]
  | succ m ih =>
    rw [show m + 1 + n = (m + n) + 1 by omega]
    simp [readFrom, ih, show i + 1 + m = i + (m + 1) by omega]

@[simp] theorem txBytes_length (s : State) (i n : Nat) : (txBytes s i n).length = n := readFrom_length _ _ _

@[simp] theorem rxBytes_length (s : State) (i n : Nat) : (rxBytes s i n).length = n := readFrom_length _ _ _

/-- `Sum` of a concatenation (40_checksum_engine.md R136). -/
theorem sumBytes_append (a b : List Byte) : sumBytes (a ++ b) = sumBytes a + sumBytes b := by
  induction a with
  | nil => simp [sumBytes]
  | cons x a ih => simp [sumBytes, ih, BitVec.add_assoc]

/-! ### Commands -/

/-- An idle block runs the command's acceptance actions (10_state.md R23). -/
theorem command_of_idle {s : State} (i : Instr) (body : State → State) (h : s.pc = .idle) :
    command i body s = .next (body (accept i.code s)) := by simp [command, h]

/-- A busy block drops the command (10_state.md R23). -/
theorem command_of_busy {s : State} (i : Instr) (body : State → State) (h : s.pc ≠ .idle) :
    command i body s = .next { s with ovr := true } := by simp [command, h]

/-- What any command can do. -/
theorem command_cases {s t : State} {i : Instr} {body : State → State} (h : command i body s = .next t) :
    (s.pc = .idle ∧ t = body (accept i.code s)) ∨ (s.pc ≠ .idle ∧ t = { s with ovr := true }) := by
  by_cases hs : s.pc = .idle
  · rw [command_of_idle i body hs] at h; cases h; exact .inl ⟨hs, rfl⟩
  · rw [command_of_busy i body hs] at h; cases h; exact .inr ⟨hs, rfl⟩

/-! ### Port T -/

theorem tWrite_of_cons {s : State} {a : CtlAnswer} {rest : List CtlAnswer} (bs : List Byte)
    (k : CtlAnswer → State → State) (h : s.writeAns = a :: rest) :
    tWrite bs k s = k a { s with writeAns := rest, wire := s.wire ++ [.write bs a] } := by simp [tWrite, h]

theorem tSetDeadline_of_cons {s : State} {a : CtlAnswer} {rest : List CtlAnswer} (t : Nat)
    (k : CtlAnswer → State → State) (h : s.deadlineAns = a :: rest) :
    tSetDeadline t k s = k a { s with deadlineAns := rest, wire := s.wire ++ [.setDeadline t a] } := by
  simp [tSetDeadline, h]

theorem tRead_of_cons {s : State} {a : ReadAnswer} {rest : List ReadAnswer} (k : ReadAnswer → State → State)
    (h : s.readAns = a :: rest) : tRead k s = k a { s with readAns := rest, wire := s.wire ++ [.read a] } := by
  simp [tRead, h]

/-- What `T.Write` can do: wait, or one answer. -/
theorem tWrite_cases (bs : List Byte) (k : CtlAnswer → State → State) (s : State) :
    (s.writeAns = [] ∧ tWrite bs k s = s) ∨
    ∃ a rest, s.writeAns = a :: rest ∧
      tWrite bs k s = k a { s with writeAns := rest, wire := s.wire ++ [.write bs a] } := by
  cases h : s.writeAns with
  | nil => exact .inl ⟨rfl, by simp [tWrite, h]⟩
  | cons a rest => exact .inr ⟨a, rest, rfl, tWrite_of_cons bs k h⟩

/-- What `T.SetDeadline` can do: wait, or one answer. -/
theorem tSetDeadline_cases (t : Nat) (k : CtlAnswer → State → State) (s : State) :
    (s.deadlineAns = [] ∧ tSetDeadline t k s = s) ∨
    ∃ a rest, s.deadlineAns = a :: rest ∧
      tSetDeadline t k s = k a { s with deadlineAns := rest, wire := s.wire ++ [.setDeadline t a] } := by
  cases h : s.deadlineAns with
  | nil => exact .inl ⟨rfl, by simp [tSetDeadline, h]⟩
  | cons a rest => exact .inr ⟨a, rest, rfl, tSetDeadline_of_cons t k h⟩

/-- What `T.Read` can do: wait, or one answer. -/
theorem tRead_cases (k : ReadAnswer → State → State) (s : State) :
    (s.readAns = [] ∧ tRead k s = s) ∨
    ∃ a rest, s.readAns = a :: rest ∧ tRead k s = k a { s with readAns := rest, wire := s.wire ++ [.read a] } := by
  cases h : s.readAns with
  | nil => exact .inl ⟨rfl, by simp [tRead, h]⟩
  | cons a rest => exact .inr ⟨a, rest, rfl, tRead_of_cons k h⟩

/-! ### Memory form -/

theorem wf_txb_writeTx {s : State} (i : Nat) (b : Byte) (h : s.txb.wf) : (writeTx i b s).txb.wf := by
  unfold writeTx; split
  · exact Memory.wf_write i b h
  · exact h

theorem wf_rxb_writeRx {s : State} (i : Nat) (b : Byte) (h : s.rxb.wf) : (writeRx i b s).rxb.wf := by
  unfold writeRx; split
  · exact Memory.wf_write i b h
  · exact h

theorem wf_txb_writeTxs {s : State} (i : Nat) (bs : List Byte) (h : s.txb.wf) : (writeTxs i bs s).txb.wf := by
  induction bs generalizing i s with
  | nil => exact h
  | cons b bs ih => exact ih _ (wf_txb_writeTx i b h)

theorem bound_txb_writeTx {s : State} (i : Nat) (b : Byte) (h : ∀ c ∈ s.txb, c.1 < 261) :
    ∀ c ∈ (writeTx i b s).txb, c.1 < 261 := by
  unfold writeTx; split
  · exact Memory.bound_write b ‹_› h
  · exact h

theorem bound_rxb_writeRx {s : State} (i : Nat) (b : Byte) (h : ∀ c ∈ s.rxb, c.1 < 257) :
    ∀ c ∈ (writeRx i b s).rxb, c.1 < 257 := by
  unfold writeRx; split
  · exact Memory.bound_write b ‹_› h
  · exact h

theorem bound_txb_writeTxs {s : State} (i : Nat) (bs : List Byte) (h : ∀ c ∈ s.txb, c.1 < 261) :
    ∀ c ∈ (writeTxs i bs s).txb, c.1 < 261 := by
  induction bs generalizing i s with
  | nil => exact h
  | cons b bs ih => exact ih _ (bound_txb_writeTx i b h)

end Sys2Proof.Machine
end

