-- ==== Sys2Proof/Laws/Engine.lean ====
section
/-! SUPPORT. What the checksum engine's functions and the frame builder do to every byte of TXB, and that RESCNT is wide
enough for RES. -/

namespace Sys2Proof.Machine

/-! ### The engine's functions change TXB alone -/

theorem setChecksum_frame (s : State) : setChecksum s = { s with txb := (setChecksum s).txb } := by
  unfold setChecksum writeTx; split <;> rfl

theorem setLength_frame (s : State) : setLength s = { s with txb := (setLength s).txb } := by
  unfold setLength writeTx; split <;> split <;> rfl

theorem setFcb_frame (s : State) : setFcb s = { s with txb := (setFcb s).txb } := by
  unfold setFcb writeTx; split <;> rfl

theorem writeTxs_frame (i : Nat) (bs : List Byte) (s : State) :
    writeTxs i bs s = { s with txb := (writeTxs i bs s).txb } := by
  induction bs generalizing i s with
  | nil => rfl
  | cons b bs ih =>
    rw [writeTxs, ih]
    unfold writeTx; split <;> rfl

theorem build_frame (k : BitVec 1) (bs : List Byte) (s : State) :
    build k bs s = { s with txb := (build k bs s).txb, txlen := BitVec.ofNat 9 bs.length, txkind := k } := by
  unfold build
  dsimp only
  rw [setChecksum_frame, writeTxs_frame, setDescriptor]
  split
  · rw [setLength_frame]
  · rfl

/-! ### Their bytes -/

/-- SetChecksum writes the checksum slot alone (40_checksum_engine.md R130). -/
theorem txByte_setChecksum (s : State) (j : Nat) (h : csidx s < 261) :
    txByte (setChecksum s) j = if j = csidx s then txChecksum s else txByte s j := by
  rw [setChecksum, txByte_writeTx]
  simp [h]

/-- SetLength writes both length slots alone (R131). -/
theorem txByte_setLength (s : State) (j : Nat) :
    txByte (setLength s) j = if j = 1 ∨ j = 2 then lval s else txByte s j := by
  rw [setLength, txByte_writeTx, txByte_writeTx]
  by_cases h2 : j = 2 <;> by_cases h1 : j = 1 <;> simp [h1, h2]

/-- SetFcb sets bit 5 of C alone (R133). -/
theorem txByte_setFcb (s : State) (j : Nat) :
    txByte (setFcb s) j = if j = cidx s then withFcb (txByte s (cidx s)) else txByte s j := by
  have h : cidx s < 261 := by unfold cidx; split <;> decide
  rw [setFcb, txByte_writeTx]
  simp [h]

/-- A correctly sized frame has its checksum slot in TXB, right after the summed range. -/
theorem csidx_of_sized {s : State} (h : correctlySized s = true) : csidx s < 261 ∧ sumHi s = csidx s ∧ sumLo s ≤ csidx s := by
  unfold correctlySized at h
  unfold csidx sumHi sumLo
  split at h
  · simp_all
  · simp only [Bool.and_eq_true, decide_eq_true_eq] at h
    simp_all
    omega

/-- The checksum depends on the descriptor and the summed bytes alone. -/
theorem txChecksum_congr {s t : State} (hk : t.txkind = s.txkind) (hl : t.txlen = s.txlen)
    (h : ∀ j, sumLo s ≤ j → j < sumHi s → txByte t j = txByte s j) : txChecksum t = txChecksum s := by
  have e1 : sumLo t = sumLo s := by simp [sumLo, hk]
  have e2 : sumHi t = sumHi s := by simp [sumHi, hk, hl]
  unfold txChecksum txBytes
  rw [e1, e2]
  congr 1
  exact readFrom_congr fun j h1 h2 => h j h1 (by omega)

/-- The checksum slot is not summed: SetChecksum does not change the checksum (R130, idempotence). -/
theorem txChecksum_setChecksum {s : State} (h : correctlySized s = true) : txChecksum (setChecksum s) = txChecksum s := by
  obtain ⟨h1, h2, h3⟩ := csidx_of_sized h
  refine txChecksum_congr (by simp) (by simp) fun j _ hj => ?_
  rw [txByte_setChecksum s j h1, if_neg (by omega)]

/-! ### The frame builder (41_frame_builder.md R150) -/

/-- Building a long frame, step by step (R150). -/
theorem build_long_eq (bs : List Byte) (s : State) :
    build 1#1 bs s = setChecksum (setLength (setDescriptor 1#1 bs.length (writeTxs 0 bs s))) := rfl

/-- Building a short frame, step by step (R150). -/
theorem build_short_eq (bs : List Byte) (s : State) :
    build 0#1 bs s = setChecksum (setDescriptor 0#1 bs.length (writeTxs 0 bs s)) := rfl

/-- Every TXB byte before the length and checksum slots are filled. -/
theorem txByte_described (k : BitVec 1) {bs : List Byte} (s : State) (j : Nat) (h : bs.length ≤ 261) :
    txByte (setDescriptor k bs.length (writeTxs 0 bs s)) j = if j < bs.length then bs.getD j 0 else txByte s j := by
  rw [txByte_congr (s := writeTxs 0 bs s) (setDescriptor_txb ..) (setDescriptor_epoch ..),
    txByte_writeTxs _ _ _ _ (by omega)]
  simp

/-- Every TXB byte after a long frame was built. -/
theorem txByte_build_long {bs : List Byte} (s : State) (j : Nat) (h9 : 9 ≤ bs.length) (h : bs.length ≤ 261) :
    txByte (build 1#1 bs s) j =
      if j = bs.length - 2 then sumBytes ((bs.drop 4).take (bs.length - 6))
      else if j = 1 ∨ j = 2 then BitVec.ofNat 8 (bs.length - 6)
      else if j < bs.length then bs.getD j 0 else txByte s j := by
  have hn : (BitVec.ofNat 9 bs.length).toNat = bs.length := by simp; omega
  rw [build_long_eq]
  have hcs : csidx (setLength (setDescriptor 1#1 bs.length (writeTxs 0 bs s))) = bs.length - 2 := by simp [csidx, hn]
  rw [txByte_setChecksum _ _ (by omega), hcs]
  split
  · unfold txChecksum
    congr 1
    apply List.ext_getElem?
    intro k
    rw [show sumLo (setLength (setDescriptor 1#1 bs.length (writeTxs 0 bs s))) = 4 by simp [sumLo],
      show sumHi (setLength (setDescriptor 1#1 bs.length (writeTxs 0 bs s))) = bs.length - 2 by simp [sumHi, hn],
      txBytes, readFrom_getElem?, List.getElem?_take, List.getElem?_drop]
    by_cases hk : k < bs.length - 2 - 4
    · rw [if_pos hk, if_pos (by omega), txByte_setLength, if_neg (by omega), txByte_described _ _ _ h, if_pos (by omega)]
      simp [List.getElem?_eq_getElem (show 4 + k < bs.length by omega)]
    · rw [if_neg hk, if_neg (by omega)]
  · rw [txByte_setLength]
    split
    · simp [lval, hn]
    · exact txByte_described _ _ _ h

/-- Every TXB byte after a short frame was built. -/
theorem txByte_build_short {bs : List Byte} (s : State) (j : Nat) (h : bs.length = 5) :
    txByte (build 0#1 bs s) j =
      if j = 3 then bs.getD 1 0 + bs.getD 2 0 else if j < 5 then bs.getD j 0 else txByte s j := by
  rw [build_short_eq]
  have hcs : csidx (setDescriptor 0#1 bs.length (writeTxs 0 bs s)) = 3 := by simp [csidx]
  rw [txByte_setChecksum _ _ (by omega), hcs]
  split
  · have hb := fun j => txByte_described 0#1 (bs := bs) s j (by omega)
    simp only [h] at hb
    simp [txChecksum, txBytes, readFrom, sumBytes, sumLo, sumHi, hb, h]
  · rw [txByte_described _ _ _ (by omega), h]

/-- The bytes `setLength` and `setChecksum` leave in a long frame from a template are the long frame (R93). -/
theorem txFrame_build_longBytes (c a ci : Byte) (payload : List Byte) (s : State) (h : payload.length ≤ 252) :
    txFrame (build 1#1 (longBytes c a ci payload) s) = longFrame ([c, a, ci] ++ payload) := by
  have hl : (longBytes c a ci payload).length = payload.length + 9 := by simp [longBytes]
  have hn : (BitVec.ofNat 9 (longBytes c a ci payload).length).toNat = payload.length + 9 := by simp [hl]; omega
  have hsum : ((longBytes c a ci payload).drop 4).take ((longBytes c a ci payload).length - 6) = [c, a, ci] ++ payload := by
    rw [hl, show payload.length + 9 - 6 = payload.length + 3 by omega]
    simp [longBytes]
  unfold txFrame
  rw [build_txlen, hn]
  apply List.ext_getElem?
  intro k
  rw [txBytes, readFrom_getElem?, Nat.zero_add]
  split
  · rw [txByte_build_long _ _ (by omega) (by omega), hsum, hl]
    rcases Nat.lt_or_ge k 4 with h4 | h4
    · match k, h4 with
      | 0, _ => simp [longFrame, longBytes, Config.START_L]
      | 1, _ => simp [longFrame]
      | 2, _ => simp [longFrame]
      | 3, _ => simp [longFrame, longBytes, Config.START_L]
    · obtain ⟨m, rfl⟩ : ∃ m, k = m + 4 := ⟨k - 4, by omega⟩
      have e1 : (longFrame ([c, a, ci] ++ payload))[m + 4]? =
          (([c, a, ci] ++ payload) ++ [sumBytes ([c, a, ci] ++ payload), 0x16])[m]? := by simp [longFrame]
      have e2 : (longBytes c a ci payload).getD (m + 4) 0 = (([c, a, ci] ++ payload) ++ [CS, Config.STOP]).getD m 0 := by
        simp [longBytes]
      rw [if_neg (show ¬(m + 4 = 1 ∨ m + 4 = 2) by omega), if_pos (show m + 4 < payload.length + 9 by omega), e1, e2]
      generalize hb : [c, a, ci] ++ payload = body
      have hbl : body.length = payload.length + 3 := by simp [← hb]
      rcases Nat.lt_trichotomy m body.length with hm | hm | hm
      · rw [if_neg (by omega)]
        simp [List.getElem?_append_left hm, List.getElem?_eq_getElem hm, List.getD]
      · subst hm
        rw [if_pos (by omega)]
        simp
      · obtain rfl : m = body.length + 1 := by omega
        rw [if_neg (by omega)]
        simp [List.getD]
  · rw [List.getElem?_eq_none (by simp [longFrame]; omega)]

/-- The frame a link-reset build leaves in TXB (R101). -/
theorem txFrame_build_nke (s u : State) : txFrame (build 0#1 (nkeBytes u) s) = linkResetFrame u.addr := by
  have hl : (nkeBytes u).length = 5 := rfl
  have hb := fun j => txByte_build_short (bs := nkeBytes u) s j hl
  unfold txFrame
  rw [build_txlen, hl]
  simp only [txBytes, readFrom, hb, show (BitVec.ofNat 9 5).toNat = 5 from rfl]
  simp [nkeBytes, linkResetFrame, Config.START_S, Config.C_NKE, Config.STOP]

/-! ### The width of RESCNT (10_state.md R32) -/

/-- A RESCNT that counts to a finite RES_CAP is wide enough: it never wraps. -/
theorem rescntSucc_of_lt {s : State} {cap : Nat} (h : s.params.resCap = some cap) (hlt : s.rescnt < cap) :
    rescntSucc s = s.rescnt + 1 := by
  have hcap : cap < 2 ^ rescntWidth s.params := by rw [rescntWidth, h]; exact Nat.lt_log2_self
  exact Nat.mod_eq_of_lt (by omega)

/-- With RES_CAP unbounded RESCNT has 32 bits. -/
theorem rescntSucc_unbounded {s : State} (h : s.params.resCap = none) : rescntSucc s = (s.rescnt + 1) % 2 ^ 32 := by
  rw [rescntSucc, rescntWidth, h]

@[simp] theorem resCount_zero (p : Params) : resCount p 0 = 0 := by unfold resCount; split <;> rfl

/-- Storing one more result in a RES that is not full keeps RESCNT right. -/
theorem rescntSucc_resCount {s : State} {n : Nat} (h : s.rescnt = resCount s.params n)
    (hfull : ∀ cap, s.params.resCap = some cap → n < cap) : rescntSucc s = resCount s.params (n + 1) := by
  cases hc : s.params.resCap with
  | none => rw [rescntSucc_unbounded hc, h]; simp only [resCount, hc]; omega
  | some cap =>
    have hn : s.rescnt = n := by rw [h]; simp only [resCount, hc]
    have := hfull cap hc
    rw [rescntSucc_of_lt hc (by omega), hn]; simp only [resCount, hc]

end Sys2Proof.Machine
end

