-- ==== Sys2Proof/Laws/PerInstr.lean ====
section
/-! SUPPORT. Laws proved command by command. -/

namespace Sys2Proof.Laws

/-- The encoding of a command is one byte, well formed, and decodes to the command, whatever follows
(30_encoding.md R110, R111). -/
def Encoding.Statement (i : Instr) : Prop :=
  i.wf = true ∧ (encode i).length = 1 ∧ ∀ rest, decode (encode i ++ rest) = .ok (i, rest)

theorem Encoding.setcs : Encoding.Statement .setcs := ⟨rfl, rfl, fun _ => rfl⟩
theorem Encoding.setlen : Encoding.Statement .setlen := ⟨rfl, rfl, fun _ => rfl⟩
theorem Encoding.getfcb : Encoding.Statement .getfcb := ⟨rfl, rfl, fun _ => rfl⟩
theorem Encoding.setfcb : Encoding.Statement .setfcb := ⟨rfl, rfl, fun _ => rfl⟩
theorem Encoding.bldNke : Encoding.Statement .bldNke := ⟨rfl, rfl, fun _ => rfl⟩
theorem Encoding.bldApprst : Encoding.Statement .bldApprst := ⟨rfl, rfl, fun _ => rfl⟩
theorem Encoding.bldReq : Encoding.Statement .bldReq := ⟨rfl, rfl, fun _ => rfl⟩
theorem Encoding.bldPage : Encoding.Statement .bldPage := ⟨rfl, rfl, fun _ => rfl⟩
theorem Encoding.bldSetsec : Encoding.Statement .bldSetsec := ⟨rfl, rfl, fun _ => rfl⟩
theorem Encoding.bldSetpri : Encoding.Statement .bldSetpri := ⟨rfl, rfl, fun _ => rfl⟩
theorem Encoding.send : Encoding.Statement .send := ⟨rfl, rfl, fun _ => rfl⟩
theorem Encoding.rdack : Encoding.Statement .rdack := ⟨rfl, rfl, fun _ => rfl⟩
theorem Encoding.rdlong : Encoding.Statement .rdlong := ⟨rfl, rfl, fun _ => rfl⟩
theorem Encoding.decode : Encoding.Statement .decode := ⟨rfl, rfl, fun _ => rfl⟩
theorem Encoding.rd1 : Encoding.Statement .rd1 := ⟨rfl, rfl, fun _ => rfl⟩
theorem Encoding.rdall : Encoding.Statement .rdall := ⟨rfl, rfl, fun _ => rfl⟩
theorem Encoding.pagechg : Encoding.Statement .pagechg := ⟨rfl, rfl, fun _ => rfl⟩

end Sys2Proof.Laws
end

