-- ==== Sys2Proof/Laws/Step.lean ====
section
/-! SUPPORT. What one step of the machine can do, said once: the sequencer's step from each state, each command's
acceptance, the host's moves, and the one package every invariant proof goes through. -/

namespace Sys2Proof.Machine

/-! ### The sequencer's step from each state (44_session.md R230) -/

theorem seqStep_idle {s : State} (h : s.pc = .idle) : seqStep s = s := by simp [seqStep, h]
theorem seqStep_txCmd {s : State} (h : s.pc = .txCmd) : seqStep s = stepTxCmd s := by simp [seqStep, h]
theorem seqStep_ackArm {s : State} (h : s.pc = .ackArm) : seqStep s = stepAckArm s := by simp [seqStep, h]
theorem seqStep_ackRd {s : State} (h : s.pc = .ackRd) : seqStep s = stepAckRd s := by simp [seqStep, h]
theorem seqStep_loop {s : State} (h : s.pc = .loop) : seqStep s = stepLoop s := by simp [seqStep, h]
theorem seqStep_reqBuild {s : State} (h : s.pc = .reqBuild) : seqStep s = stepReqBuild s := by simp [seqStep, h]
theorem seqStep_txReq {s : State} (h : s.pc = .txReq) : seqStep s = stepTxReq s := by simp [seqStep, h]
theorem seqStep_lfArm {s : State} (h : s.pc = .lfArm) : seqStep s = stepLfArm s := by simp [seqStep, h]
theorem seqStep_lfRd {s : State} (h : s.pc = .lfRd) : seqStep s = stepLfRd s := by simp [seqStep, h]
theorem seqStep_verify {s : State} (h : s.pc = .verify) : seqStep s = stepVerify s := by simp [seqStep, h]
theorem seqStep_decode {s : State} (h : s.pc = .decode) : seqStep s = stepDecode s := by simp [seqStep, h]

/-! ### What each sequencer step can do -/

/-- TX_CMD waits, or writes the frame and finishes, goes on to the acknowledgement wait, or raises. -/
theorem stepTxCmd_cases (s : State) :
    (s.writeAns = [] ∧ stepTxCmd s = s) ∨
    ∃ a rest u, s.writeAns = a :: rest ∧ u = { s with writeAns := rest, wire := s.wire ++ [.write (txFrame s) a] } ∧
      ((a = .ok ∧ s.op = Instr.send.code ∧ stepTxCmd s = finish u) ∨
       (a = .ok ∧ s.op ≠ Instr.send.code ∧ stepTxCmd s = { u with pc := .ackArm }) ∨
       (∃ e, a = .err e ∧ stepTxCmd s = raise .transport 1 e u)) := by
  rcases tWrite_cases (txFrame s) _ s with ⟨h, e⟩ | ⟨a, rest, h, e⟩
  · exact .inl ⟨h, e⟩
  · refine .inr ⟨a, rest, _, h, rfl, ?_⟩
    cases a with
    | ok =>
      by_cases ho : s.op = Instr.send.code
      · exact .inl ⟨rfl, ho, e.trans (if_pos ho)⟩
      · exact .inr (.inl ⟨rfl, ho, e.trans (if_neg ho)⟩)
    | err e' => exact .inr (.inr ⟨e', rfl, e⟩)

/-- TX_REQ waits, or writes the frame and goes on to the scan, or raises. -/
theorem stepTxReq_cases (s : State) :
    (s.writeAns = [] ∧ stepTxReq s = s) ∨
    ∃ a rest u, s.writeAns = a :: rest ∧ u = { s with writeAns := rest, wire := s.wire ++ [.write (txFrame s) a] } ∧
      ((a = .ok ∧ stepTxReq s = { u with pc := .lfArm }) ∨
       (∃ e, a = .err e ∧ stepTxReq s = raise .transport 1 e u)) := by
  rcases tWrite_cases (txFrame s) _ s with ⟨h, e⟩ | ⟨a, rest, h, e⟩
  · exact .inl ⟨h, e⟩
  · refine .inr ⟨a, rest, _, h, rfl, ?_⟩
    cases a with
    | ok => exact .inl ⟨rfl, e⟩
    | err e' => exact .inr ⟨e', rfl, e⟩

/-- ACK_ARM waits, or sets the deadline, or raises. -/
theorem stepAckArm_cases (s : State) :
    (s.deadlineAns = [] ∧ stepAckArm s = s) ∨
    ∃ a rest u, s.deadlineAns = a :: rest ∧
      u = { s with deadlineAns := rest, wire := s.wire ++ [PortEvent.setDeadline s.tmo a] } ∧
      ((a = .ok ∧ stepAckArm s = { u with pc := .ackRd }) ∨
       (∃ e, a = .err e ∧ stepAckArm s = raise .transport 2 e u)) := by
  rcases tSetDeadline_cases s.tmo _ s with ⟨h, e⟩ | ⟨a, rest, h, e⟩
  · exact .inl ⟨h, e⟩
  · refine .inr ⟨a, rest, _, h, rfl, ?_⟩
    cases a with
    | ok => exact .inl ⟨rfl, e⟩
    | err e' => exact .inr ⟨e', rfl, e⟩

/-- ACK_RD waits, or sees the acknowledgement, discards a byte, or raises. -/
theorem stepAckRd_cases (s : State) :
    (s.readAns = [] ∧ stepAckRd s = s) ∨
    ∃ a rest u, s.readAns = a :: rest ∧ u = { s with readAns := rest, wire := s.wire ++ [.read a] } ∧
      ((a = .byte 0xE5 ∧ (s.op = Instr.rd1.code ∨ s.op = Instr.rdall.code) ∧ stepAckRd s = sessionStart u) ∨
       (a = .byte 0xE5 ∧ ¬(s.op = Instr.rd1.code ∨ s.op = Instr.rdall.code) ∧ stepAckRd s = finish u) ∨
       (∃ b, a = .byte b ∧ b ≠ 0xE5 ∧ stepAckRd s = { u with pc := .ackArm }) ∨
       (∃ e, a = .timeout e ∧ stepAckRd s = raise .ackTimeout 0 e u) ∨
       (∃ e, a = .err e ∧ stepAckRd s = raise .transport 3 e u)) := by
  rcases tRead_cases _ s with ⟨h, e⟩ | ⟨a, rest, h, e⟩
  · exact .inl ⟨h, e⟩
  · refine .inr ⟨a, rest, _, h, rfl, ?_⟩
    cases a with
    | byte b =>
      by_cases hb : b = 0xE5
      · subst hb
        by_cases ho : s.op = Instr.rd1.code ∨ s.op = Instr.rdall.code
        · exact .inl ⟨rfl, ho, e.trans ((if_pos rfl).trans (if_pos ho))⟩
        · exact .inr (.inl ⟨rfl, ho, e.trans ((if_pos rfl).trans (if_neg ho))⟩)
      · exact .inr (.inr (.inl ⟨b, rfl, hb, e.trans (if_neg hb)⟩))
    | timeout e' => exact .inr (.inr (.inr (.inl ⟨e', rfl, e⟩)))
    | err e' => exact .inr (.inr (.inr (.inr ⟨e', rfl, e⟩)))

/-- LF_ARM waits, or sets the deadline, or drops the frame and raises. -/
theorem stepLfArm_cases (s : State) :
    (s.deadlineAns = [] ∧ stepLfArm s = s) ∨
    ∃ a rest u, s.deadlineAns = a :: rest ∧
      u = { s with deadlineAns := rest, wire := s.wire ++ [PortEvent.setDeadline s.tmo a] } ∧
      ((a = .ok ∧ stepLfArm s = { u with pc := .lfRd }) ∨
       (∃ e, a = .err e ∧ stepLfArm s = raise .transport 2 e { u with rxlen := 0 })) := by
  rcases tSetDeadline_cases s.tmo _ s with ⟨h, e⟩ | ⟨a, rest, h, e⟩
  · exact .inl ⟨h, e⟩
  · refine .inr ⟨a, rest, _, h, rfl, ?_⟩
    cases a with
    | ok => exact .inl ⟨rfl, e⟩
    | err e' => exact .inr ⟨e', rfl, e⟩

/-- LF_RD waits, or scans a byte, or drops the frame and raises. -/
theorem stepLfRd_cases (s : State) :
    (s.readAns = [] ∧ stepLfRd s = s) ∨
    ∃ a rest u, s.readAns = a :: rest ∧ u = { s with readAns := rest, wire := s.wire ++ [.read a] } ∧
      ((∃ b, a = .byte b ∧ stepLfRd s = scanByte b u) ∨
       (∃ e, a = .timeout e ∧ stepLfRd s = raise .transport 4 e { u with rxlen := 0 }) ∨
       (∃ e, a = .err e ∧ stepLfRd s = raise .transport 3 e { u with rxlen := 0 })) := by
  rcases tRead_cases _ s with ⟨h, e⟩ | ⟨a, rest, h, e⟩
  · exact .inl ⟨h, e⟩
  · refine .inr ⟨a, rest, _, h, rfl, ?_⟩
    cases a with
    | byte b => exact .inl ⟨b, rfl, e⟩
    | timeout e' => exact .inr (.inl ⟨e', rfl, e⟩)
    | err e' => exact .inr (.inr ⟨e', rfl, e⟩)

/-- A byte that completes no frame goes on scanning, or ends the scan at the bound. -/
theorem lfIncomplete_cases (s : State) :
    (256 < s.ncnt.toNat ∧ lfIncomplete s = raise .frameNotFound 0 0 { s with rxlen := 0 }) ∨
    (s.ncnt.toNat ≤ 256 ∧ lfIncomplete s = { s with pc := .lfArm }) := by
  unfold lfIncomplete
  split
  · exact .inl ⟨‹_›, rfl⟩
  · exact .inr ⟨Nat.not_lt.1 ‹_›, rfl⟩

/-- A complete frame goes on to VERIFY in a session, else ends the command. -/
theorem lfComplete_cases (s : State) :
    ((s.op = Instr.rd1.code ∨ s.op = Instr.rdall.code) ∧ lfComplete s = { s with pc := .verify }) ∨
    (¬(s.op = Instr.rd1.code ∨ s.op = Instr.rdall.code) ∧ lfComplete s = finish s) := by
  unfold lfComplete
  split
  · exact .inl ⟨‹_›, rfl⟩
  · exact .inr ⟨‹_›, rfl⟩

/-- A byte is searched in, completes a frame, or is collected. -/
theorem scanByte_cases (b : Byte) (s : State) :
    (s.phase = false ∧ scanByte b s = lfIncomplete (searchByte b (countByte s))) ∨
    (s.phase = true ∧ frameComplete b (pushRx b (countByte s)) = true ∧
      scanByte b s = lfComplete (pushRx b (countByte s))) ∨
    (s.phase = true ∧ frameComplete b (pushRx b (countByte s)) = false ∧
      scanByte b s = lfIncomplete (pushRx b (countByte s))) := by
  cases hp : s.phase
  · exact .inl ⟨rfl, by simp [scanByte, hp]⟩
  · cases hc : frameComplete b (pushRx b (countByte s))
    · exact .inr (.inr ⟨rfl, rfl, by simp [scanByte, hp, hc]⟩)
    · exact .inr (.inl ⟨rfl, rfl, by simp [scanByte, hp, hc]⟩)

/-- VERIFY raises TRUNCATED, raises CHECKSUM, or goes on to DECODE (43_decode.md R203). -/
theorem stepVerify_cases (s : State) :
    (s.llen.toNat < 3 ∧ stepVerify s = raise .decode 2 0 s) ∨
    (3 ≤ s.llen.toNat ∧ rxChecksumOk s = false ∧ stepVerify s = raise .decode 1 0 s) ∨
    (3 ≤ s.llen.toNat ∧ rxChecksumOk s = true ∧ stepVerify s = { s with pc := .decode }) := by
  unfold stepVerify
  split
  · exact .inl ⟨‹_›, rfl⟩
  · split
    · exact .inr (.inr ⟨by omega, ‹_›, rfl⟩)
    · exact .inr (.inl ⟨by omega, by simpa using ‹¬rxChecksumOk s = true›, rfl⟩)

/-- DECODE raises PAYLOAD, raises ResOverflow, or stores the result and goes on (43_decode.md R204). -/
theorem stepDecode_cases (s : State) :
    (∃ d, decAnswer s.params (rxFrame s) = .err d ∧ stepDecode s = raise .decode 3 d s) ∨
    ∃ record more, decAnswer s.params (rxFrame s) = .ok record more ∧
      ((s.params.resCap = some s.rescnt ∧ stepDecode s = raise .resOverflow 0 0 s) ∨
       (s.params.resCap ≠ some s.rescnt ∧ s.op = Instr.rdall.code ∧
         stepDecode s = { appendRes record more s with pc := .loop }) ∨
       (s.params.resCap ≠ some s.rescnt ∧ s.op ≠ Instr.rdall.code ∧ stepDecode s = finish (appendRes record more s))) := by
  unfold stepDecode
  cases hd : decAnswer s.params (rxFrame s) with
  | err d => exact .inl ⟨d, rfl, rfl⟩
  | ok record more =>
    refine .inr ⟨record, more, rfl, ?_⟩
    by_cases hf : s.params.resCap = some s.rescnt
    · exact .inl ⟨hf, by simp [resFull, hf]⟩
    · by_cases ho : s.op = Instr.rdall.code
      · exact .inr (.inl ⟨hf, ho, by simp [resFull, hf, decoded, appendRes, ho]⟩)
      · exact .inr (.inr ⟨hf, ho, by simp [resFull, hf, decoded, appendRes, ho]⟩)

/-- LOOP starts the first iteration, starts another with the FCB toggled, or ends (44_session.md R223). -/
theorem stepLoop_cases (s : State) :
    (s.first = true ∧ stepLoop s = { s with first := false, pc := .reqBuild }) ∨
    (s.first = false ∧ s.more = true ∧ stepLoop s = { s with fcbt := !s.fcbt, pc := .reqBuild }) ∨
    (s.first = false ∧ s.more = false ∧ stepLoop s = finish s) := by
  unfold stepLoop
  cases s.first <;> cases s.more <;> simp

/-- A register store of an idle block changes operand registers and the frame descriptor alone, TXLEN staying in range
(10_state.md R21, R22, R30, R33). -/
theorem storeReg_cases (r : Reg) (v : Nat) (s : State) :
    ∃ a g s0 s1 s2 s3 tm tl tk,
      storeReg r v s = { s with addr := a, arg := g, sec0 := s0, sec1 := s1, sec2 := s2, sec3 := s3, tmo := tm,
                                txlen := tl, txkind := tk } := by
  cases r <;> exact ⟨_, _, _, _, _, _, _, _, _, rfl⟩

/-! ### What a command can do -/

/-- The acceptance action of each command. -/
def acceptOf : Instr → State → State
  | .setcs => acceptSetcs
  | .setlen => acceptSetlen
  | .getfcb => acceptGetfcb
  | .setfcb => acceptSetfcb
  | .bldNke => acceptBldNke
  | .bldApprst => acceptBldApprst
  | .bldReq => acceptBldReq
  | .bldPage => acceptBldPage
  | .bldSetsec => acceptBldSetsec
  | .bldSetpri => acceptBldSetpri
  | .send => acceptSend
  | .rdack => acceptRdack
  | .rdlong => acceptRdlong
  | .decode => acceptDecode
  | .rd1 => sessionInit
  | .rdall => sessionInit
  | .pagechg => acceptPagechg

theorem exec_eq_command (i : Instr) (s : State) : exec i s = command i (acceptOf i) s := by cases i <;> rfl

/-- An idle block accepts the command (10_state.md R23). -/
theorem exec_of_idle {s : State} (i : Instr) (h : s.pc = .idle) : exec i s = .next (acceptOf i (accept i.code s)) := by
  rw [exec_eq_command, command_of_idle _ _ h]

/-- A busy block drops the command (10_state.md R23). -/
theorem exec_of_busy {s : State} (i : Instr) (h : s.pc ≠ .idle) : exec i s = .next { s with ovr := true } := by
  rw [exec_eq_command, command_of_busy _ _ h]

/-- What a host write of a legal code to CMD can do. -/
theorem exec_cases {i : Instr} {s t : State} (h : exec i s = .next t) :
    (s.pc = .idle ∧ t = acceptOf i (accept i.code s)) ∨ (s.pc ≠ .idle ∧ t = { s with ovr := true }) :=
  command_cases (exec_eq_command i s ▸ h)

/-- What a host write of an illegal code to CMD can do. -/
theorem illegalCommand_cases (c : Byte) (s : State) :
    (s.pc = .idle ∧ illegalCommand c s = raise .illegalCmd 0 0 (accept c s)) ∨
    (s.pc ≠ .idle ∧ illegalCommand c s = { s with ovr := true }) := by
  unfold illegalCommand
  split
  · exact .inl ⟨‹_›, rfl⟩
  · exact .inr ⟨‹_›, rfl⟩

/-- A size-checked command raises BadSize or runs (40_checksum_engine.md R135). -/
theorem ifCorrectlySized_cases (body : State → State) (s : State) :
    (correctlySized s = true ∧ ifCorrectlySized body s = body s) ∨
    (correctlySized s = false ∧ ifCorrectlySized body s = raise .badSize 1 0 s) := by
  unfold ifCorrectlySized
  cases correctlySized s
  · exact .inr ⟨rfl, rfl⟩
  · exact .inl ⟨rfl, rfl⟩

/-- What SETLEN can do (R131). -/
theorem acceptSetlen_cases (s : State) :
    (s.txkind = 1 ∧ correctlySized s = true ∧ acceptSetlen s = finish (setLength s)) ∨
    acceptSetlen s = raise .badSize 1 0 s := by
  unfold acceptSetlen
  split
  · rcases ifCorrectlySized_cases (fun s => finish (setLength s)) s with ⟨h, e⟩ | ⟨_, e⟩
    · exact .inl ⟨‹_›, h, e⟩
    · exact .inr e
  · exact .inr rfl

/-- What DECODE's acceptance can do (43_decode.md R205). -/
theorem acceptDecode_cases (s : State) :
    (s.rxlen = 0 ∧ acceptDecode s = raise .badSize 2 0 s) ∨
    (s.rxlen ≠ 0 ∧ acceptDecode s = { clearRes s with more := false, pc := .verify }) := by
  unfold acceptDecode
  split
  · exact .inl ⟨‹_›, rfl⟩
  · exact .inr ⟨‹_›, rfl⟩

/-! ### The package -/

/-- An invariant that does not look at the host's moves and reads holds after every step if these keep it: the
sequencer's step, a dropped command, an accepted command, an illegal command, a host write to an idle block, hardware
reset. -/
theorem step_keeps (I : State → Prop)
    (hHost : ∀ s m r d, I s → I { s with moves := m, rdata := r, draws := d })
    (hSeq : ∀ s, I s → I (seqStep s))
    (hBusy : ∀ s, s.pc ≠ .idle → I s → I { s with ovr := true })
    (hAccept : ∀ i s, s.pc = .idle → I s → I (acceptOf i (accept i.code s)))
    (hIllegal : ∀ c s, s.pc = .idle → I s → I (raise .illegalCmd 0 0 (accept c s)))
    (hReg : ∀ r v s, s.pc = .idle → I s → I (storeReg r v s))
    (hTx : ∀ i b s, s.pc = .idle → I s → I (writeTx i b s))
    (hReset : ∀ s, I s → I (hwReset s)) :
    ∀ s t, I s → step s = .next t → I t := by
  intro s t hs h
  unfold step at h
  split at h
  · cases h; exact hSeq s hs
  · rename_i m rest _
    have h' : I { s with moves := rest } := hHost s rest s.rdata s.draws hs
    have idleOf : ∀ u : State, ¬busy u = true → u.pc = .idle := fun u hu => by simpa [busy] using hu
    have hDraw : ∀ v, I (returnDraw v { s with moves := rest }) := fun v => hHost s rest v (s.draws + 1) hs
    have hVal : ∀ v, I (returnVal v { s with moves := rest }) := fun v => hHost s rest v s.draws hs
    cases m with
    | wr n v =>
      simp only [hostMove, writeReg] at h
      split at h
      · unfold writeCmd at h
        split at h
        · rcases exec_cases h with ⟨hp, e⟩ | ⟨hp, e⟩
          · exact e ▸ hAccept _ _ hp h'
          · exact e ▸ hBusy _ hp h'
        · cases h
          rcases illegalCommand_cases (BitVec.ofNat 8 v) { s with moves := rest } with ⟨hp, e⟩ | ⟨hp, e⟩
          · exact e ▸ hIllegal _ _ hp h'
          · exact e ▸ hBusy _ hp h'
      · cases h
        split
        · exact h'
        · exact hReg _ _ _ (idleOf _ ‹_›) h'
      · cases h; exact h'
    | wrb sp i b =>
      simp only [hostMove] at h
      cases h
      unfold writeBuf
      split
      · split
        · exact h'
        · exact hTx _ _ _ (idleOf _ ‹_›) h'
      · exact h'
    | rd n => cases h; exact hVal _
    | rdb sp i =>
      simp only [hostMove] at h
      cases h
      unfold readBuf
      dsimp only
      split
      · exact hDraw _
      · split
        · exact hVal _
        · split
          · exact hVal _
          · exact hDraw _
    | rdRes k f =>
      simp only [hostMove] at h
      cases h
      unfold readRes
      dsimp only
      split
      · exact hDraw _
      · split
        · exact hVal _
        · exact hDraw _
    | wait =>
      simp only [hostMove] at h
      cases h
      split
      · exact hVal _
      · exact hSeq s hs
    | seq => cases h; exact hSeq _ h'
    | hwReset => cases h; exact hReset _ h'

end Sys2Proof.Machine
end

