-- ==== Sys2Proof/Laws/Scan.lean ====
section
/-! SUPPORT. Runs of the sequencer over port T: the acknowledgement wait and the long-frame scan, byte by byte. -/

namespace Sys2Proof.Machine

theorem seqRun_add (m n : Nat) (s : State) : seqRun (m + n) s = seqRun n (seqRun m s) := by
  induction m generalizing s with
  | zero => simp [seqRun]
  | succ m ih => rw [Nat.succ_add]; exact ih (seqStep s)

/-- An idle block stays as it is (10_state.md R24). -/
theorem seqRun_idle {s : State} (n : Nat) (h : s.pc = .idle) : seqRun n s = s := by
  induction n with
  | zero => rfl
  | succ n ih => rw [seqRun, seqStep_idle h]; exact ih

theorem armedReads_append (t : Nat) (a b : List Byte) : armedReads t (a ++ b) = armedReads t a ++ armedReads t b := by
  induction a with
  | nil => rfl
  | cons x a ih => simp [armedReads, ih]

/-! ### Two steps at a time: set the deadline, read -/

/-- The state after the deadline was set with success. -/
def armed (d : List CtlAnswer) (p : Pc) (s : State) : State :=
  { s with pc := p, deadlineAns := d, wire := s.wire ++ [.setDeadline s.tmo .ok] }

/-- The state after an answer was read. -/
def fed (a : ReadAnswer) (r : List ReadAnswer) (p : Pc) (s : State) : State :=
  { s with pc := p, readAns := r, wire := s.wire ++ [.read a] }

/-- The state after the frame in TXB was written with success. -/
def sent (w : List CtlAnswer) (p : Pc) (s : State) : State :=
  { s with pc := p, writeAns := w, wire := s.wire ++ [.write (txFrame s) .ok] }

/-- ACK_ARM, answered Ok (42_transport_io.md R172). -/
theorem seqStep_ackArm_ok {s : State} {d : List CtlAnswer} (hp : s.pc = .ackArm) (hd : s.deadlineAns = .ok :: d) :
    seqStep s = armed d .ackRd s := by
  rw [seqStep_ackArm hp, stepAckArm, tSetDeadline_of_cons _ _ hd]
  rfl

/-- ACK_RD, on a byte that is no acknowledgement (R173). -/
theorem seqStep_ackRd_noise {s : State} {b : Byte} {r : List ReadAnswer} (hp : s.pc = .ackRd)
    (hr : s.readAns = .byte b :: r) (hb : b ≠ 0xE5) :
    seqStep s = fed (.byte b) r .ackArm s := by
  rw [seqStep_ackRd hp, stepAckRd, tRead_of_cons _ hr]
  exact if_neg hb

/-- ACK_RD, on the acknowledgement (R173). -/
theorem seqStep_ackRd_ack {s : State} {r : List ReadAnswer} (hp : s.pc = .ackRd) (hr : s.readAns = .byte 0xE5 :: r) :
    seqStep s = ackSeen (fed (.byte 0xE5) r .ackRd s) := by
  rw [seqStep_ackRd hp, stepAckRd, tRead_of_cons _ hr, fed, ← hp]
  exact if_pos rfl

/-- LF_ARM, answered Ok (R176). -/
theorem seqStep_lfArm_ok {s : State} {d : List CtlAnswer} (hp : s.pc = .lfArm) (hd : s.deadlineAns = .ok :: d) :
    seqStep s = armed d .lfRd s := by
  rw [seqStep_lfArm hp, stepLfArm, tSetDeadline_of_cons _ _ hd]
  rfl

/-- LF_RD, on a byte (R177). -/
theorem seqStep_lfRd_byte {s : State} {b : Byte} {r : List ReadAnswer} (hp : s.pc = .lfRd)
    (hr : s.readAns = .byte b :: r) :
    seqStep s = scanByte b (fed (.byte b) r .lfRd s) := by
  rw [seqStep_lfRd hp, stepLfRd, tRead_of_cons _ hr, fed, ← hp]

/-- TX_CMD in a session or PAGECHG, answered Ok (R180). -/
theorem seqStep_txCmd_ok {s : State} {w : List CtlAnswer} (hp : s.pc = .txCmd) (hw : s.writeAns = .ok :: w)
    (ho : s.op ≠ Instr.send.code) :
    seqStep s = sent w .ackArm s := by
  rw [seqStep_txCmd hp, stepTxCmd, tWrite_of_cons _ _ hw]
  exact if_neg ho

/-- TX_REQ, answered Ok (R180). -/
theorem seqStep_txReq_ok {s : State} {w : List CtlAnswer} (hp : s.pc = .txReq) (hw : s.writeAns = .ok :: w) :
    seqStep s = sent w .lfArm s := by
  rw [seqStep_txReq hp, stepTxReq, tWrite_of_cons _ _ hw]
  rfl

/-- ACK_ARM and ACK_RD, on a byte that is no acknowledgement (R172, R173). -/
theorem ackPair {s : State} {b : Byte} {d : List CtlAnswer} {r : List ReadAnswer} (hp : s.pc = .ackArm)
    (hd : s.deadlineAns = .ok :: d) (hr : s.readAns = .byte b :: r) (hb : b ≠ 0xE5) :
    seqRun 2 s = fed (.byte b) r .ackArm (armed d .ackRd s) := by
  rw [seqRun, seqRun, seqRun, seqStep_ackArm_ok hp hd, seqStep_ackRd_noise (s := armed d .ackRd s) rfl hr hb]

/-- ACK_ARM and ACK_RD, on the acknowledgement (R172, R173). -/
theorem ackPair_ack {s : State} {d : List CtlAnswer} {r : List ReadAnswer} (hp : s.pc = .ackArm)
    (hd : s.deadlineAns = .ok :: d) (hr : s.readAns = .byte 0xE5 :: r) :
    seqRun 2 s = ackSeen (fed (.byte 0xE5) r .ackRd (armed d .ackRd s)) := by
  rw [seqRun, seqRun, seqRun, seqStep_ackArm_ok hp hd, seqStep_ackRd_ack (s := armed d .ackRd s) rfl hr]

/-- The state after the bytes `bs` were read, each after the deadline was set. -/
def afterReads (bs : List Byte) (d : List CtlAnswer) (r : List ReadAnswer) (s : State) : State :=
  { s with deadlineAns := d, readAns := r, wire := s.wire ++ armedReads s.tmo bs }

/-- The acknowledgement wait discards noise (R174). -/
theorem ackNoise (noise : List Byte) {s : State} {d : List CtlAnswer} {r : List ReadAnswer} (hp : s.pc = .ackArm)
    (hd : s.deadlineAns = List.replicate noise.length .ok ++ d) (hr : s.readAns = noise.map .byte ++ r)
    (hb : ∀ b ∈ noise, b ≠ 0xE5) :
    seqRun (2 * noise.length) s = afterReads noise d r s := by
  induction noise generalizing s with
  | nil =>
    simp only [List.length_nil, List.replicate_zero, List.nil_append, List.map_nil] at hd hr
    subst hd hr
    simp [seqRun, afterReads, armedReads]
  | cons b noise ih =>
    rw [show 2 * (b :: noise).length = 2 + 2 * noise.length by simp; omega, seqRun_add,
      ackPair hp (d := List.replicate noise.length .ok ++ d) (r := noise.map .byte ++ r) (b := b)
        (by simpa [List.replicate_succ] using hd) (by simpa using hr) (hb b (by simp)), ih rfl rfl rfl fun x hx => hb x (by simp [hx])]
    simp [afterReads, fed, armed, armedReads, hp]

/-- LF_ARM and LF_RD, on a byte (R176, R177). -/
theorem scanPair {s : State} {b : Byte} {d : List CtlAnswer} {r : List ReadAnswer} (hp : s.pc = .lfArm)
    (hd : s.deadlineAns = .ok :: d) (hr : s.readAns = .byte b :: r) :
    seqRun 2 s = scanByte b (fed (.byte b) r .lfRd (armed d .lfRd s)) := by
  rw [seqRun, seqRun, seqRun, seqStep_lfArm_ok hp hd, seqStep_lfRd_byte (s := armed d .lfRd s) rfl hr]

/-! ### The start pattern in a growing stream (R178) -/

/-- A start pattern lies inside the stream. -/
theorem startAt_lt {bs : List Byte} {g : Nat} (h : startAt bs g) : g + 3 < bs.length := by
  have := h.2.1
  rw [List.getElem?_eq_some_iff] at this
  exact this.1

/-- A byte at the end changes no start pattern that was there. -/
theorem startAt_snoc {bs : List Byte} {g : Nat} (b : Byte) (h : g + 3 < bs.length) :
    startAt (bs ++ [b]) g ↔ startAt bs g := by
  unfold startAt
  rw [List.getElem?_append_left (by omega), List.getElem?_append_left (by omega), List.getElem?_append_left (by omega),
    List.getElem?_append_left (by omega)]

/-- The first start pattern stays first. -/
theorem firstStart_snoc {bs : List Byte} {g : Nat} (b : Byte) (h : firstStart bs g) : firstStart (bs ++ [b]) g := by
  have hg := startAt_lt h.1
  refine ⟨(startAt_snoc b hg).2 h.1, fun k hk hs => h.2 k hk ((startAt_snoc b (by omega)).1 hs)⟩

/-- There is one first start pattern. -/
theorem firstStart_unique {bs : List Byte} {g h : Nat} (hg : firstStart bs g) (hh : firstStart bs h) : g = h := by
  rcases Nat.lt_trichotomy g h with hlt | heq | hlt
  · exact absurd hg.1 (hh.2 g hlt)
  · exact heq
  · exact absurd hh.1 (hg.2 h hlt)

/-! ### The scanner after a stream without a complete frame -/

/-- The scanner's registers after it took the bytes `bs`, and they hold no complete frame: the window (10_state.md R36)
while no start pattern has come, the bytes from the first one on after that. -/
def ScanAt (bs : List Byte) (s : State) : Prop :=
  s.ncnt.toNat = bs.length ∧
  ((s.phase = false ∧ (∀ g, ¬startAt bs g) ∧ s.rxlen.toNat = min bs.length 4 ∧
      rxBytes s 0 (min bs.length 4) = bs.drop (bs.length - 4)) ∨
   ∃ g, s.phase = true ∧ firstStart bs g ∧ s.llen = bs.getD (g + 1) 0 ∧ s.rxlen.toNat = bs.length - g ∧
      rxBytes s 0 (bs.length - g) = bs.drop g)

/-- The scan starts with nothing (R175). -/
theorem scanAt_start {s : State} (hn : s.ncnt = 0) (hr : s.rxlen = 0) (hp : s.phase = false) : ScanAt [] s := by
  refine ⟨by simp [hn], .inl ⟨hp, fun g h => ?_, by simp [hr], rfl⟩⟩
  simpa using h.1

/-- The bytes of RXB, one by one. -/
theorem rxBytes_eq_iff {s : State} {k : Nat} {l : List Byte} :
    rxBytes s 0 k = l ↔ l.length = k ∧ ∀ j < k, l[j]? = some (rxByte s j) := by
  constructor
  · rintro rfl
    exact ⟨by simp, fun j hj => by rw [rxBytes, readFrom_getElem?, if_pos hj, Nat.zero_add]⟩
  · rintro ⟨hl, h⟩
    apply List.ext_getElem?
    intro j
    rw [rxBytes, readFrom_getElem?]
    split
    · simpa using (h j ‹_›).symm
    · rw [List.getElem?_eq_none (by omega)]

/-- Every RXB byte after the window slides. -/
theorem rxByte_slideRx (b : Byte) (s : State) (j : Nat) :
    rxByte (slideRx b s) j = if j < 3 then rxByte s (j + 1) else if j = 3 then b else rxByte s j := by
  simp only [slideRx, rxByte_writeRx]
  match j with
  | 0 => simp
  | 1 => simp
  | 2 => simp
  | 3 => simp
  | j + 4 => simp

/-- Every RXB byte after one is stored at the end. -/
theorem rxByte_pushRx (b : Byte) (s : State) (j : Nat) (h : s.rxlen.toNat < 257) :
    rxByte (pushRx b s) j = if j = s.rxlen.toNat then b else rxByte s j := by
  have := rxByte_writeRx s s.rxlen.toNat j b
  simp only [h, and_true] at this
  exact this

/-- What a step of the scanner leaves alone. -/
def SameButScanner (s u : State) : Prop :=
  u = { s with ncnt := u.ncnt, rxb := u.rxb, rxlen := u.rxlen, llen := u.llen, phase := u.phase }

theorem sameButScanner_searchByte (b : Byte) (s : State) : SameButScanner s (searchByte b (countByte s)) := by
  unfold SameButScanner searchByte pushRx slideRx writeRx countByte
  dsimp only
  repeat' split
  all_goals rfl

theorem sameButScanner_pushRx (b : Byte) (s : State) : SameButScanner s (pushRx b (countByte s)) := by
  unfold SameButScanner pushRx writeRx countByte
  dsimp only
  split <;> rfl

/-- Searching, byte by byte: the window after a byte (10_state.md R36). -/
theorem window_snoc {bs : List Byte} {b : Byte} {s u : State} (hr : s.rxlen.toNat = min bs.length 4)
    (hw : rxBytes s 0 (min bs.length 4) = bs.drop (bs.length - 4))
    (hu : u = if s.rxlen.toNat < 4 then pushRx b s else slideRx b s) :
    u.rxlen.toNat = min (bs ++ [b]).length 4 ∧
    rxBytes u 0 (min (bs ++ [b]).length 4) = (bs ++ [b]).drop ((bs ++ [b]).length - 4) := by
  rw [rxBytes_eq_iff] at hw ⊢
  obtain ⟨hwl, hw⟩ := hw
  simp only [List.length_append, List.length_cons, List.length_nil, Nat.zero_add, List.length_drop] at hwl ⊢
  split at hu
  · have hb : bs.length < 4 := by omega
    have e : min bs.length 4 = bs.length := by omega
    rw [e] at hr hw
    subst hu
    refine ⟨?_, by omega, fun j hj => ?_⟩
    · simp only [pushRx_rxlen, BitVec.toNat_add, hr]
      simp; omega
    · rw [rxByte_pushRx _ _ _ (by omega), show bs.length + 1 - 4 = 0 by omega, List.drop_zero, hr]
      rcases Nat.lt_or_ge j bs.length with h | h
      · have := hw j h
        rw [show bs.length - 4 = 0 by omega, List.drop_zero] at this
        rw [List.getElem?_append_left h, this, if_neg (by omega)]
      · rw [show j = bs.length by omega]; simp
  · have hb : 4 ≤ bs.length := by omega
    have e : min bs.length 4 = 4 := by omega
    rw [e] at hr hw
    subst hu
    refine ⟨by rw [slideRx_rxlen]; omega, by omega, fun j hj => ?_⟩
    rw [rxByte_slideRx, List.getElem?_drop]
    rcases Nat.lt_or_ge j 3 with h | h
    · have := hw (j + 1) (by omega)
      rw [List.getElem?_drop] at this
      rw [if_pos h, List.getElem?_append_left (by omega), ← this]
      congr 1; omega
    · rw [if_neg (by omega), if_pos (by omega), show bs.length + 1 - 4 + j = bs.length by omega]
      simp

/-- The window holds the start pattern exactly if the last four bytes of the stream are one (R177). -/
theorem startMatched_iff {bs : List Byte} {u : State} (hr : u.rxlen.toNat = min bs.length 4)
    (hw : rxBytes u 0 (min bs.length 4) = bs.drop (bs.length - 4)) :
    startMatched u = true ↔ 4 ≤ bs.length ∧ startAt bs (bs.length - 4) := by
  rw [rxBytes_eq_iff] at hw
  simp only [startMatched, Bool.and_eq_true, decide_eq_true_eq, beq_iff_eq]
  constructor
  · rintro ⟨⟨⟨h4, h0⟩, h3⟩, h12⟩
    have hb : 4 ≤ bs.length := by omega
    have e := hw.2
    rw [show min bs.length 4 = 4 by omega] at e
    have e0 := e 0 (by omega); have e1 := e 1 (by omega); have e2 := e 2 (by omega); have e3 := e 3 (by omega)
    rw [List.getElem?_drop] at e0 e1 e2 e3
    exact ⟨hb, by simpa [h0] using e0, by simpa [h3] using e3, by rw [e1, e2, h12]⟩
  · rintro ⟨hb, h0, h3, h12⟩
    have e := hw.2
    rw [show min bs.length 4 = 4 by omega] at e
    have e0 := e 0 (by omega); have e1 := e 1 (by omega); have e2 := e 2 (by omega); have e3 := e 3 (by omega)
    rw [List.getElem?_drop] at e0 e1 e2 e3
    rw [Nat.add_zero, h0] at e0
    rw [h3] at e3
    rw [e1, e2] at h12
    simp only [Option.some.injEq] at e0 e3 h12
    exact ⟨⟨⟨by omega, e0.symm⟩, e3.symm⟩, h12⟩

/-- One byte of the scan (R177, R178): the scanner's registers hold the longer stream, and the frame is complete exactly
if the longer stream ends one. -/
theorem scanByte_scanAt {bs : List Byte} {b : Byte} {s : State} (h : ScanAt bs s) (hl : bs.length ≤ 256) :
    ∃ u, ScanAt (bs ++ [b]) u ∧ SameButScanner s u ∧
      ((∃ g, frameAfter (bs ++ [b]) g) → scanByte b s = lfComplete u) ∧
      ((∀ g, ¬frameAfter (bs ++ [b]) g) → scanByte b s = lfIncomplete u) := by
  obtain ⟨hn, ⟨hp, hns, hr, hw⟩ | ⟨g, hp, hg, hL, hr, hw⟩⟩ := h
  · refine ⟨searchByte b (countByte s), ?_, sameButScanner_searchByte b s, ?_, ?_⟩
    · obtain ⟨v, hv⟩ : ∃ v, v = if (countByte s).rxlen.toNat < 4 then pushRx b (countByte s) else slideRx b (countByte s) :=
        ⟨_, rfl⟩
      have hw' : rxBytes (countByte s) 0 (min bs.length 4) = bs.drop (bs.length - 4) := hw
      obtain ⟨hr1, hw1⟩ := window_snoc (by simpa using hr) hw' hv
      have hm := startMatched_iff hr1 hw1
      have hnv : v.ncnt.toNat = (bs ++ [b]).length := by
        have : v.ncnt = s.ncnt + 1 := by rw [hv]; split <;> simp
        rw [this, BitVec.toNat_add, hn]; simp; omega
      have hpv : v.phase = false := by rw [hv]; split <;> simp [hp]
      have e : searchByte b (countByte s) = if startMatched v then { v with llen := rxByte v 1, phase := true } else v := by
        rw [hv]; rfl
      have hlen : (bs ++ [b]).length = bs.length + 1 := by simp
      have old : ∀ g, g + 3 < bs.length → ¬startAt (bs ++ [b]) g := fun g hg hs => hns g ((startAt_snoc b hg).1 hs)
      rw [e]
      split
      · rename_i hs
        obtain ⟨h4, hs⟩ := hm.1 hs
        refine ⟨hnv, .inr ⟨(bs ++ [b]).length - 4, rfl, ⟨hs, fun k hk => old k (by omega)⟩, ?_, ?_, ?_⟩⟩
        · have := (rxBytes_eq_iff.1 hw1).2 1 (by omega)
          rw [List.getElem?_drop] at this
          simp only [List.getD, this, Option.getD_some]
        · simp only; omega
        · rw [show (bs ++ [b]).length - ((bs ++ [b]).length - 4) = min (bs ++ [b]).length 4 by omega]
          exact hw1
      · rename_i hs
        refine ⟨hnv, .inl ⟨hpv, fun g hg => ?_, hr1, hw1⟩⟩
        have := startAt_lt hg
        rcases Nat.lt_or_ge (g + 3) bs.length with hlt | hge
        · exact old g hlt hg
        · exact hs (hm.2 ⟨by omega, by rwa [show (bs ++ [b]).length - 4 = g by omega]⟩)
    · rintro ⟨g, ⟨hg, _⟩, hlen, _⟩
      exfalso
      have := startAt_lt hg
      simp only [List.length_append, List.length_cons, List.length_nil] at this hlen
      exact hns g ((startAt_snoc b (by omega)).1 hg)
    · intro _
      simp [scanByte, hp]
  · have hg4 := startAt_lt hg.1
    obtain ⟨hwl, hw⟩ := rxBytes_eq_iff.1 hw
    have hlen : (bs ++ [b]).length = bs.length + 1 := by simp
    have hr1 : (pushRx b (countByte s)).rxlen.toNat = bs.length + 1 - g := by
      simp only [pushRx_rxlen, countByte_rxlen, BitVec.toNat_add, hr]
      simp; omega
    have hL1 : (bs ++ [b]).getD (g + 1) 0 = s.llen := by
      rw [hL]; simp only [List.getD]; rw [List.getElem?_append_left (by omega)]
    have hfc : frameComplete b (pushRx b (countByte s)) = true ↔ frameAfter (bs ++ [b]) g := by
      simp only [frameComplete, Bool.and_eq_true, decide_eq_true_eq, beq_iff_eq, hr1, pushRx_llen, countByte_llen]
      constructor
      · rintro ⟨h1, h2⟩
        exact ⟨firstStart_snoc b hg, by rw [hlen, hL1]; omega, by simp [h2]⟩
      · rintro ⟨-, h1, h2⟩
        rw [hlen, hL1] at h1
        exact ⟨by omega, by simpa using h2⟩
    refine ⟨pushRx b (countByte s), ⟨?_, .inr ⟨g, by simp [hp], firstStart_snoc b hg, ?_, by omega, ?_⟩⟩,
      sameButScanner_pushRx b s, ?_, ?_⟩
    · simp only [pushRx_ncnt, countByte_ncnt, BitVec.toNat_add, hn]
      simp; omega
    · rw [hL1]; simp
    · rw [rxBytes_eq_iff, hlen, List.length_drop, hlen]
      refine ⟨rfl, fun j hj => ?_⟩
      rw [rxByte_pushRx _ _ _ (by simp only [countByte_rxlen]; omega), List.getElem?_drop, countByte_rxlen, hr]
      rcases Nat.lt_or_ge j (bs.length - g) with h | h
      · have := hw j h
        rw [List.getElem?_drop] at this
        rw [List.getElem?_append_left (by omega), this, if_neg (by omega)]
        rfl
      · rw [if_pos (by omega), show g + j = bs.length by omega]
        simp
    · rintro ⟨k, hk⟩
      have := firstStart_unique hk.1 (firstStart_snoc b hg)
      subst this
      simp [scanByte, hp, hfc.2 hk]
    · intro hk
      have : frameComplete b (pushRx b (countByte s)) = false := by
        rw [Bool.eq_false_iff]
        exact fun hc => hk g (hfc.1 hc)
      simp [scanByte, hp, this]

/-- The state after the scan of `bs`: the scanner's registers of `u`, the answers taken, the transactions logged. -/
def afterScan (bs : List Byte) (d : List CtlAnswer) (r : List ReadAnswer) (u s : State) : State :=
  { afterReads bs d r s with ncnt := u.ncnt, rxb := u.rxb, rxlen := u.rxlen, llen := u.llen, phase := u.phase }

/-- The scan goes on over any bytes that end no frame, up to the bound (R177, R178). -/
theorem scanRun (bs : List Byte) {done : List Byte} {s : State} {d : List CtlAnswer} {r : List ReadAnswer}
    (hp : s.pc = .lfArm) (hs : ScanAt done s) (hl : done.length + bs.length ≤ 256)
    (hn : ∀ n, done.length < n → n ≤ (done ++ bs).length → ∀ g, ¬frameAfter ((done ++ bs).take n) g)
    (hd : s.deadlineAns = List.replicate bs.length .ok ++ d) (hr : s.readAns = bs.map .byte ++ r) :
    ∃ u, seqRun (2 * bs.length) s = afterScan bs d r u s ∧ ScanAt (done ++ bs) (afterScan bs d r u s) := by
  induction bs generalizing done s with
  | nil =>
    simp only [List.length_nil, List.replicate_zero, List.nil_append, List.map_nil] at hd hr
    subst hd hr
    exact ⟨s, by simp [seqRun, afterScan, afterReads, armedReads], by simpa [afterScan, afterReads, armedReads] using hs⟩
  | cons b bs ih =>
    simp only [List.length_cons] at hl
    have hd' : s.deadlineAns = .ok :: (List.replicate bs.length .ok ++ d) := by simpa [List.replicate_succ] using hd
    have hr' : s.readAns = .byte b :: (bs.map .byte ++ r) := by simpa using hr
    obtain ⟨u, hu, hsame, -, hinc⟩ := scanByte_scanAt (b := b)
      (s := fed (.byte b) (bs.map .byte ++ r) .lfRd (armed (List.replicate bs.length .ok ++ d) .lfRd s)) hs (by omega)
    have hinc := hinc (by
      have := hn (done.length + 1) (by omega) (by simp)
      rwa [show List.take (done.length + 1) (done ++ b :: bs) = done ++ [b] by rw [List.take_append]; simp] at this)
    have hle : u.ncnt.toNat ≤ 256 := by rw [hu.1]; simp; omega
    rcases lfIncomplete_cases u with ⟨hc, _⟩ | ⟨_, e⟩
    · omega
    have e1 : { u with pc := .lfArm } =
        afterScan [b] (List.replicate bs.length .ok ++ d) (bs.map .byte ++ r) u s := by
      rw [hsame]; simp [afterScan, afterReads, fed, armed, armedReads, hp]
    have hu' : ScanAt (done ++ [b]) { u with pc := .lfArm } := hu
    rw [e, e1] at hinc
    rw [e1] at hu'
    obtain ⟨v, hv, hv'⟩ := ih (done := done ++ [b])
      (s := afterScan [b] (List.replicate bs.length .ok ++ d) (bs.map .byte ++ r) u s) hp hu' (by simp; omega)
      (fun n h1 h2 => by
        have := hn n (by simp at h1; omega) (by simpa using h2)
        simpa using this) rfl rfl
    refine ⟨v, ?_, ?_⟩
    · rw [show 2 * (b :: bs).length = 2 + 2 * bs.length by simp; omega, seqRun_add, scanPair hp hd' hr', hinc, hv]
      simp [afterScan, afterReads, armedReads]
    · simpa [afterScan, afterReads, armedReads] using hv'

/-- No proper beginning of a stream that ends a frame ends one (R178). -/
theorem frameAfter_take {bs : List Byte} {g n : Nat} (h : frameAfter bs g) (hn : n < bs.length) (k : Nat) :
    ¬frameAfter (bs.take n) k := by
  rintro ⟨hk, hl, -⟩
  have hstart := startAt_lt hk.1
  rw [List.length_take] at hl hstart
  have hget : ∀ i, i < n → (bs.take n)[i]? = bs[i]? := fun i hi => by simp [hi]
  have hk' : firstStart bs k := by
    refine ⟨?_, fun j hj hs => hk.2 j hj ?_⟩
    · have := hk.1
      unfold startAt at this ⊢
      rwa [hget _ (by omega), hget _ (by omega), hget _ (by omega), hget _ (by omega)] at this
    · unfold startAt at hs ⊢
      rwa [hget _ (by omega), hget _ (by omega), hget _ (by omega), hget _ (by omega)]
  obtain rfl := firstStart_unique hk' h.1
  have hL : (bs.take n).getD (k + 1) 0 = bs.getD (k + 1) 0 := by
    simp only [List.getD]
    rw [hget _ (by omega)]
  have := h.2.1
  rw [hL] at hl
  omega

end Sys2Proof.Machine
end

