-- ==== Sys2Proof/Tests/Slice0.lean ====
section
/-! SUPPORT. Tests: decoding and well-formedness, one or two steps of each command with results from the spec's own
examples and vectors (95_test_vectors.md and the example of each rule), and a witness for the hypotheses of every
statement. -/

namespace Sys2Proof.Machine.Tests

/-! ### Decoding: the codes of 30_encoding.md R111 written out -/

theorem test_decode_setcs : decode [0b00000001] = .ok (.setcs, []) := by decide
theorem test_decode_setlen : decode [0b00000010] = .ok (.setlen, []) := by decide
theorem test_decode_getfcb : decode [0b00000011] = .ok (.getfcb, []) := by decide
theorem test_decode_setfcb : decode [0b00000100] = .ok (.setfcb, []) := by decide
theorem test_decode_bldNke : decode [0b00010000] = .ok (.bldNke, []) := by decide
theorem test_decode_bldApprst : decode [0b00010001] = .ok (.bldApprst, []) := by decide
theorem test_decode_bldReq : decode [0b00010010] = .ok (.bldReq, []) := by decide
theorem test_decode_bldPage : decode [0b00010011] = .ok (.bldPage, []) := by decide
theorem test_decode_bldSetsec : decode [0b00010100] = .ok (.bldSetsec, []) := by decide
theorem test_decode_bldSetpri : decode [0b00010101] = .ok (.bldSetpri, []) := by decide
theorem test_decode_send : decode [0b00100000] = .ok (.send, []) := by decide
theorem test_decode_rdack : decode [0b00100001] = .ok (.rdack, []) := by decide
theorem test_decode_rdlong : decode [0b00100010] = .ok (.rdlong, []) := by decide
theorem test_decode_decode : decode [0b00110000] = .ok (.decode, []) := by decide
theorem test_decode_rd1 : decode [0b01000000] = .ok (.rd1, []) := by decide
theorem test_decode_rdall : decode [0b01000001] = .ok (.rdall, []) := by decide
theorem test_decode_pagechg : decode [0b01000010] = .ok (.pagechg, []) := by decide
theorem test_decode_illegal :
    decode [0x00] = .error (.illegalCmd 0x00) ∧ decode [0x05] = .error (.illegalCmd 0x05) ∧
    decode [0x43] = .error (.illegalCmd 0x43) ∧ decode [0xFF] = .error (.illegalCmd 0xFF) ∧ decode [] = .error .noCode := by
  decide
theorem test_opcode_rows_do_not_overlap :
    opcodeTable.Pairwise fun r q => r.code &&& (r.mask &&& q.mask) ≠ q.code &&& (r.mask &&& q.mask) := by decide
theorem test_decodeTableWord : decodeTableWord 8 0x41 = some .rdall ∧ decodeTableWord 8 0x16 = none := by decide
theorem test_withFetchWord :
    step (State.reset.withFetchWord 8 0x22) = exec .rdlong State.reset := rfl

/-! ### Well-formedness: one ill-formed move for each check (R30, R33, R61, R62) -/

/-- A move is well formed for a block with the spec's default parameters. -/
def wellFormed (m : HostMove) : Bool := m.wf Config.defaults

theorem test_wf_moves : wellFormed (wr8 .ADDR 5) ∧ wellFormed (wr .TMO 0xFFFFFFFF) ∧ wellFormed (wr .TXLEN 261) ∧
    wellFormed (cmd .rd1) ∧ wellFormed (.wrb .TXB 260 1) ∧ wellFormed (rd .RESCNT) ∧ wellFormed (.rdb .RXB 256) := by decide
theorem test_wf_refuses_read_only : wellFormed (wr .STATUS 0) = false := by decide
theorem test_wf_refuses_reserved : wellFormed (.wr 0x0F 0) = false ∧ wellFormed (.rd 0x16) = false := by decide
theorem test_wf_refuses_wide_value : wellFormed (wr .ADDR 0x100) = false ∧ wellFormed (wr .TXKIND 2) = false := by decide
theorem test_wf_refuses_long_txlen : wellFormed (wr .TXLEN 262) = false := by decide
theorem test_wf_refuses_rxb_write : wellFormed (.wrb .RXB 0 0) = false := by decide
theorem test_wf_refuses_index : wellFormed (.wrb .TXB 261 0) = false ∧ wellFormed (.rdb .RXB 257) = false ∧
    wellFormed (.rdb .TXB 261) = false := by decide

/-! ### One step of each command -/

/-- The next state, for outcomes of commands. -/
def after : Host.Outcome State Fault Refusal → State
  | .next s => s
  | .refused _ => State.reset
  | .fault f => nomatch f

/-- An idle block with a frame in TXB. -/
def withTx (k : BitVec 1) (bs : List Byte) : State :=
  { writeTxs 0 bs State.reset with txkind := k, txlen := BitVec.ofNat 9 bs.length }

/-- An idle block with bytes in RXB, as a finished scan of them leaves it. -/
def withRx (bs : List Byte) : State :=
  { State.reset with
    rxb := bs.zipIdx.map fun p => (p.2, p.1), rxlen := BitVec.ofNat 9 bs.length, llen := bs.getD 1 0,
    ncnt := BitVec.ofNat 9 bs.length, phase := true }

/-- The application reset frame for address 5 with an empty checksum (R130, example). -/
def appFrame : List Byte := [0x68, 0x03, 0x03, 0x68, 0x73, 0x05, 0x50, 0x00, 0x16]

/-- The spec's sample response (R179, example). -/
def sample : List Byte := [0x68, 0x03, 0x03, 0x68, 0x08, 0x05, 0x72, 0x7F, 0x16]

theorem test_setcs : txFrame (after (exec .setcs (withTx 1 appFrame))) =
    [0x68, 0x03, 0x03, 0x68, 0x73, 0x05, 0x50, 0xC8, 0x16] := by decide
theorem test_setcs_wraps_to_zero : txByte (after (exec .setcs (withTx 0 [0x10, 0x40, 0xC0, 0xFF, 0x16]))) 3 = 0 := by decide
theorem test_setlen : txFrame (after (exec .setlen (withTx 1 [0x68, 0, 0, 0x68, 0x73, 5, 0x51, 1, 0x7A, 9, 0, 0x16]))) =
    [0x68, 0x06, 0x06, 0x68, 0x73, 5, 0x51, 1, 0x7A, 9, 0, 0x16] := by decide
theorem test_setlen_short_raises : status (after (exec .setlen (withTx 0 [0x10, 0x40, 5, 0x45, 0x16]))) = 0x06 ∧
    (after (exec .setlen (withTx 0 [0x10, 0x40, 5, 0x45, 0x16]))).err = 5 := by decide
theorem test_getfcb : (after (exec .getfcb (withTx 1 [0x68, 3, 3, 0x68, 0x73, 5, 0x51, 0xC9, 0x16]))).rval = 1 := by decide
theorem test_getfcb_clear : (after (exec .getfcb (withTx 0 [0x10, 0x40, 5, 0x45, 0x16]))).rval = 0 := by decide
theorem test_setfcb : txFrame (after (exec .setfcb (withTx 1 [0x68, 3, 3, 0x68, 0x53, 5, 0x51, 0xA9, 0x16]))) =
    [0x68, 3, 3, 0x68, 0x73, 5, 0x51, 0xA9, 0x16] := by decide
theorem test_setfcb_wrong_size : (after (exec .setfcb State.reset)).err = 5 ∧ (after (exec .setfcb State.reset)).errsub = 1 := by
  decide
theorem test_bldNke : txFrame (after (exec .bldNke { State.reset with addr := 0x05 })) = [0x10, 0x40, 0x05, 0x45, 0x16] := by
  decide
theorem test_bldNke_broadcast : txByte (after (exec .bldNke { State.reset with addr := 0xFF })) 3 = 0x3F := by decide
theorem test_bldApprst : txFrame (after (exec .bldApprst { State.reset with addr := 0x05 })) =
    [0x68, 0x03, 0x03, 0x68, 0x73, 0x05, 0x50, 0xC8, 0x16] := by decide
theorem test_bldReq : txFrame (after (exec .bldReq { State.reset with addr := 0x05 })) =
    [0x68, 0x03, 0x03, 0x68, 0x53, 0x05, 0x51, 0xA9, 0x16] := by decide
theorem test_bldPage : txFrame (after (exec .bldPage { State.reset with addr := 0x05, arg := 0x03 })) =
    [0x68, 0x08, 0x08, 0x68, 0x73, 0x05, 0x51, 0x0F, 0x02, 0x78, 0x03, 0x00, 0x55, 0x16] := by decide
theorem test_bldSetsec :
    txFrame (after (exec .bldSetsec
      { State.reset with sec0 := 0x78, sec1 := 0x56, sec2 := 0x34, sec3 := 0x12, arg := 0x07 })) =
    [0x68, 0x0E, 0x0E, 0x68, 0x73, 0xFD, 0x51, 0x78, 0x56, 0x34, 0x12, 0xFF, 0xFF, 0xFF, 0xFF, 0x01, 0x7A, 0x07, 0x53,
      0x16] := by decide
theorem test_bldSetpri : txFrame (after (exec .bldSetpri { State.reset with addr := 0x05, arg := 0x09 })) =
    [0x68, 0x06, 0x06, 0x68, 0x73, 0x05, 0x51, 0x01, 0x7A, 0x09, 0x4D, 0x16] := by decide
theorem test_send_recomputes : (after (exec .send (withTx 1 appFrame))).pc = .txCmd ∧
    txByte (after (exec .send (withTx 1 appFrame))) 7 = 0xC8 := by decide
theorem test_rdack : (after (exec .rdack State.reset)).pc = .ackArm ∧ (after (exec .rdack State.reset)).op = 0x21 := by decide
theorem test_rdlong : (after (exec .rdlong (withRx sample))).pc = .lfArm ∧
    (after (exec .rdlong (withRx sample))).rxlen = 0 ∧ (after (exec .rdlong (withRx sample))).phase = false := by decide
theorem test_decode_empty : (after (exec .decode State.reset)).err = 5 ∧ (after (exec .decode State.reset)).errsub = 2 := by
  decide
theorem test_decode_accepts : (after (exec .decode (withRx sample))).pc = .verify ∧
    (seqStep (after (exec .decode (withRx sample)))).pc = .decode := by decide
theorem test_rd1 : (after (exec .rd1 { State.reset with addr := 0x05 })).pc = .txCmd ∧
    txFrame (after (exec .rd1 { State.reset with addr := 0x05 })) = [0x10, 0x40, 0x05, 0x45, 0x16] := by decide
theorem test_rdall : (after (exec .rdall { State.reset with rescnt := 3 })).rescnt = 0 := by decide
theorem test_pagechg : txFrame (after (exec .pagechg { State.reset with addr := 0x05, arg := 0x03 })) =
    [0x68, 0x08, 0x08, 0x68, 0x73, 0x05, 0x51, 0x0F, 0x02, 0x78, 0x03, 0x00, 0x55, 0x16] := by decide

/-! ### Sequencer steps and host accesses -/

/-- A state in a sequencer state, running a command. -/
def busyIn (p : Pc) (c : Byte) : State := { State.reset with pc := p, op := c }

theorem test_verify_checksum : (seqStep { withRx (sample.set 7 0x7E) with pc := .verify, op := 0x30 }).errsub = 1 := by decide
theorem test_verify_truncated :
    (seqStep { withRx [0x68, 0x02, 0x02, 0x68, 0x08, 0x05, 0x0D, 0x16] with pc := .verify, op := 0x30 }).errsub = 2 := by decide
theorem test_req_build_fcb : txFrame (seqStep { busyIn .reqBuild 0x41 with addr := 0x05, fcbt := true }) =
    [0x68, 0x03, 0x03, 0x68, 0x73, 0x05, 0x51, 0xC9, 0x16] := by decide
theorem test_txlen_clamp : (after (step { State.reset with moves := [wr .TXLEN 300] })).txlen = 261 := by decide
theorem test_reserved_reads_zero : (after (step { State.reset with moves := [.rd 0x0F] })).rdata = .num 0 := by decide
theorem test_hw_reset_ends_command : (after (step { busyIn .lfRd 0x22 with moves := [.hwReset] })).pc = .idle := by decide

/-- A block with registers TMO of 16 and ERRENV of 12 bits (R6: TMO_W and ENV_W are parameters). -/
def narrow (s : State) : State := { s with params := { Config.defaults with tmoW := 16, envW := 12 } }

theorem test_tmo_is_cut_to_its_width :
    (after (step { narrow State.reset with moves := [wr .TMO 0x12345] })).tmo = 0x2345 ∧
    (after (step { State.reset with moves := [wr .TMO 0x12345] })).tmo = 0x12345 := by decide
theorem test_errenv_is_cut_to_its_width :
    (seqStep (narrow { busyIn .txCmd 0x20 with writeAns := [.err 0x1FFF] })).errenv = 0xFFF ∧
    (seqStep { busyIn .txCmd 0x20 with writeAns := [.err 0x1FFF] }).errenv = 0x1FFF := by decide

/-- R24: the code of the last sequencer state, as a host read of PC returns it. -/
theorem test_pc_reads_its_code :
    (after (step { busyIn .decode 0x30 with moves := [rd .PC] })).rdata = .num 10 ∧
    (after (step { busyIn .ackRd 0x21 with moves := [rd .PC] })).rdata = .num 3 := by decide

/-- R116: `wait` stays while DONE is 0, and then reads STATUS. -/
theorem test_wait :
    (after (step { busyIn .lfArm 0x22 with deadlineAns := [.ok], moves := [.wait] })).moves = [.wait] ∧
    (after (step { busyIn .lfArm 0x22 with deadlineAns := [.ok], moves := [.wait] })).pc = .lfRd ∧
    (after (step { State.reset with done := true, moves := [.wait] })).moves = [] ∧
    (after (step { State.reset with done := true, moves := [.wait] })).rdata = .num 2 := by decide

/-- R32: RESCNT is as wide as RES_CAP needs, 32 bits without a bound. -/
theorem test_rescnt_width : rescntWidth { Config.defaults with resCap := some 255 } = 8 ∧
    rescntWidth { Config.defaults with resCap := some 256 } = 9 ∧
    rescntWidth { Config.defaults with resCap := some (2 ^ 40) } = 41 ∧ rescntWidth Config.defaults = 32 := by decide
theorem test_rescnt_counts_past_32_bits :
    rescntSucc { State.reset with params := { Config.defaults with resCap := some (2 ^ 40) }, rescnt := 2 ^ 32 - 1 } =
      2 ^ 32 := by decide

/-- R117, the two read-outs: the reads of ERR, RESCNT and RES after the wait. -/
theorem test_pseudo_read_out : Pseudo.readSingleFrame 0x05 100 = [HostMove.wr 0x08 5, .wr 0x0E 100, .wr 0x00 0x40, .wait,
      .rd 0x02, .rd 0x15, .rdRes 0 .len, .rdRes 0 .frame, .rdRes 0 .record, .rdRes 0 .more] ∧
    (Pseudo.readAllFrames 0x05 100 2).drop 10 =
      [HostMove.rdRes 1 .len, .rdRes 1 .frame, .rdRes 1 .record, .rdRes 1 .more] := by decide

/-! ### Witnesses: concrete states and operands that meet the hypotheses of each statement -/

/-- IllegalCodeRaisesIllegalCmd, at the ends of the ranges. -/
theorem test_witness_illegal_code : (0x05 : Byte) ≤ 0x05 ∧ (0x1F : Byte) ≤ 0x1F ∧ (0x43 : Byte) ≤ 0xFF ∧
    ({ State.reset with moves := [HostMove.wr 0x00 0x05] } : State).pc = .idle := by decide

/-- StepRunsTheDecodedCommand: a command write, no move, `seq`, `wait` before and after DONE, a placed word. -/
theorem test_witness_step : decodeCode (BitVec.ofNat 8 0x40) = some .rd1 ∧ State.reset.moves = [] ∧
    ({ busyIn .lfArm 0x22 with moves := [.seq, .seq] } : State).moves = .seq :: [.seq] ∧
    ({ busyIn .lfArm 0x22 with moves := [.wait] } : State).moves = .wait :: [] ∧ (busyIn .lfArm 0x22).done = false ∧
    ({ State.reset with done := true, moves := [.wait] } : State).done = true ∧
    decodeTableWord 8 0x42 = some .pagechg := by decide

/-- CommandWhileBusyOnlySetsOvr, HostWritesWhileBusyAreIgnored: a busy block. -/
theorem test_witness_busy : (busyIn .lfRd 0x22).pc ≠ .idle ∧ (0x0E : Byte) ≠ 0x00 := by decide

/-- FrameGeometry, ChecksumIsTheSumMod256, SetcsWritesTheChecksum, SetlenWritesBothLengths, GetfcbReadsBitFive,
SetfcbSetsBitFive, SetcsAndSetlenCommute, SendTransmitsWithFreshChecksum: an idle block with a short frame, with long
frames of 9 and 261 bytes, and with wrong sizes next to them. -/
theorem test_witness_sizes :
    ShortSized (withTx 0 [0x10, 0x40, 5, 0x45, 0x16]) ∧ LongSized (withTx 1 appFrame) ∧
    LongSized { State.reset with txkind := 1, txlen := 261 } ∧ (withTx 1 appFrame).pc = .idle ∧
    ¬ShortSized { State.reset with txkind := 0, txlen := 6 } ∧ ¬LongSized { State.reset with txkind := 0, txlen := 6 } ∧
    ¬ShortSized { State.reset with txkind := 1, txlen := 8 } ∧ ¬LongSized { State.reset with txkind := 1, txlen := 8 } := by
  unfold ShortSized LongSized; decide

/-- WrongSizeRaisesBadSize: both alternatives. -/
theorem test_witness_wrong_size : State.reset.pc = .idle ∧ ¬ShortSized State.reset ∧ ¬LongSized State.reset := by
  unfold ShortSized LongSized; decide

/-- SetcsWritesTheChecksum, SetcsAndSetlenCommute: the two commands one after the other answer next states. -/
theorem test_witness_two_commands :
    exec .setcs (withTx 1 appFrame) = .next (after (exec .setcs (withTx 1 appFrame))) ∧
    exec .setlen (after (exec .setcs (withTx 1 appFrame))) =
      .next (after (exec .setlen (after (exec .setcs (withTx 1 appFrame))))) := ⟨rfl, rfl⟩

/-- BldNkeBuildsLinkReset to BldSetpriBuildsAddressByPrimary, SessionInitBuildsLinkReset, PagechgRun: an idle block; for
BldSetsecBuildsAddressBySecondary also N_WILD = 4. BuiltFramesAreConsistent: two blocks with equal operands. -/
theorem test_witness_idle : State.reset.pc = .idle ∧ State.reset.params.nWild = 4 ∧
    (withTx 1 appFrame).addr = State.reset.addr ∧ exec .bldReq State.reset = .next (after (exec .bldReq State.reset)) :=
  ⟨rfl, rfl, rfl, rfl⟩

/-- SendTransmitsWithFreshChecksum, the write step. -/
theorem test_witness_send_run : ({ withTx 1 appFrame with writeAns := [.ok] } : State).writeAns = .ok :: [] ∧
    (after (exec .send { withTx 1 appFrame with writeAns := [.ok] })).pc = .txCmd := by decide

/-- TransmitSteps: each clause. -/
theorem test_witness_transmit : ({ busyIn .txCmd 0x20 with writeAns := [.ok] } : State).writeAns = .ok :: [] ∧
    (busyIn .txCmd 0x42).op = 0x42 ∧ (busyIn .txReq 0x41).pc = .txReq ∧
    ({ busyIn .txReq 0x41 with writeAns := [.err 7] } : State).writeAns = .err 7 :: [] := by decide

/-- AcknowledgementSteps: each clause. -/
theorem test_witness_ack : ({ busyIn .ackArm 0x21 with deadlineAns := [.ok] } : State).deadlineAns = .ok :: [] ∧
    ({ busyIn .ackRd 0x21 with readAns := [.byte 0xE5] } : State).readAns = .byte 0xE5 :: [] ∧
    ({ busyIn .ackRd 0x40 with readAns := [.byte 0xE5] } : State).op = 0x40 ∧ (0xE4 : Byte) ≠ 0xE5 ∧
    ({ busyIn .ackRd 0x42 with readAns := [.timeout 1] } : State).readAns = .timeout 1 :: [] := by decide

/-- RdackDiscardsUntilAck: the example `00 FF E5` of R174. -/
theorem test_witness_rdack : ∃ s : State, s.pc = .idle ∧ (∀ b ∈ ([0x00, 0xFF] : List Byte), b ≠ 0xE5) ∧
    s.deadlineAns = List.replicate 3 .ok ++ [] ∧ s.readAns = [0x00, 0xFF].map .byte ++ .byte 0xE5 :: [] :=
  ⟨{ State.reset with deadlineAns := [.ok, .ok, .ok], readAns := [.byte 0x00, .byte 0xFF, .byte 0xE5] }, rfl, by decide,
    rfl, rfl⟩

/-- RdackDiscardsUntilAck, a deadline that cannot be set after one byte of noise; SendTransmitsWithFreshChecksum, a write
that fails. -/
theorem test_witness_port_errors :
    ({ State.reset with deadlineAns := [.ok, .err 2], readAns := [.byte 0x00] } : State).deadlineAns =
      List.replicate 1 .ok ++ .err 2 :: [] ∧
    (after (exec .send { withTx 1 appFrame with writeAns := [.err 4] })).pc = .txCmd := by decide

/-- ScanInitBeforeEveryLongRead, RequestBuildStep: a block in REQ_BUILD, both values of FCBT. -/
theorem test_witness_req_build : (busyIn .reqBuild 0x41).pc = .reqBuild ∧ (busyIn .reqBuild 0x41).fcbt = false ∧
    ({ busyIn .reqBuild 0x41 with fcbt := true } : State).fcbt = true := by decide

/-- LongFrameArmSetsTheDeadline: both answers. -/
theorem test_witness_lf_arm : ({ busyIn .lfArm 0x22 with deadlineAns := [.ok] } : State).deadlineAns = .ok :: [] ∧
    ({ busyIn .lfArm 0x22 with deadlineAns := [.err 9] } : State).deadlineAns = .err 9 :: [] := by decide

/-- A scan that has collected 256 bytes of a 257-byte frame. -/
def collecting : State :=
  { busyIn .lfRd 0x22 with
    ncnt := 256, rxlen := 256, llen := 251, phase := true, rxb := [(0, 0x68), (1, 251), (2, 251), (3, 0x68)],
    readAns := [.byte 0x16] }

/-- LongFrameReadStep while Collecting: the frame completes on the 257th byte, for RDLONG, and in a session. -/
theorem test_witness_collecting : ScanInProgress collecting ∧ collecting.phase = true ∧
    collecting.readAns = .byte 0x16 :: [] ∧ (collecting.rxlen + 1).toNat = collecting.llen.toNat + 6 ∧
    collecting.op = 0x22 ∧ ({ collecting with op := 0x40 } : State).op = 0x40 := by
  unfold ScanInProgress; decide

/-- LongFrameReadStep while Searching: the first byte, and the 257th. -/
theorem test_witness_searching : ScanInProgress { busyIn .lfRd 0x22 with readAns := [.byte 0x68] } ∧
    ScanInProgress { busyIn .lfRd 0x22 with ncnt := 256, rxlen := 4, readAns := [.byte 0x68] } := by
  unfold ScanInProgress; decide

/-- LongFrameReadStep, a scan that fails. -/
theorem test_witness_scan_fails : ({ collecting with readAns := [.timeout 5] } : State).readAns = .timeout 5 :: [] ∧
    ({ collecting with readAns := [.err 6] } : State).readAns = .err 6 :: [] := by decide

/-- One byte of garbage, then the sample frame (R179, example). -/
def stream : List Byte := 0xAA :: sample

/-- A frame of 257 bytes, the longest that can be received (R178). -/
def longest : List Byte := [0x68, 251, 251, 0x68] ++ List.replicate 252 0 ++ [0x16]

theorem test_witness_frameAfter : frameAfter stream 1 := by decide
theorem test_witness_longest_frame : frameAfter longest 0 ∧ longest.length ≤ 257 := by
  have h : longest.length = 257 := by rw [longest, List.length_append, List.length_append, List.length_replicate]; rfl
  exact ⟨⟨⟨by decide, fun g hg => absurd hg (by omega)⟩, h, by rw [longest, List.getLast?_append]; rfl⟩, h.le⟩

/-- ScannerReturnsTheFirstFrame: a scan about to begin with all its answers to come. -/
theorem test_witness_scan : ∃ s : State, s.pc = .lfArm ∧ s.ncnt = 0 ∧ s.rxlen = 0 ∧ s.phase = false ∧ s.op = 0x22 ∧
    s.deadlineAns = List.replicate stream.length .ok ++ [] ∧ s.readAns = stream.map .byte ++ [] :=
  ⟨{ busyIn .lfArm 0x22 with deadlineAns := List.replicate stream.length .ok, readAns := stream.map .byte }, rfl, rfl, rfl,
    rfl, rfl, by simp, by simp⟩

/-- ScannerGivesUpOnByte257: 257 bytes, and 256, with no start pattern. -/
theorem test_witness_no_frame (m : Nat) :
    ∀ n ≤ (List.replicate m (0 : Byte)).length, ∀ g, ¬frameAfter ((List.replicate m 0).take n) g := by
  rintro n _ g ⟨⟨⟨h, _⟩, _⟩, _⟩
  rw [List.take_replicate, List.getElem?_replicate] at h
  split at h
  · exact absurd h (by decide)
  · cases h

/-- ScannerGivesUpOnByte257: a scan about to begin, with `m` bytes to come and no frame among them (`m` is 256 or 257). -/
theorem test_witness_scan_fails_to_find (m : Nat) (hm : m ≤ 257) : ∃ (s : State) (bs : List Byte), s.pc = .lfArm ∧
    s.ncnt = 0 ∧ s.rxlen = 0 ∧ s.phase = false ∧ bs.length = m ∧ bs.length ≤ 257 ∧
    (∀ n ≤ bs.length, ∀ g, ¬frameAfter (bs.take n) g) ∧
    s.deadlineAns = List.replicate bs.length .ok ++ [] ∧ s.readAns = bs.map .byte ++ [] :=
  ⟨{ busyIn .lfArm 0x22 with
      deadlineAns := List.replicate (List.replicate m (0 : Byte)).length .ok ++ []
      readAns := (List.replicate m 0).map .byte ++ [] },
    List.replicate m 0, rfl, rfl, rfl, rfl, List.length_replicate, by rw [List.length_replicate]; exact hm,
    test_witness_no_frame m, rfl, rfl⟩

/-- TerminationBounds: enough answers; a frame to decode; a frame to send. -/
theorem test_witness_termination :
    257 ≤ ({ State.reset with deadlineAns := List.replicate 257 .ok } : State).deadlineAns.length ∧
    257 ≤ ({ State.reset with readAns := List.replicate 257 (.byte 0) } : State).readAns.length ∧
    ({ withTx 1 appFrame with writeAns := [.ok] } : State).writeAns ≠ [] :=
  ⟨List.length_replicate.ge, List.length_replicate.ge, List.cons_ne_nil _ _⟩

/-- VerifyChecksLengthThenChecksum, DecodeCommandRun: a received frame with a good checksum (L = 3), with a bad one, and
one with L = 2. -/
theorem test_witness_verify : FrameInRxb { withRx sample with pc := .verify } ∧
    sumBytes (rxBytes (withRx sample) 4 3) = rxByte (withRx sample) (4 + 3) ∧
    FrameInRxb { withRx (sample.set 7 0x7E) with pc := .verify } ∧
    sumBytes (rxBytes (withRx (sample.set 7 0x7E)) 4 3) ≠ rxByte (withRx (sample.set 7 0x7E)) (4 + 3) ∧
    FrameInRxb { withRx [0x68, 0x02, 0x02, 0x68, 0x08, 0x05, 0x0D, 0x16] with pc := .verify } := by
  unfold FrameInRxb; decide

/-- DecodeCommandRun, TransitionTable: an idle block with a frame in RXB; an illegal code. -/
theorem test_witness_idle_frame : ScanOk (withRx sample) ∧ (withRx sample).pc = .idle ∧ (withRx sample).rxlen ≠ 0 ∧
    decodeCode 0x00 = none := by
  refine ⟨⟨by decide, .inr ?_⟩, rfl, by decide, by decide⟩
  unfold FrameInRxb; decide

/-- Parameters whose decoder answers the sample frame with a more bit. -/
def decoding (more : Bool) : Params := { Config.defaults with decTab := [(sample, .ok ⟨1⟩ more)] }

/-- DecodeStepStoresTheResult, DecodeCommandRun: the decoder accepts, and rejects; RES is full, and is not. -/
theorem test_witness_decode : decAnswer (decoding true) (rxFrame (withRx sample)) = .ok ⟨1⟩ true ∧
    decAnswer { Config.defaults with decTab := [(sample, .err 8)] } (rxFrame (withRx sample)) = .err 8 ∧
    (decoding true).resCap ≠ some 0 ∧ ({ decoding true with resCap := some 0 } : Params).resCap = some State.reset.rescnt ∧
    (withRx sample).rxlen ≠ 0 ∧ State.reset.rxlen = 0 := by decide

/-- LoopEntryTest: each clause; for RD1, the step that enters LOOP. -/
theorem test_witness_loop : (busyIn .loop 0x40).op = 0x40 ∧
    (seqStep { busyIn .ackRd 0x40 with readAns := [.byte 0xE5] }).pc = .loop ∧ ({ busyIn .loop 0x41 with first := true } : State).first = true ∧
    ({ busyIn .loop 0x41 with more := true } : State).more = true ∧ (busyIn .loop 0x41).first = false := by decide

/-- A reply that holds the sample frame after one byte of garbage. -/
def reply : Reply := { stream := stream, frame := sample, record := ⟨1⟩ }

theorem test_witness_reply (more : Bool) : reply.good (decoding more) more :=
  ⟨⟨1, test_witness_frameAfter, rfl⟩, by decide, by decide, by decide, by cases more <;> decide⟩

/-- A transport that answers everything with Ok and delivers these bytes. -/
def device (p : Params) (writes : Nat) (bs : List Byte) : State :=
  { State.reset with
    params := p, writeAns := List.replicate writes .ok, deadlineAns := List.replicate bs.length .ok,
    readAns := bs.map .byte }

/-- PagechgRun: one byte of noise before the acknowledgement. -/
theorem test_witness_pagechg : (device Config.defaults 1 [0xFF, 0xE5]).writeAns = .ok :: [] ∧
    (device Config.defaults 1 [0xFF, 0xE5]).deadlineAns = List.replicate (1 + 1) .ok ++ [] ∧
    (device Config.defaults 1 [0xFF, 0xE5]).readAns = ([0xFF] ++ [0xE5]).map .byte ++ [] := by decide

/-- ReadSingleFrameRun: noise, the acknowledgement, garbage, the frame. -/
theorem test_witness_rd1 : (device (decoding true) 2 ([0xFF] ++ [0xE5] ++ reply.stream)).writeAns = .ok :: .ok :: [] ∧
    (device (decoding true) 2 ([0xFF] ++ [0xE5] ++ reply.stream)).deadlineAns =
      List.replicate (1 + 1 + reply.stream.length) .ok ++ [] ∧
    (device (decoding true) 2 ([0xFF] ++ [0xE5] ++ reply.stream)).params.resCap ≠ some 0 := by decide

/-- A second frame, with C = 0x09, whose record says no more follow. -/
def lastReply : Reply :=
  { stream := [0x68, 0x03, 0x03, 0x68, 0x09, 0x05, 0x72, 0x80, 0x16],
    frame := [0x68, 0x03, 0x03, 0x68, 0x09, 0x05, 0x72, 0x80, 0x16], record := ⟨2⟩ }

/-- A decoder for both replies, and a store that holds exactly two results. -/
def decodingTwo : Params :=
  { Config.defaults with
    resCap := some 2, decTab := [(sample, .ok ⟨1⟩ true), (lastReply.frame, .ok ⟨2⟩ false)] }

/-- ReadAllFramesRun: two replies. -/
theorem test_witness_rdall : reply.good decodingTwo true ∧ lastReply.good decodingTwo false ∧
    (∀ cap, decodingTwo.resCap = some cap → [reply].length < cap) ∧
    (device decodingTwo 3 ([] ++ [0xE5] ++ ([reply] ++ [lastReply]).flatMap Reply.stream)).writeAns =
      List.replicate ([reply].length + 2) .ok ++ [] ∧
    (device decodingTwo 3 ([] ++ [0xE5] ++ ([reply] ++ [lastReply]).flatMap Reply.stream)).deadlineAns =
      List.replicate (0 + 1 + (([reply] ++ [lastReply]).flatMap Reply.stream).length) .ok ++ [] := by
  refine ⟨⟨⟨1, test_witness_frameAfter, rfl⟩, by decide, by decide, by decide, by decide⟩,
    ⟨⟨0, by decide, rfl⟩, by decide, by decide, by decide, by decide⟩, ?_, by decide, by decide⟩
  intro cap h
  cases h
  decide

/-- RaiseAndFinish, AbortDiscardsResults: a step that fails, of RD1 and of SEND, from a legal busy state; a step that
finishes. -/
theorem test_witness_abort : (seqStep { busyIn .txCmd 0x40 with writeAns := [.err 3] }).errf = true ∧
    (seqStep { busyIn .txCmd 0x20 with writeAns := [.err 3] }).errf = true ∧
    (seqStep { busyIn .txCmd 0x20 with writeAns := [.ok] }).pc = .idle ∧
    (seqStep { busyIn .txCmd 0x20 with writeAns := [.ok] }).errf = false := by decide

theorem test_witness_errorsOk : ErrorsOk { busyIn .txCmd 0x20 with writeAns := [.ok] } :=
  ⟨⟨(0, 0, false), by decide, rfl, rfl, fun _ => rfl⟩, by decide, by decide, fun _ => ⟨rfl, rfl⟩⟩

/-- TransitionTable: a busy block that runs a command which can be there. -/
theorem test_witness_commandOk : CommandOk (busyIn .verify 0x30) ∧ CommandOk (busyIn .lfRd 0x22) := by
  unfold CommandOk; decide

/-- HardwareResetEndsACommand, RegisterReads, RegisterWritesWhenIdle, BufferAccessesWhenIdle: the moves, at the ends of
their ranges. -/
theorem test_witness_moves :
    ({ busyIn .lfRd 0x22 with moves := [HostMove.hwReset] } : State).moves = .hwReset :: [] ∧
    ({ State.reset with moves := [HostMove.rd 0xFF] } : State).moves = .rd 0xFF :: [] ∧
    ({ State.reset with moves := [HostMove.wr 0x10 511] } : State).moves = .wr 0x10 511 :: [] ∧ (511 : Nat) < 512 ∧
    ({ withRx sample with moves := [HostMove.rdb .RXB 8] } : State).pc = .idle ∧ 8 < (withRx sample).rxlen.toNat ∧
    ([(⟨9, sample, ⟨1⟩, true⟩ : ResEntry)])[0]? = some ⟨9, sample, ⟨1⟩, true⟩ := by decide

/-- OpenReadsChangeNothing: each alternative, at the first index and entry that is open. -/
theorem test_witness_open_reads : (busyIn .lfRd 0x22).pc ≠ .idle ∧ (withRx sample).rxlen.toNat ≤ 9 ∧
    State.reset.res.length ≤ 0 ∧ ({ withRx sample with moves := [HostMove.rdb .RXB 9] } : State).moves = .rdb .RXB 9 :: [] := by
  decide

/-- DecodeStepStoresTheResult: RESCNT below a finite RES_CAP. -/
theorem test_witness_rescnt : decodingTwo.resCap = some 2 ∧ State.reset.rescnt < 2 ∧ Config.defaults.resCap = none := by
  decide

/-- The invariants' premises: they hold after reset (ResetMeetsTheInvariants) and in busy states. A session in its first
request, about to write it. -/
def session : State := { seqStep { busyIn .reqBuild 0x41 with addr := 0x05 } with wire := [] }

theorem test_witness_session : SessionOk session ∧ session.pc = .txReq ∧ step session = .next (seqStep session) := by
  exact ⟨fun _ => ⟨rfl, by decide, by decide, by decide, by decide⟩, by decide, rfl⟩

theorem test_witness_checksumsOk : ChecksumsOk session := by
  refine ⟨?_, fun _ => ?_⟩
  · intro f hf
    rw [show written session.wire = [] from rfl] at hf
    exact absurd hf (List.not_mem_nil)
  · right
    decide

theorem test_witness_scanOk : ScanOk collecting := ⟨by decide, test_witness_collecting.1⟩

theorem test_witness_deadlinesOk : DeadlinesOk { collecting with wire := [.setDeadline 0 .ok] } := by
  refine ⟨fun i a h => ?_, fun _ => rfl⟩
  match i with
  | 0 => cases h
  | i + 1 => simp at h

theorem test_witness_widthsOk :
    WidthsOk { collecting with tmo := 2 ^ 32 - 1, errenv := 2 ^ 32 - 1, rescnt := 2 ^ 32 - 1 } ∧
    WidthsOk (narrow { State.reset with tmo := 2 ^ 16 - 1, errenv := 2 ^ 12 - 1 }) := by
  unfold WidthsOk; decide

/-- SequencerStepFrame: a block in a state that each clause speaks of. -/
theorem test_witness_frame : (busyIn .verify 0x41).pc ≠ .reqBuild ∧ (busyIn .verify 0x41).pc ≠ .lfArm ∧
    (busyIn .verify 0x41).pc ≠ .lfRd ∧ (busyIn .verify 0x41).pc ≠ .ackRd ∧ (busyIn .verify 0x41).pc ≠ .decode ∧
    (busyIn .verify 0x41).pc ≠ .loop := by decide

theorem test_witness_memoryOk : MemoryOk collecting ∧ ResultsOk collecting :=
  ⟨⟨by decide, by decide, by decide, by decide, by decide⟩, rfl, fun cap h => by cases h⟩

end Sys2Proof.Machine.Tests
end

section
/-! PROOF. The scope family (00_scope.md): what a sequencer step leaves unchanged (O50), what one step of the machine runs
(O4), and the host's register writes to an idle block (O47). -/

namespace Sys2Proof.Machine

/-! ### The frame of a sequencer step (00_scope.md R7, R11)

A step is a transaction on port T at most, the step's own action, and then `raise`, `finish` or a change of PC. Each of
these keeps `SeqFrame`, so the frame of a step is read off from its outcomes in Laws/Step.lean. -/

/-- What a sequencer step taken in state `p` leaves of `s` in `t`, field group by field group. -/
structure SeqFrame (p : Pc) (s t : State) : Prop where
  operands : t.addr = s.addr ∧ t.arg = s.arg ∧ t.sec0 = s.sec0 ∧ t.sec1 = s.sec1 ∧ t.sec2 = s.sec2 ∧ t.sec3 = s.sec3 ∧
    t.tmo = s.tmo
  command : t.op = s.op ∧ t.ovr = s.ovr ∧ t.rval = s.rval
  outside : t.moves = s.moves ∧ t.rdata = s.rdata ∧ t.params = s.params ∧ t.epoch = s.epoch ∧ t.draws = s.draws
  port : t.wire = s.wire ∨ ∃ e, t.wire = s.wire ++ [e]
  txFrame : p ≠ .reqBuild → t.txb = s.txb ∧ t.txlen = s.txlen ∧ t.txkind = s.txkind
  rxb : p ≠ .lfRd → t.rxb = s.rxb
  scanner : p ≠ .lfRd → p ≠ .reqBuild → t.llen = s.llen ∧ t.ncnt = s.ncnt ∧ t.phase = s.phase
  rxlen : p ≠ .reqBuild → p ≠ .lfArm → p ≠ .lfRd → t.rxlen = s.rxlen
  more : p ≠ .ackRd → p ≠ .decode → t.more = s.more
  session : p ≠ .ackRd → p ≠ .loop → t.fcbt = s.fcbt ∧ t.first = s.first
  results : p ≠ .decode → t.res = s.res ∧ t.rescnt = s.rescnt ∨ t.res = [] ∧ t.rescnt = 0 ∧ t.errf = true

namespace SeqFrame

variable {p : Pc} {s u : State}

/-- One transaction on port T, answered. -/
theorem transaction (p : Pc) (s : State) (w d : List CtlAnswer) (r : List ReadAnswer) (e : PortEvent) :
    SeqFrame p s { s with writeAns := w, deadlineAns := d, readAns := r, wire := s.wire ++ [e] } := by
  constructor <;> simp

/-- A step that waits for its answer. -/
theorem refl (p : Pc) (s : State) : SeqFrame p s s := by
  constructor <;> simp

theorem goto (h : SeqFrame p s u) (q : Pc) : SeqFrame p s { u with pc := q } := { h with }

theorem finish (h : SeqFrame p s u) : SeqFrame p s (finish u) := { h with }

/-- An abort empties RES and RESCNT together, or leaves both (60_exceptions.md R250). -/
theorem raise (h : SeqFrame p s u) (k : ErrKind) (sub : Byte) (env : Nat) : SeqFrame p s (raise k sub env u) :=
  { h with
    results := fun hp => by
      by_cases hf : fillsRes u.op = true
      · exact .inr (by simp [Machine.raise, hf])
      · rcases h.results hp with hk | ⟨hr, hc, -⟩
        · exact .inl (by simpa [Machine.raise, hf] using hk)
        · exact .inr (by simp [Machine.raise, hf, hr, hc]) }

/-- LF_ARM and LF_RD drop the frame (42_transport_io.md R176, R177). -/
theorem dropRx (h : SeqFrame p s u) (hp : p = .lfArm ∨ p = .lfRd) : SeqFrame p s { u with rxlen := 0 } :=
  { h with rxlen := fun _ ha hr => (hp.elim ha hr).elim }

/-- LF_RD changes RXB and the scanner's registers. -/
theorem scan {v : State} (h : SeqFrame .lfRd s u) (hv : SameButScanner u v) : SeqFrame .lfRd s v := by
  rw [hv]
  exact { h with
    rxb := fun hp => absurd rfl hp
    scanner := fun hp => absurd rfl hp
    rxlen := fun _ _ hp => absurd rfl hp }

/-- ACK_RD starts the session (44_session.md R222). -/
theorem sessionStart (h : SeqFrame .ackRd s u) : SeqFrame .ackRd s (sessionStart u) :=
  { h with
    more := fun hp => absurd rfl hp
    session := fun hp => absurd rfl hp }

/-- DECODE appends a result (43_decode.md R204). -/
theorem appendRes (h : SeqFrame .decode s u) (record : RecVal) (more : Bool) :
    SeqFrame .decode s (appendRes record more u) :=
  { h with
    more := fun _ hp => absurd rfl hp
    results := fun hp => absurd rfl hp }

/-- LOOP changes FIRST and FCBT (44_session.md R223). -/
theorem sessionFlags (h : SeqFrame .loop s u) (a b : Bool) : SeqFrame .loop s { u with first := a, fcbt := b } :=
  { h with session := fun _ hp => absurd rfl hp }

/-- REQ_BUILD writes TXB and its descriptor (44_session.md R224). -/
theorem writeFrame (h : SeqFrame .reqBuild s u) (m : Memory) (n : Count) (k : BitVec 1) :
    SeqFrame .reqBuild s { u with txb := m, txlen := n, txkind := k } :=
  { h with txFrame := fun hp => absurd rfl hp }

theorem build (h : SeqFrame .reqBuild s u) (k : BitVec 1) (bs : List Byte) : SeqFrame .reqBuild s (build k bs u) := by
  rw [build_frame]; exact h.writeFrame _ _ _

theorem setFcb (h : SeqFrame .reqBuild s u) : SeqFrame .reqBuild s (setFcb u) := by
  rw [setFcb_frame]; exact h.writeFrame _ _ _

theorem setChecksum (h : SeqFrame .reqBuild s u) : SeqFrame .reqBuild s (setChecksum u) := by
  rw [setChecksum_frame]; exact h.writeFrame _ _ _

/-- REQ_BUILD starts the scanner (42_transport_io.md R175). -/
theorem scanInit (h : SeqFrame .reqBuild s u) : SeqFrame .reqBuild s (scanInit u) :=
  { h with
    scanner := fun _ hp => absurd rfl hp
    rxlen := fun hp => absurd rfl hp }

end SeqFrame

theorem stepTxCmd_frame (s : State) : SeqFrame .txCmd s (stepTxCmd s) := by
  rcases stepTxCmd_cases s with ⟨-, e⟩ | ⟨a, rest, u, -, rfl, ⟨-, -, e⟩ | ⟨-, -, e⟩ | ⟨_, -, e⟩⟩ <;> rw [e]
  · exact .refl _ _
  · exact (SeqFrame.transaction _ s _ _ _ _).finish
  · exact (SeqFrame.transaction _ s _ _ _ _).goto _
  · exact (SeqFrame.transaction _ s _ _ _ _).raise _ _ _

theorem stepTxReq_frame (s : State) : SeqFrame .txReq s (stepTxReq s) := by
  rcases stepTxReq_cases s with ⟨-, e⟩ | ⟨a, rest, u, -, rfl, ⟨-, e⟩ | ⟨_, -, e⟩⟩ <;> rw [e]
  · exact .refl _ _
  · exact (SeqFrame.transaction _ s _ _ _ _).goto _
  · exact (SeqFrame.transaction _ s _ _ _ _).raise _ _ _

theorem stepAckArm_frame (s : State) : SeqFrame .ackArm s (stepAckArm s) := by
  rcases stepAckArm_cases s with ⟨-, e⟩ | ⟨a, rest, u, -, rfl, ⟨-, e⟩ | ⟨_, -, e⟩⟩ <;> rw [e]
  · exact .refl _ _
  · exact (SeqFrame.transaction _ s _ _ _ _).goto _
  · exact (SeqFrame.transaction _ s _ _ _ _).raise _ _ _

theorem stepAckRd_frame (s : State) : SeqFrame .ackRd s (stepAckRd s) := by
  rcases stepAckRd_cases s with ⟨-, e⟩ | ⟨a, rest, u, -, rfl,
    ⟨-, -, e⟩ | ⟨-, -, e⟩ | ⟨_, -, -, e⟩ | ⟨_, -, e⟩ | ⟨_, -, e⟩⟩ <;> rw [e]
  · exact .refl _ _
  · exact (SeqFrame.transaction _ s _ _ _ _).sessionStart
  · exact (SeqFrame.transaction _ s _ _ _ _).finish
  · exact (SeqFrame.transaction _ s _ _ _ _).goto _
  · exact (SeqFrame.transaction _ s _ _ _ _).raise _ _ _
  · exact (SeqFrame.transaction _ s _ _ _ _).raise _ _ _

theorem stepLoop_frame (s : State) : SeqFrame .loop s (stepLoop s) := by
  rcases stepLoop_cases s with ⟨-, e⟩ | ⟨-, -, e⟩ | ⟨-, -, e⟩ <;> rw [e]
  · exact ((SeqFrame.refl _ s).sessionFlags false s.fcbt).goto _
  · exact ((SeqFrame.refl _ s).sessionFlags s.first !s.fcbt).goto _
  · exact (SeqFrame.refl _ s).finish

theorem stepReqBuild_frame (s : State) : SeqFrame .reqBuild s (stepReqBuild s) := by
  have hb := (SeqFrame.refl .reqBuild s).build 1 (reqBytes s)
  unfold stepReqBuild
  dsimp only
  split
  · exact hb.setFcb.setChecksum.scanInit.goto _
  · exact hb.setChecksum.scanInit.goto _

theorem stepLfArm_frame (s : State) : SeqFrame .lfArm s (stepLfArm s) := by
  rcases stepLfArm_cases s with ⟨-, e⟩ | ⟨a, rest, u, -, rfl, ⟨-, e⟩ | ⟨_, -, e⟩⟩ <;> rw [e]
  · exact .refl _ _
  · exact (SeqFrame.transaction _ s _ _ _ _).goto _
  · exact ((SeqFrame.transaction _ s _ _ _ _).dropRx (.inl rfl)).raise _ _ _

theorem SeqFrame.lfIncomplete {s u : State} (h : SeqFrame .lfRd s u) : SeqFrame .lfRd s (lfIncomplete u) := by
  rcases lfIncomplete_cases u with ⟨-, e⟩ | ⟨-, e⟩ <;> rw [e]
  · exact (h.dropRx (.inr rfl)).raise _ _ _
  · exact h.goto _

theorem SeqFrame.lfComplete {s u : State} (h : SeqFrame .lfRd s u) : SeqFrame .lfRd s (lfComplete u) := by
  rcases lfComplete_cases u with ⟨-, e⟩ | ⟨-, e⟩ <;> rw [e]
  · exact h.goto _
  · exact h.finish

theorem SeqFrame.scanByte {s u : State} (h : SeqFrame .lfRd s u) (b : Byte) : SeqFrame .lfRd s (scanByte b u) := by
  rcases scanByte_cases b u with ⟨-, e⟩ | ⟨-, -, e⟩ | ⟨-, -, e⟩ <;> rw [e]
  · exact (h.scan (sameButScanner_searchByte b u)).lfIncomplete
  · exact (h.scan (sameButScanner_pushRx b u)).lfComplete
  · exact (h.scan (sameButScanner_pushRx b u)).lfIncomplete

theorem stepLfRd_frame (s : State) : SeqFrame .lfRd s (stepLfRd s) := by
  rcases stepLfRd_cases s with ⟨-, e⟩ | ⟨a, rest, u, -, rfl, ⟨b, -, e⟩ | ⟨_, -, e⟩ | ⟨_, -, e⟩⟩ <;> rw [e]
  · exact .refl _ _
  · exact (SeqFrame.transaction _ s _ _ _ _).scanByte b
  · exact ((SeqFrame.transaction _ s _ _ _ _).dropRx (.inr rfl)).raise _ _ _
  · exact ((SeqFrame.transaction _ s _ _ _ _).dropRx (.inr rfl)).raise _ _ _

theorem stepVerify_frame (s : State) : SeqFrame .verify s (stepVerify s) := by
  rcases stepVerify_cases s with ⟨-, e⟩ | ⟨-, -, e⟩ | ⟨-, -, e⟩ <;> rw [e]
  · exact (SeqFrame.refl _ s).raise _ _ _
  · exact (SeqFrame.refl _ s).raise _ _ _
  · exact (SeqFrame.refl _ s).goto _

theorem stepDecode_frame (s : State) : SeqFrame .decode s (stepDecode s) := by
  rcases stepDecode_cases s with ⟨_, -, e⟩ | ⟨record, more, -, ⟨-, e⟩ | ⟨-, -, e⟩ | ⟨-, -, e⟩⟩ <;> rw [e]
  · exact (SeqFrame.refl _ s).raise _ _ _
  · exact (SeqFrame.refl _ s).raise _ _ _
  · exact ((SeqFrame.refl _ s).appendRes record more).goto _
  · exact ((SeqFrame.refl _ s).appendRes record more).finish

theorem seqStep_frame (s : State) : SeqFrame s.pc s (seqStep s) := by
  cases h : s.pc with
  | idle => exact (seqStep_idle h).symm ▸ .refl .idle s
  | txCmd => exact seqStep_txCmd h ▸ stepTxCmd_frame s
  | ackArm => exact seqStep_ackArm h ▸ stepAckArm_frame s
  | ackRd => exact seqStep_ackRd h ▸ stepAckRd_frame s
  | loop => exact seqStep_loop h ▸ stepLoop_frame s
  | reqBuild => exact seqStep_reqBuild h ▸ stepReqBuild_frame s
  | txReq => exact seqStep_txReq h ▸ stepTxReq_frame s
  | lfArm => exact seqStep_lfArm h ▸ stepLfArm_frame s
  | lfRd => exact seqStep_lfRd h ▸ stepLfRd_frame s
  | verify => exact seqStep_verify h ▸ stepVerify_frame s
  | decode => exact seqStep_decode h ▸ stepDecode_frame s

/-- Settles O50: the frame of the step from the state PC names. -/
theorem sequencerStepFrame : Obligations.SequencerStepFrame := by
  intro s
  obtain ⟨⟨ha, hg, h0, h1, h2, h3, ht⟩, ⟨hop, hov, hrv⟩, ⟨hm, hrd, hpa, hep, hdr⟩, hwire, htx, hrxb, hscan, hrxlen, hmore,
    hses, hres⟩ := seqStep_frame s
  exact ⟨ha, hg, h0, h1, h2, h3, ht, hop, hov, hrv, hm, hrd, hpa, hep, hdr, hwire, htx, hrxb, hscan, hrxlen, hmore, hses,
    hres⟩

/-! ### Which step is taken (00_scope.md R11, 20_memory.md R75, R79) -/

/-- With no host move left the sequencer steps. -/
theorem step_of_no_move {s : State} (h : s.moves = []) : step s = .next (seqStep s) := by simp [step, h]

/-- The host's next move is the step. -/
theorem step_of_move {s : State} {m : HostMove} {rest : List HostMove} (h : s.moves = m :: rest) :
    step s = hostMove m rest s := by simp [step, h]

/-- A host write of a legal code to CMD runs its command. -/
theorem writeReg_CMD_of_legal {v : Nat} {i : Instr} (h : decodeCode (BitVec.ofNat 8 v) = some i) (s : State) :
    writeReg 0x00 v s = exec i s := by
  change writeCmd (BitVec.ofNat 8 v) s = exec i s
  simp [writeCmd, decode, h]

/-- A sequence that decodes to a command begins with its code. -/
theorem decodeCode_of_decode {c : Byte} {bs rest : List Byte} {i : Instr} (h : decode (c :: bs) = .ok (i, rest)) :
    decodeCode c = some i := by
  cases hc : decodeCode c with
  | none => simp [decode, hc] at h
  | some j =>
    simp only [decode, hc] at h
    cases h
    rfl

/-- A table word that is a command is its code in the low 8 bits. -/
theorem decodeCode_of_decodeTableWord {nbits w : Nat} {i : Instr} (h : decodeTableWord nbits w = some i) :
    decodeCode (BitVec.ofNat 8 (w % 2 ^ nbits)) = some i := by
  obtain ⟨n, hn⟩ : ∃ n, max 1 ((nbits + 7) / 8) = n + 1 := ⟨max 1 ((nbits + 7) / 8) - 1, by omega⟩
  unfold decodeTableWord at h
  rw [hn, bytesLE] at h
  split at h
  · cases h
    exact decodeCode_of_decode ‹_›
  · cases h
  · cases h

/-- Settles O4, move by move. -/
theorem stepRunsTheDecodedCommand : Obligations.StepRunsTheDecodedCommand := by
  refine ⟨fun s v rest i hm hi => ?_, fun s => step_of_no_move, fun s rest => step_of_move, fun s rest hm => ?_,
    fun s nbits w i hi => ?_⟩
  · rw [step_of_move hm]
    exact writeReg_CMD_of_legal hi _
  · rw [step_of_move hm]
    exact ⟨fun hd => by simp [hostMove, hd], fun hd => by simp only [hostMove, hd, if_true]; rfl⟩
  · rw [step_of_move (s := s.withFetchWord nbits w) rfl]
    exact writeReg_CMD_of_legal (decodeCode_of_decodeTableWord hi) _

/-! ### The host's register writes (10_state.md R33) -/

/-- A host write to a register of an idle block other than CMD stores in it. -/
theorem writeReg_of_idle {n : Byte} {r : Reg} {s : State} (v : Nat) (hn : Reg.ofNumber n = some r) (hr : r ≠ .CMD)
    (hs : s.pc = .idle) : writeReg n v s = .next (storeReg r v s) := by
  have hb : busy s = false := by simp [busy, hs]
  unfold writeReg
  rw [hn]
  cases r <;> simp_all

/-- A read-only register ignores a host write. -/
theorem storeReg_of_readOnly {r : Reg} (h : r.hostWritable = false) (v : Nat) (s : State) : storeReg r v s = s := by
  cases r <;> simp_all [Reg.hostWritable, storeReg]

theorem Reg.ofNumber_number (r : Reg) : Reg.ofNumber r.number = some r := by cases r <;> rfl

theorem Reg.number_of_ofNumber {n : Byte} {r : Reg} (h : Reg.ofNumber n = some r) : n = r.number := by
  unfold Reg.ofNumber at h
  split at h <;> cases h <;> exact BitVec.eq_of_toNat_eq ‹_›

/-- The read-only part of the register map (R33). -/
theorem Reg.readOnly_of_number {r : Reg}
    (h : 0x01 ≤ r.number ∧ r.number ≤ 0x07 ∨ r.number = 0x0F ∨ 0x12 ≤ r.number) : r.hostWritable = false := by
  cases r <;> revert h <;> decide

/-- A host write to an idle block with a number that names no writable register changes nothing. -/
theorem writeReg_ignored {n : Byte} {s : State} (v : Nat) (h : ∀ r : Reg, r.number = n → r.hostWritable = false)
    (hs : s.pc = .idle) : writeReg n v s = .next s := by
  cases hn : Reg.ofNumber n with
  | none => simp [writeReg, hn]
  | some r =>
    have hro := h r (Reg.number_of_ofNumber hn).symm
    rw [writeReg_of_idle v hn (by rintro rfl; cases hro) hs, storeReg_of_readOnly hro]

/-- Below 512 the cut to TXLEN's 9 bits loses nothing, so the clamp is that of the value written (R30). -/
theorem clampTxlen_ofNat {v : Nat} (h : v < 512) : clampTxlen (BitVec.ofNat 9 v) = BitVec.ofNat 9 (min v 261) := by
  have hv : (BitVec.ofNat 9 v).toNat = v := by simpa using Nat.mod_eq_of_lt h
  unfold clampTxlen Config.TXB_CAP
  rw [hv]
  split
  · rw [Nat.min_eq_right (by omega)]; rfl
  · rw [Nat.min_eq_left (by omega)]

/-- Settles O47, register by register. -/
theorem registerWritesWhenIdle : Obligations.RegisterWritesWhenIdle := by
  intro s n v rest hs hm u
  have hstep : step s = writeReg n v u := step_of_move hm
  have store (r : Reg) (hr : r ≠ .CMD) (hn : n = r.number) : step s = .next (storeReg r v u) :=
    hstep.trans (writeReg_of_idle v (hn ▸ r.ofNumber_number) hr hs)
  refine ⟨store .ADDR (by decide), store .ARG (by decide), store .SEC0 (by decide), store .SEC1 (by decide),
    store .SEC2 (by decide), store .SEC3 (by decide), store .TMO (by decide), fun hn hv => ?_, store .TXKIND (by decide),
    fun hn => ?_⟩
  · rw [← clampTxlen_ofNat hv]
    exact store .TXLEN (by decide) hn
  · exact hstep.trans (writeReg_ignored v (fun r hr => Reg.readOnly_of_number (hr ▸ hn)) hs)

end Sys2Proof.Machine
end

section
/-! PROOF. The state family (10_state.md): RESCNT and RES over every step (O54), a busy block and its host (O5, O48), reset
(O43, O52), STATUS and the pins (O45), and the host's reads (O46, O60). -/

namespace Sys2Proof.Machine

/-! ### RESCNT counts RES (10_state.md R32, 43_decode.md R204)

Only DECODE adds a result; every other step leaves RES and RESCNT or empties both. -/

namespace ResultsOk

variable {s t : State}

/-- The invariant looks at RES, RESCNT and the parameters alone. -/
theorem congr (h : ResultsOk s) (hres : t.res = s.res) (hcnt : t.rescnt = s.rescnt) (hp : t.params = s.params) :
    ResultsOk t := by
  rwa [ResultsOk, hres, hcnt, hp]

theorem of_empty (hres : t.res = []) (hcnt : t.rescnt = 0) : ResultsOk t := by
  simp [ResultsOk, hres, hcnt]

/-- An abort empties RES and RESCNT together, or leaves both (60_exceptions.md R250). -/
theorem raise (h : ResultsOk s) (k : ErrKind) (sub : Byte) (env : Nat) : ResultsOk (raise k sub env s) := by
  by_cases hf : fillsRes s.op = true
  · exact of_empty (by simp [hf]) (by simp [hf])
  · exact h.congr (by simp [hf]) (by simp [hf]) rfl

theorem ifCorrectlySized (h : ResultsOk s) {body : State → State} (hb : ResultsOk (body s)) :
    ResultsOk (ifCorrectlySized body s) := by
  rcases ifCorrectlySized_cases body s with ⟨-, e⟩ | ⟨-, e⟩ <;> rw [e]
  · exact hb
  · exact h.raise _ _ _

/-- RES holds fewer than RES_CAP entries where RESCNT has not reached RES_CAP. -/
theorem lt_cap (h : ResultsOk s) (hfull : s.params.resCap ≠ some s.rescnt) {cap : Nat} (hc : s.params.resCap = some cap) :
    s.res.length < cap := by
  obtain ⟨hcnt, hle⟩ := h
  have hn : s.rescnt = s.res.length := by simpa [resCount, hc] using hcnt
  exact lt_of_le_of_ne (hle cap hc) fun he => hfull (by rw [hc, hn, he])

/-- A result stored in a RES that is not full is counted (43_decode.md R204). -/
theorem appendRes (h : ResultsOk s) (hfull : s.params.resCap ≠ some s.rescnt) (record : RecVal) (more : Bool) :
    ResultsOk (appendRes record more s) := by
  have hlt : ∀ cap, s.params.resCap = some cap → s.res.length < cap := fun _ => h.lt_cap hfull
  obtain ⟨hcnt, -⟩ := h
  constructor
  · simpa using rescntSucc_resCount hcnt hlt
  · simpa using hlt

theorem stepDecode (h : ResultsOk s) : ResultsOk (stepDecode s) := by
  rcases stepDecode_cases s with ⟨_, -, e⟩ | ⟨record, more, -, ⟨-, e⟩ | ⟨hf, -, e⟩ | ⟨hf, -, e⟩⟩ <;> rw [e]
  · exact h.raise _ _ _
  · exact h.raise _ _ _
  · exact (h.appendRes hf record more).congr rfl rfl rfl
  · exact (h.appendRes hf record more).congr rfl rfl rfl

theorem seqStep (h : ResultsOk s) : ResultsOk (seqStep s) := by
  by_cases hd : s.pc = .decode
  · rw [seqStep_decode hd]
    exact h.stepDecode
  · have hframe := seqStep_frame s
    obtain ⟨-, -, hparams, -, -⟩ := hframe.outside
    rcases hframe.results hd with ⟨hres, hcnt⟩ | ⟨hres, hcnt, -⟩
    · exact h.congr hres hcnt hparams
    · exact of_empty hres hcnt

/-- The acceptance of DECODE, RD1 and RDALL empties RES (43_decode.md R205, 44_session.md R212); the other commands abort
or leave it. -/
theorem acceptOf (h : ResultsOk s) (i : Instr) : ResultsOk (acceptOf i s) := by
  cases i with
  | setcs | getfcb | setfcb | send => exact h.ifCorrectlySized (h.congr (by simp) (by simp) (by simp))
  | setlen =>
    rcases acceptSetlen_cases s with ⟨-, -, e⟩ | e <;> rw [Machine.acceptOf, e]
    · exact h.congr (by simp) (by simp) (by simp)
    · exact h.raise _ _ _
  | bldNke | bldApprst | bldReq | bldPage | bldSetsec | bldSetpri =>
    exact h.congr ((finish_res _).trans (build_res ..)) ((finish_rescnt _).trans (build_rescnt ..))
      ((finish_params _).trans (build_params ..))
  | rdack | rdlong => exact h.congr rfl rfl rfl
  | decode =>
    rcases acceptDecode_cases s with ⟨-, e⟩ | ⟨-, e⟩ <;> rw [Machine.acceptOf, e]
    · exact h.raise _ _ _
    · exact of_empty rfl rfl
  | rd1 | rdall => refine of_empty ?_ ?_ <;> simp [Machine.acceptOf, sessionInit]
  | pagechg => refine h.congr ?_ ?_ ?_ <;> simp [Machine.acceptOf, acceptPagechg]

theorem storeReg (h : ResultsOk s) (r : Reg) (v : Nat) : ResultsOk (storeReg r v s) := by
  obtain ⟨_, _, _, _, _, _, _, _, _, e⟩ := storeReg_cases r v s
  exact e ▸ h.congr rfl rfl rfl

end ResultsOk

/-- Settles O54, through the package of Laws/Step.lean. -/
theorem stepKeepsResultCount : Obligations.StepKeepsResultCount :=
  step_keeps ResultsOk
    (hHost := fun _ _ _ _ h => h.congr rfl rfl rfl)
    (hSeq := fun _ h => h.seqStep)
    (hBusy := fun _ _ h => h.congr rfl rfl rfl)
    (hAccept := fun i s _ h => ResultsOk.acceptOf (s := accept i.code s) (h.congr rfl rfl rfl) i)
    (hIllegal := fun c s _ h => ResultsOk.raise (s := accept c s) (h.congr rfl rfl rfl) _ _ _)
    (hReg := fun r v _ _ h => h.storeReg r v)
    (hTx := fun _ _ _ _ h => h.congr (by simp) (by simp) (by simp))
    (hReset := fun _ _ => .of_empty rfl rfl)

/-! ### A busy block and its host (10_state.md R23, R34) -/

theorem busy_eq_true_iff (s : State) : busy s = true ↔ s.pc ≠ .idle := by simp [busy]

/-- A busy block drops every code written to CMD, legal or not. -/
theorem writeCmd_of_busy {s : State} (c : Byte) (hs : s.pc ≠ .idle) : writeCmd c s = .next { s with ovr := true } := by
  unfold writeCmd
  split
  · exact exec_of_busy _ hs
  · rw [illegalCommand, if_neg hs]

/-- A busy block ignores a host write to any register number but CMD's. -/
theorem writeReg_of_busy {n : Byte} {s : State} (v : Nat) (hn : n ≠ 0x00) (hs : s.pc ≠ .idle) :
    writeReg n v s = .next s := by
  have hb := (busy_eq_true_iff s).2 hs
  unfold writeReg
  split
  · exact absurd (Reg.number_of_ofNumber ‹_›) hn
  · rw [if_pos hb]
  · rfl

/-- A busy block ignores a host write to a buffer. -/
theorem writeBuf_of_busy {s : State} (sp : Space) (i : Nat) (b : Byte) (hs : s.pc ≠ .idle) : writeBuf sp i b s = s := by
  cases sp with
  | TXB => exact if_pos ((busy_eq_true_iff s).2 hs)
  | RXB => rfl

/-- Settles O5: by `exec` and by the host's write to CMD. -/
theorem commandWhileBusyOnlySetsOvr : Obligations.CommandWhileBusyOnlySetsOvr := by
  refine fun s hs => ⟨fun i => exec_of_busy i hs, fun c rest hm => ?_⟩
  rw [step_of_move hm]
  exact writeCmd_of_busy (s := { s with moves := rest }) _ hs

/-- Settles O48: register writes and buffer writes. -/
theorem hostWritesWhileBusyAreIgnored : Obligations.HostWritesWhileBusyAreIgnored := by
  refine fun s rest hs => ⟨fun n v hn hm => ?_, fun sp i b hm => ?_⟩ <;> rw [step_of_move hm]
  · exact writeReg_of_busy (s := { s with moves := rest }) v hn hs
  · exact congrArg Host.Outcome.next (writeBuf_of_busy (s := { s with moves := rest }) sp i b hs)

/-! ### Reset (10_state.md R37) -/

/-- Settles O43: the values of `State.reset`, STATUS computed from its flags. -/
theorem resetState : Obligations.ResetState := by
  have hstatus : status State.reset = 0 := by decide
  exact ⟨rfl, hstatus, rfl, rfl, rfl, rfl, rfl, rfl, rfl, rfl, rfl, rfl, rfl, rfl, rfl, rfl⟩

/-- Settles O52. After reset the buffers and the log list nothing, the block is idle and no session was accepted. -/
theorem resetMeetsTheInvariants : Obligations.ResetMeetsTheInvariants := by
  have hmemory : MemoryOk State.reset :=
    ⟨Memory.wf_nil, Memory.wf_nil, List.forall_mem_nil _, List.forall_mem_nil _, Nat.zero_le _⟩
  have hwidths : WidthsOk State.reset := ⟨Nat.two_pow_pos _, Nat.two_pow_pos _, Nat.two_pow_pos _⟩
  have hcommand : CommandOk State.reset := fun hbusy => absurd rfl hbusy
  have herrors : ErrorsOk State.reset :=
    ⟨⟨(0, 0, false), by decide, rfl, rfl, fun _ => rfl⟩, by decide, by decide, fun hbusy => absurd rfl hbusy⟩
  have hscan : ScanOk State.reset := ⟨Nat.zero_le _, .inl rfl⟩
  have hdeadlines : DeadlinesOk State.reset := ⟨fun _ _ h => (nomatch h), by decide⟩
  have hchecksums : ChecksumsOk State.reset := ⟨fun _ hf => (nomatch hf), fun hpc => absurd hpc (by decide)⟩
  have hsession : SessionOk State.reset := fun hread => absurd hread (by unfold inReadOut; decide)
  exact ⟨hmemory, hwidths, .of_empty rfl rfl, hcommand, herrors, hscan, hdeadlines, hchecksums, hsession⟩

/-! ### STATUS and the pins (10_state.md R26, R39) -/

theorem busy_eq_decide (s : State) : busy s = decide (s.pc ≠ .idle) := by
  rw [Bool.eq_iff_iff, busy_eq_true_iff, decide_eq_true_iff]

/-- A flag stands at its bit position alone. -/
theorem getLsbD_flagBit (b : Bool) {i j : Nat} (hj : j < 8) : (flagBit b i).getLsbD j = (b && decide (j = i)) := by
  cases b
  · simp [flagBit]
  · rw [Bool.eq_iff_iff]
    simp [flagBit, hj]
    omega

/-- The eight bits of STATUS. -/
theorem getLsbD_status (s : State) {j : Nat} (hj : j < 8) :
    (status s).getLsbD j = [busy s, s.done, s.errf, s.ovr, s.fcbt, s.first, s.more, s.phase].getD j false := by
  simp only [status, BitVec.getLsbD_or, getLsbD_flagBit _ hj]
  match j, hj with
  | 0, _ | 1, _ | 2, _ | 3, _ | 4, _ | 5, _ | 6, _ | 7, _ => simp

/-- Settles O45, bit by bit. -/
theorem statusLayout : Obligations.StatusLayout := by
  intro s
  have hbit {j : Nat} (hj : j < 8) := getLsbD_status s hj
  have hbusy := busy_eq_decide s
  exact ⟨(hbit (by decide)).trans hbusy, hbit (by decide), hbit (by decide), hbit (by decide), hbit (by decide),
    hbit (by decide), hbit (by decide), hbit (by decide), hbusy, rfl, rfl⟩

/-! ### The host's reads (10_state.md R33, R34; 20_memory.md R62, R63, R72) -/

/-- A read of a register's number gives the number the register holds. -/
theorem readReg_number (s : State) (r : Reg) : readReg s r.number = regValue s r := by
  rw [readReg, Reg.ofNumber_number]

/-- A read of a reserved number gives 0. -/
theorem readReg_reserved {n : Byte} (s : State) (h : Reg.ofNumber n = none) : readReg s n = 0 := by
  rw [readReg, h]

/-- A reserved number is no register's. -/
theorem Reg.number_ne_of_ofNumber_none {n : Byte} (h : Reg.ofNumber n = none) (r : Reg) : n ≠ r.number := by
  rintro rfl
  rw [Reg.ofNumber_number] at h
  cases h

/-- Settles O46: by the register the number names, or by its being reserved. -/
theorem registerReads : Obligations.RegisterReads := by
  refine ⟨⟨rfl, rfl, rfl, rfl, rfl, rfl, rfl, rfl, rfl, rfl, rfl⟩, fun s n rest hm => ?_⟩
  rw [step_of_move hm]
  change Host.Outcome.next { s with moves := rest, rdata := .num (readReg s n) } = _
  congr 3
  cases hn : Reg.ofNumber n with
  | some r =>
    obtain rfl := Reg.number_of_ofNumber hn
    rw [readReg_number]
    cases r <;> rfl
  | none =>
    have other (r : Reg) {a b : Nat} : (if n = r.number then a else b) = b :=
      if_neg (Reg.number_ne_of_ofNumber_none hn r)
    rw [readReg_reserved _ hn]
    exact Eq.symm <|
      (other .STATUS).trans <| (other .ERR).trans <| (other .ERRSUB).trans <| (other .RVAL).trans <|
      (other .OP).trans <| (other .PC).trans <| (other .ERRENV).trans <| (other .ADDR).trans <|
      (other .ARG).trans <| (other .SEC0).trans <| (other .SEC1).trans <| (other .SEC2).trans <|
      (other .SEC3).trans <| (other .TMO).trans <| (other .TXLEN).trans <| (other .TXKIND).trans <|
      (other .RXLEN).trans <| (other .LLEN).trans <| (other .NCNT).trans <| other .RESCNT

/-- A read of a busy block's buffer draws a free value (R34). -/
theorem readBuf_of_busy {s : State} (sp : Space) (i : Nat) (hs : s.pc ≠ .idle) :
    readBuf sp i s = returnDraw (byteVal (Config.drawnByte s.draws)) s :=
  if_pos ((busy_eq_true_iff s).2 hs)

/-- A read of RXB past the frame draws a free value, busy or idle (R62, U7). -/
theorem readBuf_RXB_beyond {s : State} {i : Nat} (hi : s.rxlen.toNat ≤ i) :
    readBuf .RXB i s = returnDraw (byteVal (Config.drawnByte s.draws)) s := by
  simp [readBuf, hi]

/-- A read of a busy block's results draws a free value (R34). -/
theorem readRes_of_busy {s : State} (k : Nat) (f : ResField) (hs : s.pc ≠ .idle) :
    readRes k f s = returnDraw ((drawnEntry s.draws).field f) s :=
  if_pos ((busy_eq_true_iff s).2 hs)

/-- A read of a result that does not exist draws a free value, busy or idle (R63). -/
theorem readRes_absent {s : State} {k : Nat} (f : ResField) (hk : s.res.length ≤ k) :
    readRes k f s = returnDraw ((drawnEntry s.draws).field f) s := by
  simp [readRes, hk]

/-- Settles O60: each of the four open reads draws a free value and changes nothing else. -/
theorem openReadsChangeNothing : Obligations.OpenReadsChangeNothing := by
  intro s rest m hm hopen
  rw [step_of_move hm]
  let u : State := { s with moves := rest }
  rcases hopen with ⟨hs, sp, i, rfl⟩ | ⟨hs, k, f, rfl⟩ | ⟨i, rfl, hi⟩ | ⟨k, f, rfl, hk⟩
  · exact ⟨_, congrArg Host.Outcome.next (readBuf_of_busy (s := u) sp i hs)⟩
  · exact ⟨_, congrArg Host.Outcome.next (readRes_of_busy (s := u) k f hs)⟩
  · exact ⟨_, congrArg Host.Outcome.next (readBuf_RXB_beyond (s := u) hi)⟩
  · exact ⟨_, congrArg Host.Outcome.next (readRes_absent (s := u) f hk)⟩

end Sys2Proof.Machine
end

section
/-! PROOF. The memory family (20_memory.md): canonical buffers and register widths over every step (O53), armed reads
(O57), the host's buffer accesses to an idle block (O49), and that no step stops (O51). -/

namespace Sys2Proof.Machine

/-! ### TXB, RXB and TXLEN (20_memory.md R60, 10_state.md R30) -/

theorem longBytes_length (c a ci : Byte) (payload : List Byte) :
    (longBytes c a ci payload).length = payload.length + 9 := by simp [longBytes]

/-- The longest frame the builder writes, BLD_SETSEC's with 245 wildcards, fits TXB (41_frame_builder.md R155). -/
theorem setsecBytes_length_le (s : State) : (setsecBytes s).length ≤ 261 := by
  have := s.params.nWild.isLt
  simp only [setsecBytes, longBytes_length, List.length_append, List.length_cons, List.length_nil,
    List.length_replicate]
  omega

theorem clampTxlen_le (v : Count) : (clampTxlen v).toNat ≤ 261 := by
  unfold clampTxlen
  split
  · decide
  · exact Nat.not_lt.1 ‹_›

namespace MemoryOk

variable {s t : State}

/-- The invariant looks at TXB, RXB and TXLEN alone. -/
theorem congr (h : MemoryOk s) (htx : t.txb = s.txb) (hrx : t.rxb = s.rxb) (hlen : t.txlen = s.txlen) : MemoryOk t := by
  rwa [MemoryOk, htx, hrx, hlen]

theorem raise (h : MemoryOk s) (k : ErrKind) (sub : Byte) (env : Nat) : MemoryOk (raise k sub env s) :=
  h.congr rfl rfl rfl

theorem finish (h : MemoryOk s) : MemoryOk (finish s) := h.congr rfl rfl rfl

theorem goto (h : MemoryOk s) (q : Pc) : MemoryOk { s with pc := q } := h.congr rfl rfl rfl

theorem writeTx (h : MemoryOk s) (i : Nat) (b : Byte) : MemoryOk (writeTx i b s) := by
  obtain ⟨htx, hrx, htxb, hrxb, hlen⟩ := h
  exact ⟨wf_txb_writeTx i b htx, by simpa using hrx, bound_txb_writeTx i b htxb, by simpa using hrxb,
    by simpa using hlen⟩

theorem writeRx (h : MemoryOk s) (i : Nat) (b : Byte) : MemoryOk (writeRx i b s) := by
  obtain ⟨htx, hrx, htxb, hrxb, hlen⟩ := h
  exact ⟨by simpa using htx, wf_rxb_writeRx i b hrx, by simpa using htxb, bound_rxb_writeRx i b hrxb,
    by simpa using hlen⟩

theorem writeTxs (h : MemoryOk s) (i : Nat) (bs : List Byte) : MemoryOk (writeTxs i bs s) := by
  induction bs generalizing i s with
  | nil => exact h
  | cons b bs ih => exact ih (h.writeTx i b) (i + 1)

theorem setDescriptor (h : MemoryOk s) (k : BitVec 1) {n : Nat} (hn : n ≤ 261) : MemoryOk (setDescriptor k n s) := by
  obtain ⟨htx, hrx, htxb, hrxb, -⟩ := h
  exact ⟨htx, hrx, htxb, hrxb, (BitVec.toNat_ofNat n 9).trans_le ((Nat.mod_le _ _).trans hn)⟩

theorem setChecksum (h : MemoryOk s) : MemoryOk (setChecksum s) := h.writeTx _ _

theorem setLength (h : MemoryOk s) : MemoryOk (setLength s) := (h.writeTx _ _).writeTx _ _

theorem setFcb (h : MemoryOk s) : MemoryOk (setFcb s) := h.writeTx _ _

/-- A frame of at most 261 bytes keeps TXB in bounds and TXLEN legal (41_frame_builder.md R150). -/
theorem build (h : MemoryOk s) (k : BitVec 1) {bs : List Byte} (hn : bs.length ≤ 261) : MemoryOk (build k bs s) := by
  have hd := (h.writeTxs 0 bs).setDescriptor k hn
  unfold Machine.build
  dsimp only
  split
  · exact hd.setLength.setChecksum
  · exact hd.setChecksum

theorem ifCorrectlySized (h : MemoryOk s) {body : State → State} (hb : MemoryOk (body s)) :
    MemoryOk (ifCorrectlySized body s) := by
  rcases ifCorrectlySized_cases body s with ⟨-, e⟩ | ⟨-, e⟩ <;> rw [e]
  · exact hb
  · exact h.raise _ _ _

theorem pushRx (h : MemoryOk s) (b : Byte) : MemoryOk (pushRx b s) := (h.writeRx _ b).congr rfl rfl rfl

theorem slideRx (h : MemoryOk s) (b : Byte) : MemoryOk (slideRx b s) :=
  (((h.writeRx 0 _).writeRx 1 _).writeRx 2 _).writeRx 3 b

theorem searchByte (h : MemoryOk s) (b : Byte) : MemoryOk (searchByte b s) := by
  have hwindow : MemoryOk (if s.rxlen.toNat < 4 then Machine.pushRx b s else Machine.slideRx b s) := by
    split
    · exact h.pushRx b
    · exact h.slideRx b
  unfold Machine.searchByte
  generalize (if s.rxlen.toNat < 4 then Machine.pushRx b s else Machine.slideRx b s) = u at hwindow
  dsimp only
  split
  · exact hwindow.congr rfl rfl rfl
  · exact hwindow

theorem lfIncomplete (h : MemoryOk s) : MemoryOk (lfIncomplete s) := by
  rcases lfIncomplete_cases s with ⟨-, e⟩ | ⟨-, e⟩ <;> rw [e]
  · exact h.congr rfl rfl rfl
  · exact h.goto _

theorem lfComplete (h : MemoryOk s) : MemoryOk (lfComplete s) := by
  rcases lfComplete_cases s with ⟨-, e⟩ | ⟨-, e⟩ <;> rw [e]
  · exact h.goto _
  · exact h.finish

theorem scanByte (h : MemoryOk s) (b : Byte) : MemoryOk (scanByte b s) := by
  have hcount : MemoryOk (countByte s) := h.congr rfl rfl rfl
  rcases scanByte_cases b s with ⟨-, e⟩ | ⟨-, -, e⟩ | ⟨-, -, e⟩ <;> rw [e]
  · exact (hcount.searchByte b).lfIncomplete
  · exact (hcount.pushRx b).lfComplete
  · exact (hcount.pushRx b).lfIncomplete

theorem stepLfRd (h : MemoryOk s) : MemoryOk (stepLfRd s) := by
  rcases stepLfRd_cases s with ⟨-, e⟩ | ⟨a, rest, u, -, rfl, ⟨b, -, e⟩ | ⟨_, -, e⟩ | ⟨_, -, e⟩⟩ <;> rw [e]
  · exact h
  · have hanswered : MemoryOk { s with readAns := rest, wire := s.wire ++ [.read a] } := h.congr rfl rfl rfl
    exact hanswered.scanByte b
  · exact h.congr rfl rfl rfl
  · exact h.congr rfl rfl rfl

/-- ScanInit leaves TXB, RXB and TXLEN (42_transport_io.md R175). -/
theorem scanInit (h : MemoryOk s) : MemoryOk (scanInit s) := h.congr rfl rfl rfl

theorem stepReqBuild (h : MemoryOk s) : MemoryOk (stepReqBuild s) := by
  have hb := h.build 1 (bs := reqBytes s) (by simp [reqBytes, longBytes])
  unfold Machine.stepReqBuild
  dsimp only
  split
  · exact hb.setFcb.setChecksum.scanInit.goto _
  · exact hb.setChecksum.scanInit.goto _

/-- Of the sequencer's steps REQ_BUILD alone writes TXB, LF_RD alone RXB. -/
theorem seqStep (h : MemoryOk s) : MemoryOk (seqStep s) := by
  by_cases hbuild : s.pc = .reqBuild
  · exact seqStep_reqBuild hbuild ▸ h.stepReqBuild
  · by_cases hread : s.pc = .lfRd
    · exact seqStep_lfRd hread ▸ h.stepLfRd
    · have hframe := seqStep_frame s
      obtain ⟨htxb, htxlen, -⟩ := hframe.txFrame hbuild
      exact h.congr htxb (hframe.rxb hread) htxlen

theorem acceptOf (h : MemoryOk s) (i : Instr) : MemoryOk (acceptOf i s) := by
  cases i with
  | setcs => exact h.ifCorrectlySized h.setChecksum.finish
  | setlen =>
    rcases acceptSetlen_cases s with ⟨-, -, e⟩ | e <;> rw [Machine.acceptOf, e]
    · exact h.setLength.finish
    · exact h.raise _ _ _
  | getfcb => exact h.ifCorrectlySized (h.congr rfl rfl rfl)
  | setfcb => exact h.ifCorrectlySized h.setFcb.finish
  | bldNke => exact (h.build 0 (bs := nkeBytes s) (by simp [nkeBytes])).finish
  | bldApprst => exact (h.build 1 (bs := apprstBytes s) (by simp [apprstBytes, longBytes])).finish
  | bldReq => exact (h.build 1 (bs := reqBytes s) (by simp [reqBytes, longBytes])).finish
  | bldPage => exact (h.build 1 (bs := pageBytes s) (by simp [pageBytes, longBytes])).finish
  | bldSetsec => exact (h.build 1 (setsecBytes_length_le s)).finish
  | bldSetpri => exact (h.build 1 (bs := setpriBytes s) (by simp [setpriBytes, longBytes])).finish
  | send => exact h.ifCorrectlySized (h.setChecksum.goto _)
  | rdack | rdlong => exact h.congr rfl rfl rfl
  | decode =>
    rcases acceptDecode_cases s with ⟨-, e⟩ | ⟨-, e⟩ <;> rw [Machine.acceptOf, e]
    · exact h.raise _ _ _
    · exact h.congr rfl rfl rfl
  | rd1 | rdall =>
    have hclear : MemoryOk (clearRes s) := h.congr rfl rfl rfl
    exact (hclear.build 0 (bs := nkeBytes s) (by simp [nkeBytes])).goto _
  | pagechg => exact (h.build 1 (bs := pageBytes s) (by simp [pageBytes, longBytes])).goto _

/-- A host write of TXLEN stores at most 261 (10_state.md R30). -/
theorem storeReg (h : MemoryOk s) (r : Reg) (v : Nat) : MemoryOk (storeReg r v s) := by
  cases r with
  | TXLEN =>
    obtain ⟨htx, hrx, htxb, hrxb, -⟩ := h
    exact ⟨htx, hrx, htxb, hrxb, clampTxlen_le _⟩
  | _ => exact h.congr rfl rfl rfl

end MemoryOk

theorem step_keeps_memoryOk : ∀ s t : State, MemoryOk s → step s = .next t → MemoryOk t :=
  step_keeps MemoryOk
    (hHost := fun _ _ _ _ h => h.congr rfl rfl rfl)
    (hSeq := fun _ h => h.seqStep)
    (hBusy := fun _ _ h => h.congr rfl rfl rfl)
    (hAccept := fun i s _ h => MemoryOk.acceptOf (s := accept i.code s) (h.congr rfl rfl rfl) i)
    (hIllegal := fun _ _ _ h => h.congr rfl rfl rfl)
    (hReg := fun r v _ _ h => h.storeReg r v)
    (hTx := fun i b _ _ h => h.writeTx i b)
    (hReset := fun _ _ => ⟨Memory.wf_nil, Memory.wf_nil, nofun, nofun, Nat.zero_le _⟩)

/-! ### What a step does to port T and to the registers whose width is a parameter

A sequencer step and a command's acceptance act alike: each makes at most one transaction on port T, keeps TMO, and keeps
ERRENV and RESCNT or writes them within their widths. -/

/-- The sequencer is about to read port T. -/
def Pc.reads : Pc → Bool
  | .ackRd | .lfRd => true
  | .idle | .txCmd | .ackArm | .loop | .reqBuild | .txReq | .lfArm | .verify | .decode => false

theorem Pc.reads_iff (p : Pc) : p.reads = true ↔ p = .ackRd ∨ p = .lfRd := by cases p <;> decide

/-- The log of port T after at most one transaction; only ACK_RD and LF_RD read (42_transport_io.md R173, R177). -/
inductive LogAfter (s : State) : List PortEvent → Prop
  | none : LogAfter s s.wire
  | write (bs : List Byte) (a : CtlAnswer) : LogAfter s (s.wire ++ [.write bs a])
  | deadline (t : Nat) (a : CtlAnswer) : LogAfter s (s.wire ++ [.setDeadline t a])
  | read (a : ReadAnswer) (h : s.pc.reads = true) : LogAfter s (s.wire ++ [.read a])

/-- What an action has done to the log and to TMO, ERRENV and RESCNT of `s` when it reaches `t`. -/
structure ActsOn (s t : State) : Prop where
  params : t.params = s.params
  tmo : t.tmo = s.tmo
  errenv : t.errenv = s.errenv ∨ t.errenv < 2 ^ s.params.envW
  rescnt : t.rescnt = s.rescnt ∨ t.rescnt < 2 ^ rescntWidth s.params
  log : LogAfter s t.wire

namespace ActsOn

variable {s u v : State}

theorem refl (s : State) : ActsOn s s := ⟨rfl, rfl, .inl rfl, .inl rfl, .none⟩

/-- One transaction on port T, answered. -/
theorem transaction {e : PortEvent} (he : LogAfter s (s.wire ++ [e])) (w d : List CtlAnswer) (r : List ReadAnswer) :
    ActsOn s { s with writeAns := w, deadlineAns := d, readAns := r, wire := s.wire ++ [e] } :=
  ⟨rfl, rfl, .inl rfl, .inl rfl, he⟩

/-- The other fields do not matter. -/
theorem congr (h : ActsOn s u) (hp : v.params = u.params) (ht : v.tmo = u.tmo) (he : v.errenv = u.errenv)
    (hr : v.rescnt = u.rescnt) (hw : v.wire = u.wire) : ActsOn s v := by
  obtain ⟨hp', ht', he', hr', hw'⟩ := h
  exact ⟨hp.trans hp', ht.trans ht', he ▸ he', hr ▸ hr', hw ▸ hw'⟩

theorem finish (h : ActsOn s u) : ActsOn s (finish u) := h.congr rfl rfl rfl rfl rfl

theorem goto (h : ActsOn s u) (q : Pc) : ActsOn s { u with pc := q } := h.congr rfl rfl rfl rfl rfl

/-- RES emptied (43_decode.md R205, 44_session.md R212). -/
theorem clearRes (h : ActsOn s u) : ActsOn s (clearRes u) := { h with rescnt := .inr (Nat.two_pow_pos _) }

/-- The acceptance clears ERRENV (10_state.md R23). -/
theorem accept (h : ActsOn s u) (c : Byte) : ActsOn s (accept c u) := { h with errenv := .inr (Nat.two_pow_pos _) }

/-- An abort cuts ERRENV to ENV_W bits and clears RESCNT or keeps it (60_exceptions.md R250). -/
theorem raise (h : ActsOn s u) (k : ErrKind) (sub : Byte) (env : Nat) : ActsOn s (raise k sub env u) :=
  { h with
    errenv := .inr (h.params ▸ Nat.mod_lt _ (Nat.two_pow_pos _))
    rescnt := by
      by_cases hf : fillsRes u.op = true
      · exact .inr (by simp [hf])
      · simpa [hf] using h.rescnt }

/-- RESCNT counts within its width (43_decode.md R204). -/
theorem appendRes (h : ActsOn s u) (record : RecVal) (more : Bool) : ActsOn s (appendRes record more u) :=
  { h with rescnt := .inr (h.params ▸ Nat.mod_lt _ (Nat.two_pow_pos _)) }

theorem dropRx (h : ActsOn s u) : ActsOn s { u with rxlen := 0 } := h.congr rfl rfl rfl rfl rfl

theorem scan (h : ActsOn s u) (hv : SameButScanner u v) : ActsOn s v := by
  rw [hv]
  exact h.congr rfl rfl rfl rfl rfl

theorem build (h : ActsOn s u) (k : BitVec 1) (bs : List Byte) : ActsOn s (build k bs u) := by
  rw [build_frame]
  exact h.congr rfl rfl rfl rfl rfl

theorem setChecksum (h : ActsOn s u) : ActsOn s (setChecksum u) := by
  rw [setChecksum_frame]
  exact h.congr rfl rfl rfl rfl rfl

theorem setLength (h : ActsOn s u) : ActsOn s (setLength u) := by
  rw [setLength_frame]
  exact h.congr rfl rfl rfl rfl rfl

theorem setFcb (h : ActsOn s u) : ActsOn s (setFcb u) := by
  rw [setFcb_frame]
  exact h.congr rfl rfl rfl rfl rfl

theorem scanInit (h : ActsOn s u) : ActsOn s (scanInit u) := h.congr rfl rfl rfl rfl rfl

end ActsOn

/-- What a sequencer step or an acceptance can do: wait for an answer (70_reset_and_hazards.md R311), set the deadline to
TMO and go on (42_transport_io.md R172, R176), or act and go to a state that does not read. -/
inductive Outcome (s : State) : State → Prop
  | wait : Outcome s s
  | arm (rest : List CtlAnswer) (q : Pc) :
    Outcome s { s with deadlineAns := rest, wire := s.wire ++ [.setDeadline s.tmo .ok], pc := q }
  | act {t : State} (h : ActsOn s t) (hq : t.pc.reads = false) : Outcome s t

/-! ### The outcome of every acceptance (10_state.md R23, 30_encoding.md R113) -/

theorem ActsOn.ifCorrectlySized {s u : State} (h : ActsOn s u) {body : State → State} (hb : Outcome s (body u)) :
    Outcome s (ifCorrectlySized body u) := by
  rcases ifCorrectlySized_cases body u with ⟨-, e⟩ | ⟨-, e⟩ <;> rw [e]
  · exact hb
  · exact .act (h.raise _ _ _) rfl

theorem ActsOn.acceptOf {s u : State} (h : ActsOn s u) (i : Instr) : Outcome s (acceptOf i u) := by
  cases i with
  | setcs =>
    change Outcome s (acceptSetcs u)
    exact h.ifCorrectlySized (.act h.setChecksum.finish rfl)
  | setlen =>
    rcases acceptSetlen_cases u with ⟨-, -, e⟩ | e <;> rw [Machine.acceptOf, e]
    · exact .act h.setLength.finish rfl
    · exact .act (h.raise _ _ _) rfl
  | getfcb =>
    change Outcome s (acceptGetfcb u)
    exact h.ifCorrectlySized (.act (h.congr rfl rfl rfl rfl rfl) rfl)
  | setfcb =>
    change Outcome s (acceptSetfcb u)
    exact h.ifCorrectlySized (.act h.setFcb.finish rfl)
  | bldNke | bldApprst | bldReq | bldPage | bldSetsec | bldSetpri => exact .act (h.build _ _).finish rfl
  | send =>
    change Outcome s (acceptSend u)
    exact h.ifCorrectlySized (.act (h.setChecksum.goto _) rfl)
  | rdack => exact .act (h.goto _) rfl
  | rdlong => exact .act (h.scanInit.goto _) rfl
  | decode =>
    rcases acceptDecode_cases u with ⟨-, e⟩ | ⟨-, e⟩ <;> rw [Machine.acceptOf, e]
    · exact .act (h.raise _ _ _) rfl
    · exact .act (h.clearRes.congr rfl rfl rfl rfl rfl) rfl
  | rd1 | rdall => exact .act ((h.clearRes.build _ _).goto _) rfl
  | pagechg => exact .act ((h.build _ _).goto _) rfl

theorem accepted_outcome (i : Instr) (s : State) : Outcome s (acceptOf i (accept i.code s)) :=
  ((ActsOn.refl s).accept _).acceptOf i

theorem illegal_outcome (c : Byte) (s : State) : Outcome s (raise .illegalCmd 0 0 (accept c s)) :=
  .act (((ActsOn.refl s).accept c).raise _ _ _) rfl

/-! ### The outcome of every sequencer step (44_session.md R230) -/

theorem stepTxCmd_outcome (s : State) : Outcome s (stepTxCmd s) := by
  rcases stepTxCmd_cases s with ⟨-, e⟩ | ⟨a, rest, u, -, rfl, ⟨-, -, e⟩ | ⟨-, -, e⟩ | ⟨_, -, e⟩⟩ <;> rw [e]
  · exact .wait
  · exact .act (ActsOn.transaction (.write _ _) _ _ _).finish rfl
  · exact .act ((ActsOn.transaction (.write _ _) _ _ _).goto _) rfl
  · exact .act ((ActsOn.transaction (.write _ _) _ _ _).raise _ _ _) rfl

theorem stepTxReq_outcome (s : State) : Outcome s (stepTxReq s) := by
  rcases stepTxReq_cases s with ⟨-, e⟩ | ⟨a, rest, u, -, rfl, ⟨-, e⟩ | ⟨_, -, e⟩⟩ <;> rw [e]
  · exact .wait
  · exact .act ((ActsOn.transaction (.write _ _) _ _ _).goto _) rfl
  · exact .act ((ActsOn.transaction (.write _ _) _ _ _).raise _ _ _) rfl

theorem stepAckArm_outcome (s : State) : Outcome s (stepAckArm s) := by
  rcases stepAckArm_cases s with ⟨-, e⟩ | ⟨a, rest, u, -, rfl, ⟨rfl, e⟩ | ⟨_, -, e⟩⟩ <;> rw [e]
  · exact .wait
  · exact .arm rest .ackRd
  · exact .act ((ActsOn.transaction (.deadline _ _) _ _ _).raise _ _ _) rfl

theorem stepLfArm_outcome (s : State) : Outcome s (stepLfArm s) := by
  rcases stepLfArm_cases s with ⟨-, e⟩ | ⟨a, rest, u, -, rfl, ⟨rfl, e⟩ | ⟨_, -, e⟩⟩ <;> rw [e]
  · exact .wait
  · exact .arm rest .lfRd
  · exact .act ((ActsOn.transaction (.deadline _ _) _ _ _).dropRx.raise _ _ _) rfl

/-- A read made in a state that reads. -/
theorem ActsOn.read {s : State} (hs : s.pc.reads = true) (a : ReadAnswer) (rest : List ReadAnswer) :
    ActsOn s { s with readAns := rest, wire := s.wire ++ [.read a] } := .transaction (.read a hs) _ _ _

theorem stepAckRd_outcome {s : State} (hs : s.pc.reads = true) : Outcome s (stepAckRd s) := by
  rcases stepAckRd_cases s with ⟨-, e⟩ | ⟨a, rest, u, -, rfl,
    ⟨-, -, e⟩ | ⟨-, -, e⟩ | ⟨_, -, -, e⟩ | ⟨_, -, e⟩ | ⟨_, -, e⟩⟩ <;> rw [e]
  · exact .wait
  · exact .act ((ActsOn.read hs a rest).congr rfl rfl rfl rfl rfl) rfl
  · exact .act (ActsOn.read hs a rest).finish rfl
  · exact .act ((ActsOn.read hs a rest).goto _) rfl
  · exact .act ((ActsOn.read hs a rest).raise _ _ _) rfl
  · exact .act ((ActsOn.read hs a rest).raise _ _ _) rfl

theorem ActsOn.lfIncomplete {s u : State} (h : ActsOn s u) : Outcome s (lfIncomplete u) := by
  rcases lfIncomplete_cases u with ⟨-, e⟩ | ⟨-, e⟩ <;> rw [e]
  · exact .act (h.dropRx.raise _ _ _) rfl
  · exact .act (h.goto _) rfl

theorem ActsOn.lfComplete {s u : State} (h : ActsOn s u) : Outcome s (lfComplete u) := by
  rcases lfComplete_cases u with ⟨-, e⟩ | ⟨-, e⟩ <;> rw [e]
  · exact .act (h.goto _) rfl
  · exact .act h.finish rfl

theorem ActsOn.scanByte {s u : State} (h : ActsOn s u) (b : Byte) : Outcome s (scanByte b u) := by
  rcases scanByte_cases b u with ⟨-, e⟩ | ⟨-, -, e⟩ | ⟨-, -, e⟩ <;> rw [e]
  · exact (h.scan (sameButScanner_searchByte b u)).lfIncomplete
  · exact (h.scan (sameButScanner_pushRx b u)).lfComplete
  · exact (h.scan (sameButScanner_pushRx b u)).lfIncomplete

theorem stepLfRd_outcome {s : State} (hs : s.pc.reads = true) : Outcome s (stepLfRd s) := by
  rcases stepLfRd_cases s with ⟨-, e⟩ | ⟨a, rest, u, -, rfl, ⟨b, -, e⟩ | ⟨_, -, e⟩ | ⟨_, -, e⟩⟩ <;> rw [e]
  · exact .wait
  · exact (ActsOn.read hs a rest).scanByte b
  · exact .act ((ActsOn.read hs a rest).dropRx.raise _ _ _) rfl
  · exact .act ((ActsOn.read hs a rest).dropRx.raise _ _ _) rfl

theorem stepLoop_outcome (s : State) : Outcome s (stepLoop s) := by
  rcases stepLoop_cases s with ⟨-, e⟩ | ⟨-, -, e⟩ | ⟨-, -, e⟩ <;> rw [e]
  · exact .act ((ActsOn.refl s).congr rfl rfl rfl rfl rfl) rfl
  · exact .act ((ActsOn.refl s).congr rfl rfl rfl rfl rfl) rfl
  · exact .act (ActsOn.refl s).finish rfl

theorem stepReqBuild_outcome (s : State) : Outcome s (stepReqBuild s) := by
  have hb := (ActsOn.refl s).build 1 (reqBytes s)
  refine .act ?_ rfl
  unfold stepReqBuild
  dsimp only
  split
  · exact hb.setFcb.setChecksum.scanInit.goto _
  · exact hb.setChecksum.scanInit.goto _

theorem stepVerify_outcome (s : State) : Outcome s (stepVerify s) := by
  rcases stepVerify_cases s with ⟨-, e⟩ | ⟨-, -, e⟩ | ⟨-, -, e⟩ <;> rw [e]
  · exact .act ((ActsOn.refl s).raise _ _ _) rfl
  · exact .act ((ActsOn.refl s).raise _ _ _) rfl
  · exact .act ((ActsOn.refl s).goto _) rfl

theorem stepDecode_outcome (s : State) : Outcome s (stepDecode s) := by
  rcases stepDecode_cases s with ⟨_, -, e⟩ | ⟨record, more, -, ⟨-, e⟩ | ⟨-, -, e⟩ | ⟨-, -, e⟩⟩ <;> rw [e]
  · exact .act ((ActsOn.refl s).raise _ _ _) rfl
  · exact .act ((ActsOn.refl s).raise _ _ _) rfl
  · exact .act (((ActsOn.refl s).appendRes record more).goto _) rfl
  · exact .act ((ActsOn.refl s).appendRes record more).finish rfl

theorem seqStep_outcome (s : State) : Outcome s (seqStep s) := by
  cases h : s.pc with
  | idle => exact (seqStep_idle h).symm ▸ .wait
  | txCmd => exact seqStep_txCmd h ▸ stepTxCmd_outcome s
  | ackArm => exact seqStep_ackArm h ▸ stepAckArm_outcome s
  | ackRd => exact seqStep_ackRd h ▸ stepAckRd_outcome (by rw [h]; rfl)
  | loop => exact seqStep_loop h ▸ stepLoop_outcome s
  | reqBuild => exact seqStep_reqBuild h ▸ stepReqBuild_outcome s
  | txReq => exact seqStep_txReq h ▸ stepTxReq_outcome s
  | lfArm => exact seqStep_lfArm h ▸ stepLfArm_outcome s
  | lfRd => exact seqStep_lfRd h ▸ stepLfRd_outcome (by rw [h]; rfl)
  | verify => exact seqStep_verify h ▸ stepVerify_outcome s
  | decode => exact seqStep_decode h ▸ stepDecode_outcome s


/-! ### Register widths (00_scope.md R6, 10_state.md R22, R28, R32) -/

namespace WidthsOk

variable {s t : State}

/-- The invariant looks at TMO, ERRENV, RESCNT and the parameters alone. -/
theorem congr (h : WidthsOk s) (ht : t.tmo = s.tmo) (he : t.errenv = s.errenv) (hr : t.rescnt = s.rescnt)
    (hp : t.params = s.params) : WidthsOk t := by
  rwa [WidthsOk, ht, he, hr, hp]

theorem outcome (h : WidthsOk s) (ho : Outcome s t) : WidthsOk t := by
  cases ho with
  | wait => exact h
  | arm => exact h.congr rfl rfl rfl rfl
  | act ha =>
    obtain ⟨htmo, herrenv, hrescnt⟩ := h
    rw [WidthsOk, ha.params, ha.tmo]
    exact ⟨htmo, ha.errenv.elim (fun e => e ▸ herrenv) id, ha.rescnt.elim (fun e => e ▸ hrescnt) id⟩

/-- A host write of TMO is cut to TMO_W bits (10_state.md R33). -/
theorem storeReg (h : WidthsOk s) (r : Reg) (v : Nat) : WidthsOk (storeReg r v s) := by
  cases r with
  | TMO =>
    obtain ⟨-, herrenv, hrescnt⟩ := h
    exact ⟨Nat.mod_lt _ (Nat.two_pow_pos _), herrenv, hrescnt⟩
  | _ => exact h.congr rfl rfl rfl rfl

theorem hwReset (s : State) : WidthsOk (hwReset s) :=
  ⟨Nat.mod_lt _ (Nat.two_pow_pos _), Nat.two_pow_pos _, Nat.two_pow_pos _⟩

end WidthsOk

theorem step_keeps_widthsOk : ∀ s t : State, WidthsOk s → step s = .next t → WidthsOk t :=
  step_keeps WidthsOk
    (hHost := fun _ _ _ _ h => h.congr rfl rfl rfl rfl)
    (hSeq := fun s h => h.outcome (seqStep_outcome s))
    (hBusy := fun _ _ h => h.congr rfl rfl rfl rfl)
    (hAccept := fun i s _ h => h.outcome (accepted_outcome i s))
    (hIllegal := fun c s _ h => h.outcome (illegal_outcome c s))
    (hReg := fun r v _ _ h => h.storeReg r v)
    (hTx := fun _ _ _ _ h => h.congr (by simp) (by simp) (by simp) (by simp))
    (hReset := fun s _ => .hwReset s)

/-- Settles O53: each of the two invariants through the package of Laws/Step.lean. -/
theorem stepKeepsBuffersCanonical : Obligations.StepKeepsBuffersCanonical :=
  fun s t hstep => ⟨fun h => step_keeps_memoryOk s t h hstep, fun h => step_keeps_widthsOk s t h hstep⟩

/-! ### Every read is armed (20_memory.md R68, R76) -/

/-- Every read in a log directly follows a deadline set with success. -/
def ReadsArmed (w : List PortEvent) : Prop :=
  ∀ i a, w[i]? = some (.read a) → ∃ j t, i = j + 1 ∧ w[j]? = some (.setDeadline t .ok)

theorem deadlinesOk_iff (s : State) :
    DeadlinesOk s ↔ ReadsArmed s.wire ∧ (s.pc.reads = true → s.wire.getLast? = some (.setDeadline s.tmo .ok)) := by
  rw [Pc.reads_iff]
  rfl

/-- One more transaction keeps the reads armed if it is no read or the last one set the deadline. -/
theorem ReadsArmed.append {w : List PortEvent} {e : PortEvent} (h : ReadsArmed w)
    (he : ∀ a, e = .read a → ∃ t, w.getLast? = some (.setDeadline t .ok)) : ReadsArmed (w ++ [e]) := by
  intro i a hi
  rcases Nat.lt_trichotomy i w.length with hlt | rfl | hgt
  · rw [List.getElem?_append_left hlt] at hi
    obtain ⟨j, t, rfl, hj⟩ := h i a hi
    exact ⟨j, t, rfl, by rw [List.getElem?_append_left (by omega), hj]⟩
  · obtain ⟨t, ht⟩ := he a (by simpa using hi)
    have hne : w ≠ [] := by rintro rfl; simp at ht
    have hpos := List.length_pos_iff.2 hne
    rw [List.getLast?_eq_getElem?] at ht
    exact ⟨w.length - 1, t, by omega, by rw [List.getElem?_append_left (by omega), ht]⟩
  · rw [List.getElem?_eq_none (by simp; omega)] at hi
    cases hi

namespace DeadlinesOk

variable {s t : State}

/-- The invariant looks at the log, PC and TMO alone. -/
theorem congr (h : DeadlinesOk s) (hw : t.wire = s.wire) (hp : t.pc = s.pc) (ht : t.tmo = s.tmo) : DeadlinesOk t := by
  rwa [DeadlinesOk, hw, hp, ht]

/-- Away from ACK_RD and LF_RD TMO does not matter. -/
theorem of_not_reads (h : ReadsArmed t.wire) (hp : t.pc.reads = false) : DeadlinesOk t :=
  (deadlinesOk_iff t).2 ⟨h, fun hr => by simp [hp] at hr⟩

/-- A read is made only in a state that reads, where the last transaction set the deadline. -/
theorem readsArmed_of_logAfter {w : List PortEvent} (h : DeadlinesOk s) (hw : LogAfter s w) : ReadsArmed w := by
  obtain ⟨harmed, hlast⟩ := (deadlinesOk_iff s).1 h
  cases hw with
  | none => exact harmed
  | write | deadline => exact harmed.append nofun
  | read a hr => exact harmed.append fun _ _ => ⟨_, hlast hr⟩

theorem outcome (h : DeadlinesOk s) (ho : Outcome s t) : DeadlinesOk t := by
  cases ho with
  | wait => exact h
  | arm => exact (deadlinesOk_iff _).2 ⟨h.readsArmed_of_logAfter (.deadline _ _), fun _ => List.getLast?_concat⟩
  | act ha hq => exact of_not_reads (h.readsArmed_of_logAfter ha.log) hq

/-- A change to an idle block that leaves the log and PC, TMO or not. -/
theorem of_idle (h : DeadlinesOk s) (hw : t.wire = s.wire) (hp : t.pc = .idle) : DeadlinesOk t :=
  of_not_reads (hw ▸ h.readsArmed_of_logAfter .none) (hp ▸ rfl)

theorem storeReg (h : DeadlinesOk s) (hs : s.pc = .idle) (r : Reg) (v : Nat) : DeadlinesOk (storeReg r v s) := by
  obtain ⟨_, _, _, _, _, _, _, _, _, e⟩ := storeReg_cases r v s
  rw [e]
  exact h.of_idle rfl hs

end DeadlinesOk

/-- Settles O57, through the package of Laws/Step.lean. -/
theorem everyReadIsArmed : Obligations.EveryReadIsArmed :=
  step_keeps DeadlinesOk
    (hHost := fun _ _ _ _ h => h.congr rfl rfl rfl)
    (hSeq := fun s h => h.outcome (seqStep_outcome s))
    (hBusy := fun _ _ h => h.congr rfl rfl rfl)
    (hAccept := fun i s _ h => h.outcome (accepted_outcome i s))
    (hIllegal := fun c s _ h => h.outcome (illegal_outcome c s))
    (hReg := fun r v _ hs h => h.storeReg hs r v)
    (hTx := fun _ _ _ _ h => h.congr (by simp) (by simp) (by simp))
    (hReset := fun _ h => h.of_idle rfl rfl)

/-! ### The host's buffer accesses to an idle block (20_memory.md R61 to R63) -/

theorem busy_of_idle {s : State} (hs : s.pc = .idle) : busy s = false := by simp [busy, hs]

theorem writeBuf_TXB_of_idle {s : State} (i : Nat) (b : Byte) (hs : s.pc = .idle) :
    writeBuf .TXB i b s = writeTx i b s := by simp [writeBuf, busy_of_idle hs]

theorem writeTx_frame (i : Nat) (b : Byte) (s : State) : writeTx i b s = { s with txb := (writeTx i b s).txb } := by
  unfold writeTx
  split <;> rfl

theorem readBuf_TXB_of_idle {s : State} (i : Nat) (hs : s.pc = .idle) :
    readBuf .TXB i s = returnVal (byteVal (txByte s i)) s := by simp [readBuf, busy_of_idle hs]

theorem readBuf_RXB_of_idle {s : State} {i : Nat} (hs : s.pc = .idle) (hi : i < s.rxlen.toNat) :
    readBuf .RXB i s = returnVal (byteVal (rxByte s i)) s := by simp [readBuf, busy_of_idle hs, hi]

theorem readRes_of_idle {s : State} {k : Nat} {e : ResEntry} (f : ResField) (hs : s.pc = .idle)
    (he : s.res[k]? = some e) :
    readRes k f s = returnVal (e.field f) s := by simp [readRes, busy_of_idle hs, he]

/-- TXB has 261 bytes; an index past them reads 0 (R61). -/
theorem txByte_past_end (s : State) {i : Nat} (hi : 261 ≤ i) : txByte s i = 0 := if_neg (Nat.not_lt.2 hi)

/-- Settles O49, access by access. -/
theorem bufferAccessesWhenIdle : Obligations.BufferAccessesWhenIdle := by
  intro s rest hs
  let u : State := { s with moves := rest }
  have hu : u.pc = .idle := hs
  have field {k : Nat} {e : ResEntry} (he : s.res[k]? = some e) (f : ResField) (hm : s.moves = .rdRes k f :: rest) :
      step s = .next (returnVal (e.field f) u) := by
    rw [step_of_move hm]
    exact congrArg Host.Outcome.next (readRes_of_idle f hu he)
  refine ⟨fun i b hm => ?_, fun i b hm => step_of_move hm, fun i hm => ?_, fun i => txByte_past_end s, fun i hm hi => ?_,
    fun k e he => ⟨field he .len, field he .frame, field he .record, field he .more⟩⟩
  · refine ⟨writeTx i b u, ?_, writeTx_frame i b u, fun j => txByte_writeTx u i j b⟩
    rw [step_of_move hm]
    exact congrArg Host.Outcome.next (writeBuf_TXB_of_idle i b hu)
  · rw [step_of_move hm]
    exact congrArg Host.Outcome.next (readBuf_TXB_of_idle i hu)
  · rw [step_of_move hm]
    exact congrArg Host.Outcome.next (readBuf_RXB_of_idle hu hi)

/-! ### No step stops (20_memory.md R70, 60_exceptions.md R250) -/

theorem exec_answers (i : Instr) (s : State) : ∃ t, exec i s = .next t := ⟨_, exec_eq_command i s⟩

theorem writeCmd_answers (c : Byte) (s : State) : ∃ t, writeCmd c s = .next t := by
  unfold writeCmd
  split
  · exact exec_answers _ s
  · exact ⟨_, rfl⟩

theorem writeReg_answers (n : Byte) (v : Nat) (s : State) : ∃ t, writeReg n v s = .next t := by
  unfold writeReg
  split
  · exact writeCmd_answers _ s
  · exact ⟨_, rfl⟩
  · exact ⟨_, rfl⟩

theorem hostMove_answers (m : HostMove) (rest : List HostMove) (s : State) : ∃ t, hostMove m rest s = .next t := by
  cases m with
  | wr n v => exact writeReg_answers n v _
  | _ => exact ⟨_, rfl⟩

/-- Settles O51: of the host's moves only a write to CMD could stop, and every command answers. -/
theorem stepNeverStops : Obligations.StepNeverStops := by
  intro s
  cases hm : s.moves with
  | nil => exact ⟨_, step_of_no_move hm⟩
  | cons m rest =>
    rw [SafeAt, step_of_move hm]
    exact hostMove_answers m rest s

end Sys2Proof.Machine
end

section
/-! PROOF. The encoding family (30_encoding.md): decoding and encoding agree (O1, O2), and an idle block accepts an
illegal code (O3). -/

namespace Sys2Proof.Machine

/-! ### Decoding and encoding agree (R110, R111) -/

theorem decodeCode_code (i : Instr) : decodeCode i.code = some i := by cases i <;> rfl

/-- Every row of the opcode table decodes all 8 bits (R110) and holds the code of its command. -/
theorem opcodeTable_row : ∀ r ∈ opcodeTable, r.mask = BitVec.allOnes 8 ∧ r.code = r.instr.code := by decide

theorem code_of_decodeCode {c : Byte} {i : Instr} (h : decodeCode c = some i) : c = i.code := by
  obtain ⟨r, hfind, rfl⟩ := Option.map_eq_some_iff.1 h
  obtain ⟨hmask, hcode⟩ := opcodeTable_row r (List.mem_of_find?_eq_some hfind)
  have hmatch : c &&& r.mask = r.code := by simpa using List.find?_some hfind
  rwa [hmask, BitVec.and_allOnes, hcode] at hmatch

theorem decodeCode_eq_some_iff (c : Byte) (i : Instr) : decodeCode c = some i ↔ c = i.code :=
  ⟨code_of_decodeCode, fun h => h ▸ decodeCode_code i⟩

theorem decode_encode_append (i : Instr) (rest : List Byte) : decode (encode i ++ rest) = .ok (i, rest) := by
  simp [encode, decode, decodeCode_code]

/-- Settles O1: the code of a command decodes to it, and every row of the table holds its command's code. -/
theorem everyCodeNamesOneCommand : Obligations.EveryCodeNamesOneCommand :=
  fun i => ⟨decode_encode_append i, fun c => decodeCode_eq_some_iff c i⟩

/-! ### Illegal codes (R113) -/

/-- The ranges of R113. -/
def IllegalCode (c : Byte) : Prop :=
  c = 0x00 ∨ 0x05 ≤ c ∧ c ≤ 0x0F ∨ 0x16 ≤ c ∧ c ≤ 0x1F ∨ 0x23 ≤ c ∧ c ≤ 0x2F ∨ 0x31 ≤ c ∧ c ≤ 0x3F ∨ 0x43 ≤ c

theorem not_illegalCode_code (i : Instr) : ¬IllegalCode i.code := by
  unfold IllegalCode
  cases i <;> decide

theorem decodeCode_of_illegalCode {c : Byte} (h : IllegalCode c) : decodeCode c = none :=
  Option.eq_none_iff_forall_ne_some.2 fun i hi => not_illegalCode_code i (code_of_decodeCode hi ▸ h)

theorem decode_of_illegal {c : Byte} (h : decodeCode c = none) (rest : List Byte) :
    decode (c :: rest) = .error (.illegalCmd c) := by simp [decode, h]

/-- Settles O2: five encodings of commands, and a code in an illegal range. -/
theorem sampleCodesDecode : Obligations.SampleCodesDecode :=
  ⟨decode_encode_append .setcs [], decode_encode_append .bldSetsec [], decode_encode_append .rdlong [],
    decode_encode_append .decode [], decode_encode_append .rdall [],
    decode_of_illegal (decodeCode_of_illegalCode (by unfold IllegalCode; decide)) []⟩

/-- The codes whose abort empties RES (60_exceptions.md R250) are legal. -/
theorem fillsRes_of_illegal {c : Byte} (h : decodeCode c = none) : fillsRes c = false := by
  have hne (i : Instr) : (c == i.code) = false := by
    rw [beq_eq_false_iff_ne]
    rintro rfl
    simp [decodeCode_code] at h
  simp [fillsRes, hne]

/-- Acceptance and abort in one step, of a code whose abort leaves RES alone (10_state.md R23, 60_exceptions.md R250). -/
theorem raise_accept {c : Byte} {s : State} (k : ErrKind) (sub : Byte) (hs : s.pc = .idle) (hc : fillsRes c = false) :
    raise k sub 0 (accept c s) = afterAbort c k.code sub s := by
  simp [raise, accept, afterAbort, hc, hs]

theorem writeCmd_of_illegal {c : Byte} (h : decodeCode c = none) (s : State) :
    writeCmd c s = .next (illegalCommand c s) := by simp [writeCmd, decode_of_illegal h]

/-- An idle block accepts an illegal code and only raises IllegalCmd. -/
theorem illegalCommand_of_idle {c : Byte} {s : State} (h : decodeCode c = none) (hs : s.pc = .idle) :
    illegalCommand c s = afterAbort c 6 0 s := by
  rw [illegalCommand, if_pos hs]
  exact raise_accept .illegalCmd 0 hs (fillsRes_of_illegal h)

/-- Settles O3: no command has a code in the ranges, so the host's write to CMD raises IllegalCmd. -/
theorem illegalCodeRaisesIllegalCmd : Obligations.IllegalCodeRaisesIllegalCmd := by
  intro c hc
  have hnone : decodeCode c = none := decodeCode_of_illegalCode hc
  refine ⟨hnone, fun s rest hs hm => ?_⟩
  calc step s = writeCmd (BitVec.ofNat 8 c.toNat) { s with moves := rest } := step_of_move hm
    _ = .next (illegalCommand c { s with moves := rest }) := by
      rw [BitVec.ofNat_toNat, BitVec.setWidth_eq, writeCmd_of_illegal hnone]
    _ = .next { afterAbort c 6 0 s with moves := rest } := by
      rw [illegalCommand_of_idle hnone (s := { s with moves := rest }) hs]
      rfl

end Sys2Proof.Machine
end

section
/-! PROOF. The checksum engine's family (40_checksum_engine.md): the geometry of the frame in TXB (O6), the size check (O7),
the engine's commands (O8 to O12), the sum and the length value (O13), and that every frame on port T carries a fresh
checksum (O58). -/

namespace Sys2Proof.Machine

/-! ### The frame in TXB (R134) -/

/-- The size test is the disjunction of the two descriptors. -/
theorem correctlySized_iff (s : State) : correctlySized s = true ↔ ShortSized s ∨ LongSized s := by
  unfold correctlySized ShortSized LongSized
  rcases BitVec.eq_zero_or_eq_one s.txkind with h | h <;> simp [h]

theorem ShortSized.correctlySized {s : State} (h : ShortSized s) : correctlySized s = true :=
  (correctlySized_iff s).2 (.inl h)

theorem LongSized.correctlySized {s : State} (h : LongSized s) : correctlySized s = true :=
  (correctlySized_iff s).2 (.inr h)

/-- The indices of a short frame. -/
theorem geometry_short {s : State} (h : s.txkind = 0) : cidx s = 1 ∧ sumLo s = 1 ∧ sumHi s = 3 ∧ csidx s = 3 := by
  simp [cidx, sumLo, sumHi, csidx, h]

/-- The indices of a long frame. -/
theorem geometry_long {s : State} (h : s.txkind = 1) :
    cidx s = 4 ∧ sumLo s = 4 ∧ sumHi s = s.txlen.toNat - 2 ∧ csidx s = s.txlen.toNat - 2 := by
  simp [cidx, sumLo, sumHi, csidx, h]

/-- The length value of a long frame fits its byte. -/
theorem LongSized.toNat_lval {s : State} (h : LongSized s) : (lval s).toNat = s.txlen.toNat - 6 := by
  obtain ⟨-, -, h261⟩ := h
  simp only [lval, BitVec.toNat_ofNat]
  omega

/-- Settles O6, clause by clause. -/
theorem frameGeometry : Obligations.FrameGeometry := by
  refine fun s => ⟨correctlySized_iff s, geometry_short, geometry_long, fun h => ⟨h.toNat_lval, ?_⟩⟩
  obtain ⟨-, h9, -⟩ := id h
  rw [h.toNat_lval]
  omega

/-- The checksum of a short frame is C + A (30_encoding.md R95). -/
theorem txChecksum_short {s : State} (h : s.txkind = 0) : txChecksum s = txByte s 1 + txByte s 2 := by
  obtain ⟨-, hlo, hhi, -⟩ := geometry_short h
  simp [txChecksum, hlo, hhi, txBytes, readFrom, sumBytes]

/-- The checksum of a long frame sums the bytes from C to the last before the checksum (30_encoding.md R95). -/
theorem txChecksum_long {s : State} (h : s.txkind = 1) : txChecksum s = sumBytes (txBytes s 4 (s.txlen.toNat - 6)) := by
  obtain ⟨-, hlo, hhi, -⟩ := geometry_long h
  rw [txChecksum, hlo, hhi, Nat.sub_sub]

/-! ### The sum and the length value (R136) -/

theorem toNat_sumBytes (bs : List Byte) : (sumBytes bs).toNat = (bs.map BitVec.toNat).sum % 256 := by
  induction bs with
  | nil => rfl
  | cons b bs ih => simp [sumBytes, ih]

/-- Settles O13: `Sum` by induction and its law of concatenation, and the length value of a long frame. -/
theorem checksumIsTheSumMod256 : Obligations.ChecksumIsTheSumMod256 := by
  refine ⟨toNat_sumBytes, fun a b => ?_, fun s h => ?_⟩
  · rw [sumBytes_append, sumBytes_append, BitVec.add_comm]
  · obtain ⟨-, h9, -⟩ := id h
    rw [h.toNat_lval]
    omega

/-! ### The size check (R135) -/

/-- A frame of neither size fails the size test. -/
theorem not_correctlySized {s : State} (hshort : ¬ShortSized s) (hlong : ¬LongSized s) : ¬correctlySized s = true :=
  fun h => ((correctlySized_iff s).1 h).elim hshort hlong

theorem acceptSetlen_of_not_long {s : State} (h : ¬LongSized s) : acceptSetlen s = raise .badSize 1 0 s := by
  rcases acceptSetlen_cases s with ⟨hk, hsized, -⟩ | e
  · rcases (correctlySized_iff s).1 hsized with ⟨hk', -⟩ | hlong
    · simp [hk] at hk'
    · exact absurd hlong h
  · exact e

/-- A command with the size check raises on a frame of another size, and its abort leaves RES alone (R135,
60_exceptions.md R250). -/
theorem acceptOf_of_wrong_size {i : Instr} {s : State}
    (h : (i = .setcs ∨ i = .getfcb ∨ i = .setfcb ∨ i = .send) ∧ ¬ShortSized s ∧ ¬LongSized s ∨
      i = .setlen ∧ ¬LongSized s) :
    acceptOf i s = raise .badSize 1 0 s ∧ fillsRes i.code = false := by
  rcases h with ⟨hi, hshort, hlong⟩ | ⟨rfl, hlong⟩
  · have hsize := not_correctlySized hshort hlong
    rcases hi with rfl | rfl | rfl | rfl <;> exact ⟨if_neg hsize, rfl⟩
  · exact ⟨acceptSetlen_of_not_long hlong, rfl⟩

/-- Settles O7: acceptance leaves the frame as it is, so the size check fails. -/
theorem wrongSizeRaisesBadSize : Obligations.WrongSizeRaisesBadSize := by
  intro s i hs hi
  obtain ⟨hraise, hres⟩ := acceptOf_of_wrong_size (s := accept i.code s) hi
  rw [exec_of_idle i hs, hraise, raise_accept .badSize 1 hs hres]
  rfl

/-! ### The engine's commands (R130 to R133) -/

@[simp] theorem txByte_finish (s : State) (j : Nat) : txByte (finish s) j = txByte s j := txByte_congr rfl rfl j

/-- Acceptance and completion in one step, of an action on TXB alone. -/
theorem finish_accept_frame {c : Byte} {s : State} {body : State → State}
    (hbody : ∀ u, body u = { u with txb := (body u).txb }) (hs : s.pc = .idle) :
    finish (body (accept c s)) = { afterCommand c s with txb := (finish (body (accept c s))).txb } := by
  rw [hbody]
  simp [finish, accept, afterCommand, hs]

/-- After such a step the block is idle and TXB has the same descriptor. -/
theorem descriptor_of_frame {c : Byte} {s t : State} (hs : s.pc = .idle)
    (ht : t = { afterCommand c s with txb := t.txb }) : t.pc = .idle ∧ t.txkind = s.txkind ∧ t.txlen = s.txlen := by
  rw [ht]
  exact ⟨hs, rfl, rfl⟩

/-- SETCS on a frame of either size (R130). -/
theorem exec_setcs_of_sized {s : State} (hs : s.pc = .idle) (h : correctlySized s = true) :
    ∃ t, exec .setcs s = .next t ∧ t = { afterCommand 0x01 s with txb := t.txb } ∧
      ∀ i, txByte t i = if i = csidx s then txChecksum s else txByte s i := by
  refine ⟨finish (setChecksum (accept 0x01 s)), ?_, finish_accept_frame setChecksum_frame hs, fun i => ?_⟩
  · exact (exec_of_idle .setcs hs).trans (congrArg _ (if_pos h))
  · obtain ⟨hslot, -, -⟩ := csidx_of_sized h
    rw [txByte_finish]
    exact txByte_setChecksum (accept 0x01 s) i hslot

/-- SETCS on a long frame (R130, R134). -/
theorem exec_setcs_of_long {s : State} (hs : s.pc = .idle) (h : LongSized s) :
    ∃ t, exec .setcs s = .next t ∧ t = { afterCommand 0x01 s with txb := t.txb } ∧
      ∀ i, txByte t i = if i = s.txlen.toNat - 2 then sumBytes (txBytes s 4 (s.txlen.toNat - 6)) else txByte s i := by
  obtain ⟨hk, -, -⟩ := id h
  obtain ⟨-, -, -, hcs⟩ := geometry_long hk
  rw [← txChecksum_long hk, ← hcs]
  exact exec_setcs_of_sized hs h.correctlySized

/-- SETLEN on a long frame (R131). -/
theorem exec_setlen_of_long {s : State} (hs : s.pc = .idle) (h : LongSized s) :
    ∃ t, exec .setlen s = .next t ∧ t = { afterCommand 0x02 s with txb := t.txb } ∧
      ∀ i, txByte t i = if i = 1 ∨ i = 2 then BitVec.ofNat 8 (s.txlen.toNat - 6) else txByte s i := by
  refine ⟨finish (setLength (accept 0x02 s)), ?_, finish_accept_frame setLength_frame hs, fun i => ?_⟩
  · obtain ⟨hk, -, -⟩ := id h
    exact (exec_of_idle .setlen hs).trans (congrArg _ ((if_pos hk).trans (if_pos h.correctlySized)))
  · rw [txByte_finish]
    exact txByte_setLength (accept 0x02 s) i

/-- GETFCB on a frame of either size (R132). -/
theorem exec_getfcb_of_sized {s : State} (hs : s.pc = .idle) (h : correctlySized s = true) :
    exec .getfcb s = .next { afterCommand 0x03 s with rval := fcbOf (txByte s (cidx s)) } := by
  have haccept : acceptOf .getfcb (accept 0x03 s) = finish { accept 0x03 s with rval := fcbOf (txByte s (cidx s)) } :=
    if_pos h
  rw [exec_of_idle .getfcb hs, Instr.code, haccept]
  simp [finish, accept, afterCommand, hs]

/-- SETFCB on a frame of either size (R133). -/
theorem exec_setfcb_of_sized {s : State} (hs : s.pc = .idle) (h : correctlySized s = true) :
    ∃ t, exec .setfcb s = .next t ∧ t = { afterCommand 0x04 s with txb := t.txb } ∧
      ∀ i, txByte t i = if i = cidx s then txByte s (cidx s) ||| 0x20 else txByte s i := by
  refine ⟨finish (setFcb (accept 0x04 s)), ?_, finish_accept_frame setFcb_frame hs, fun i => ?_⟩
  · exact (exec_of_idle .setfcb hs).trans (congrArg _ (if_pos h))
  · rw [txByte_finish]
    exact txByte_setFcb (accept 0x04 s) i

/-- A second SETCS changes no byte: the first left the checksum in its slot, and the slot is not summed. -/
theorem exec_setcs_idempotent {s t u : State} (hs : s.pc = .idle) (h : correctlySized s = true)
    (ht : exec .setcs s = .next t) (hu : exec .setcs t = .next u) (i : Nat) : txByte u i = txByte t i := by
  obtain ⟨t', ht', hframe, htx⟩ := exec_setcs_of_sized hs h
  cases ht'.symm.trans ht
  obtain ⟨hpc, hkind, hlen⟩ := descriptor_of_frame hs hframe
  have hslot : csidx t = csidx s := by simp [csidx, hkind, hlen]
  obtain ⟨u', hu', -, hux⟩ := exec_setcs_of_sized hpc (by simpa [correctlySized, hkind, hlen] using h)
  cases hu'.symm.trans hu
  obtain ⟨-, hhi, -⟩ := csidx_of_sized h
  have hsum : txChecksum t = txChecksum s :=
    txChecksum_congr hkind hlen fun j _ hj => by rw [htx, if_neg (by omega)]
  rw [hux]
  split
  · rw [hsum, htx, if_pos (by omega)]
  · rfl

/-- Settles O8: SETCS on a frame of either size, with the geometry of its kind. -/
theorem setcsWritesTheChecksum : Obligations.SetcsWritesTheChecksum := by
  refine ⟨rfl, fun s hs => ?_⟩
  have hwrong (hshort : ¬ShortSized s) (hlong : ¬LongSized s) :=
    wrongSizeRaisesBadSize s .setcs hs (.inl ⟨.inl rfl, hshort, hlong⟩)
  refine ⟨fun h => ?_, exec_setcs_of_long hs, hwrong, fun t u ht hu i => ?_⟩
  · obtain ⟨hk, -⟩ := id h
    obtain ⟨-, -, -, hcs⟩ := geometry_short hk
    rw [← txChecksum_short hk, ← hcs]
    exact exec_setcs_of_sized hs h.correctlySized
  · by_cases h : correctlySized s = true
    · exact exec_setcs_idempotent hs h ht hu i
    · obtain ⟨hshort, hlong⟩ := not_or.1 (mt (correctlySized_iff s).2 h)
      cases (hwrong hshort hlong).symm.trans ht
      cases (wrongSizeRaisesBadSize (afterAbort 0x01 5 1 s) .setcs hs (.inl ⟨.inl rfl, hshort, hlong⟩)).symm.trans hu
      exact txByte_congr rfl rfl i

/-- Settles O9: SETLEN on a long frame, or the size check. -/
theorem setlenWritesBothLengths : Obligations.SetlenWritesBothLengths :=
  ⟨rfl, fun s hs => ⟨exec_setlen_of_long hs, fun h => wrongSizeRaisesBadSize s .setlen hs (.inr ⟨rfl, h⟩)⟩⟩

/-- Settles O10: GETFCB on a frame of either size, with the index of C in its kind. -/
theorem getfcbReadsBitFive : Obligations.GetfcbReadsBitFive := by
  refine ⟨rfl, fun s hs => ⟨fun h => ?_, fun h => ?_, fun hshort hlong => ?_⟩⟩
  · obtain ⟨hc, -⟩ := geometry_short h.1
    rw [← hc]
    exact exec_getfcb_of_sized hs h.correctlySized
  · obtain ⟨hc, -⟩ := geometry_long h.1
    rw [← hc]
    exact exec_getfcb_of_sized hs h.correctlySized
  · exact wrongSizeRaisesBadSize s .getfcb hs (.inl ⟨.inr (.inl rfl), hshort, hlong⟩)

/-- Settles O11: SETFCB on a frame of either size, with the index of C in its kind. -/
theorem setfcbSetsBitFive : Obligations.SetfcbSetsBitFive := by
  refine ⟨rfl, fun s hs => ⟨fun h => ?_, fun h => ?_, fun hshort hlong => ?_⟩⟩
  · obtain ⟨hc, -⟩ := geometry_short h.1
    rw [← hc]
    exact exec_setfcb_of_sized hs h.correctlySized
  · obtain ⟨hc, -⟩ := geometry_long h.1
    rw [← hc]
    exact exec_setfcb_of_sized hs h.correctlySized
  · exact wrongSizeRaisesBadSize s .setfcb hs (.inl ⟨.inr (.inr (.inl rfl)), hshort, hlong⟩)

/-- Settles O12: SETCS sums none of the length bytes, and the length value looks at TXLEN alone. -/
theorem setcsAndSetlenCommute : Obligations.SetcsAndSetlenCommute := by
  intro s t u t' u' hs h ht hu ht' hu'
  obtain ⟨-, h9, -⟩ := id h
  obtain ⟨_, e, hframe, htx⟩ := exec_setcs_of_long hs h
  cases e.symm.trans ht
  obtain ⟨_, e', hframe', htx'⟩ := exec_setlen_of_long hs h
  cases e'.symm.trans ht'
  obtain ⟨hpc, hkind, hlen⟩ := descriptor_of_frame hs hframe
  obtain ⟨hpc', hkind', hlen'⟩ := descriptor_of_frame hs hframe'
  obtain ⟨_, e, -, hux⟩ := exec_setlen_of_long hpc (by rwa [LongSized, hkind, hlen])
  cases e.symm.trans hu
  obtain ⟨_, e, -, hux'⟩ := exec_setcs_of_long hpc' (by rwa [LongSized, hkind', hlen'])
  cases e.symm.trans hu'
  have hsum : txBytes t' 4 (s.txlen.toNat - 6) = txBytes s 4 (s.txlen.toNat - 6) :=
    readFrom_congr fun j hj _ => by rw [htx', if_neg (by omega)]
  refine ⟨fun i => ?_, fun i hi => by rw [htx, if_neg (by omega)], by rw [htx', if_neg (by omega)]⟩
  rw [hux, hux', htx, htx', hlen, hlen', hsum]
  by_cases hi : i = 1 ∨ i = 2
  · rw [if_pos hi, if_neg (by omega), if_pos hi]
  · rw [if_neg hi, if_neg hi]

/-! ### A fresh checksum in TXB (R130, R138) -/

/-- The `k`-th byte of several in TXB. -/
theorem txBytes_getD (s : State) (i : Nat) {n k : Nat} (h : k < n) : (txBytes s i n).getD k 0 = txByte s (i + k) := by
  rw [List.getD_eq_getElem?_getD, txBytes, readFrom_getElem?, if_pos h, Option.getD_some]

/-- The counted bytes of a long frame in TXB (30_encoding.md R93). -/
theorem txFrame_counted {s : State} (h : LongSized s) :
    ((txFrame s).drop 4).take (s.txlen.toNat - 6) = txBytes s 4 (s.txlen.toNat - 6) := by
  obtain ⟨-, h9, -⟩ := h
  have hsplit : txFrame s = txBytes s 0 4 ++ (txBytes s 4 (s.txlen.toNat - 6) ++ txBytes s (s.txlen.toNat - 2) 2) := by
    rw [txFrame, show s.txlen.toNat = 4 + ((s.txlen.toNat - 6) + 2) by omega]
    simp only [txBytes, readFrom_add]
    congr 3
    omega
  rw [hsplit, List.drop_left' (by simp), List.take_left' (by simp)]

/-- A correctly sized frame whose checksum slot holds its checksum is fresh. -/
theorem checksumFresh_txFrame {s : State} (hsized : correctlySized s = true) (h : txByte s (csidx s) = txChecksum s) :
    checksumFresh (txFrame s) := by
  have hlen : (txFrame s).length = s.txlen.toNat := txBytes_length ..
  have hbyte {k : Nat} (hk : k < s.txlen.toNat) : (txFrame s).getD k 0 = txByte s k := by
    rw [txFrame, txBytes_getD s 0 hk, Nat.zero_add]
  rcases (correctlySized_iff s).1 hsized with ⟨hkind, h5⟩ | hlong
  · obtain ⟨-, -, -, hcs⟩ := geometry_short hkind
    rw [hcs, txChecksum_short hkind] at h
    refine .inl ⟨hlen.trans h5, ?_⟩
    rw [hbyte (by omega), hbyte (by omega), hbyte (by omega), h]
  · obtain ⟨hkind, h9, h261⟩ := id hlong
    obtain ⟨-, -, -, hcs⟩ := geometry_long hkind
    rw [hcs, txChecksum_long hkind] at h
    refine .inr ⟨by omega, by omega, ?_⟩
    rw [hlen, hbyte (by omega), txFrame_counted hlong, h]

/-- SetChecksum makes a correctly sized frame fresh. -/
theorem checksumFresh_setChecksum {s : State} (h : correctlySized s = true) :
    checksumFresh (txFrame (setChecksum s)) := by
  obtain ⟨hslot, -, -⟩ := csidx_of_sized h
  have hcs : csidx (setChecksum s) = csidx s := by simp [csidx]
  refine checksumFresh_txFrame (by simpa [correctlySized] using h) ?_
  rw [txChecksum_setChecksum h, hcs, txByte_setChecksum s _ hslot, if_pos rfl]

/-- The frame in TXB depends on the buffer, its length and the epoch alone. -/
theorem txFrame_congr {s t : State} (hb : t.txb = s.txb) (hl : t.txlen = s.txlen) (he : t.epoch = s.epoch) :
    txFrame t = txFrame s := by
  unfold txFrame txBytes
  rw [hl]
  exact readFrom_congr fun j _ _ => txByte_congr hb he j

/-- A template's descriptor is correctly sized: 5 bytes for a short frame, 9 to 261 for a long one (41_frame_builder.md
R150). -/
def FitsKind (k : BitVec 1) (bs : List Byte) : Prop :=
  k = 0 ∧ bs.length = 5 ∨ k = 1 ∧ 9 ≤ bs.length ∧ bs.length ≤ 261

theorem correctlySized_of_fitsKind {k : BitVec 1} {bs : List Byte} {s : State} (h : FitsKind k bs) (hk : s.txkind = k)
    (hl : s.txlen = BitVec.ofNat 9 bs.length) : correctlySized s = true := by
  refine (correctlySized_iff s).2 ?_
  have hn : s.txlen.toNat = bs.length % 512 := by rw [hl, BitVec.toNat_ofNat]
  rcases h with ⟨rfl, h5⟩ | ⟨rfl, h9, h261⟩
  · exact .inl ⟨hk, by omega⟩
  · exact .inr ⟨hk, by omega, by omega⟩

/-- Building a frame ends with SetChecksum (41_frame_builder.md R150). -/
theorem checksumFresh_build {k : BitVec 1} {bs : List Byte} (h : FitsKind k bs) (s : State) :
    checksumFresh (txFrame (build k bs s)) := by
  refine checksumFresh_setChecksum (correctlySized_of_fitsKind h ?_ ?_) <;> split <;> simp

theorem fitsKind_nkeBytes (s : State) : FitsKind 0 (nkeBytes s) := .inl ⟨rfl, rfl⟩

theorem fitsKind_longBytes (c a ci : Byte) {payload : List Byte} (h : payload.length ≤ 252) :
    FitsKind 1 (longBytes c a ci payload) := by
  have hl := longBytes_length c a ci payload
  exact .inr ⟨rfl, by omega, by omega⟩

/-! ### No stale checksum on port T (R138, 70_reset_and_hazards.md R290) -/

@[simp] theorem written_append (l l' : List PortEvent) : written (l ++ l') = written l ++ written l' := by
  induction l with
  | nil => rfl
  | cons e l ih => cases e <;> simp [written, ih]

/-- The sequencer is about to write the frame in TXB. -/
def Pc.transmits : Pc → Bool
  | .txCmd | .txReq => true
  | .idle | .ackArm | .ackRd | .loop | .reqBuild | .lfArm | .lfRd | .verify | .decode => false

theorem Pc.transmits_iff (p : Pc) : p.transmits = true ↔ p = .txCmd ∨ p = .txReq := by cases p <;> decide

namespace ChecksumsOk

variable {s t : State}

/-- The invariant looks at the frames written, PC and the frame in TXB alone. -/
theorem congr (h : ChecksumsOk s) (hw : t.wire = s.wire) (hp : t.pc = s.pc) (hf : txFrame t = txFrame s) :
    ChecksumsOk t := by
  rwa [ChecksumsOk, hw, hp, hf]

/-- Away from TX_CMD and TX_REQ the frame in TXB does not matter. -/
theorem of_silent (h : ChecksumsOk s) (hw : written t.wire = written s.wire) (hp : t.pc.transmits = false) :
    ChecksumsOk t := by
  obtain ⟨hwire, -⟩ := h
  exact ⟨hw ▸ hwire, fun ht => by simp [(Pc.transmits_iff _).2 ht] at hp⟩

theorem finish (h : ChecksumsOk s) (hw : t.wire = s.wire) : ChecksumsOk (finish t) :=
  h.of_silent (congrArg written hw) rfl

/-- A step that goes anywhere with a fresh frame in TXB. -/
theorem goto_of_fresh (h : ChecksumsOk s) (hw : t.wire = s.wire) (hf : checksumFresh (txFrame t)) (q : Pc) :
    ChecksumsOk { t with pc := q } := by
  obtain ⟨hwire, -⟩ := h
  exact ⟨hw ▸ hwire, fun _ => hf⟩

/-- The frame written from TX_CMD or TX_REQ was fresh, and neither state follows. -/
theorem of_transmit (h : ChecksumsOk s) (hs : s.pc.transmits = true) {a : CtlAnswer}
    (hw : t.wire = s.wire ++ [.write (txFrame s) a]) (hp : t.pc.transmits = false) : ChecksumsOk t := by
  obtain ⟨hwire, hnext⟩ := h
  have hfresh := hnext ((Pc.transmits_iff _).1 hs)
  refine ⟨fun f hf => ?_, fun ht => by simp [(Pc.transmits_iff _).2 ht] at hp⟩
  rw [hw, written_append, List.mem_append] at hf
  rcases hf with hf | hf
  · exact hwire f hf
  · rwa [List.mem_singleton.1 hf]

/-! #### The sequencer's steps (44_session.md R230) -/

theorem stepTxCmd (h : ChecksumsOk s) (hs : s.pc = .txCmd) : ChecksumsOk (stepTxCmd s) := by
  have htransmits : s.pc.transmits = true := hs ▸ rfl
  rcases stepTxCmd_cases s with ⟨-, e⟩ | ⟨a, rest, u, -, rfl, ⟨-, -, e⟩ | ⟨-, -, e⟩ | ⟨_, -, e⟩⟩ <;> rw [e]
  · exact h
  all_goals exact h.of_transmit htransmits (a := a) rfl rfl

theorem stepTxReq (h : ChecksumsOk s) (hs : s.pc = .txReq) : ChecksumsOk (stepTxReq s) := by
  have htransmits : s.pc.transmits = true := hs ▸ rfl
  rcases stepTxReq_cases s with ⟨-, e⟩ | ⟨a, rest, u, -, rfl, ⟨-, e⟩ | ⟨_, -, e⟩⟩ <;> rw [e]
  · exact h
  all_goals exact h.of_transmit htransmits (a := a) rfl rfl

/-- A deadline set is no frame written. -/
theorem stepAckArm (h : ChecksumsOk s) : ChecksumsOk (stepAckArm s) := by
  rcases stepAckArm_cases s with ⟨-, e⟩ | ⟨a, rest, u, -, rfl, ⟨-, e⟩ | ⟨_, -, e⟩⟩ <;> rw [e]
  · exact h
  all_goals exact h.of_silent (by simp [written]) rfl

theorem stepLfArm (h : ChecksumsOk s) : ChecksumsOk (stepLfArm s) := by
  rcases stepLfArm_cases s with ⟨-, e⟩ | ⟨a, rest, u, -, rfl, ⟨-, e⟩ | ⟨_, -, e⟩⟩ <;> rw [e]
  · exact h
  all_goals exact h.of_silent (by simp [written]) rfl

/-- A byte read is no frame written. -/
theorem stepAckRd (h : ChecksumsOk s) : ChecksumsOk (stepAckRd s) := by
  rcases stepAckRd_cases s with ⟨-, e⟩ | ⟨a, rest, u, -, rfl,
    ⟨-, -, e⟩ | ⟨-, -, e⟩ | ⟨_, -, -, e⟩ | ⟨_, -, e⟩ | ⟨_, -, e⟩⟩ <;> rw [e]
  · exact h
  all_goals exact h.of_silent (by simp [written]) rfl

theorem lfIncomplete (h : ChecksumsOk s) : ChecksumsOk (lfIncomplete s) := by
  rcases lfIncomplete_cases s with ⟨-, e⟩ | ⟨-, e⟩ <;> rw [e] <;> exact h.of_silent rfl rfl

theorem lfComplete (h : ChecksumsOk s) : ChecksumsOk (lfComplete s) := by
  rcases lfComplete_cases s with ⟨-, e⟩ | ⟨-, e⟩ <;> rw [e] <;> exact h.of_silent rfl rfl

/-- The scanner does not write TXB. -/
theorem scan (h : ChecksumsOk s) (ht : SameButScanner s t) : ChecksumsOk t := by
  rw [ht]
  exact h.congr rfl rfl (txFrame_congr rfl rfl rfl)

theorem scanByte (h : ChecksumsOk s) (b : Byte) : ChecksumsOk (scanByte b s) := by
  rcases scanByte_cases b s with ⟨-, e⟩ | ⟨-, -, e⟩ | ⟨-, -, e⟩ <;> rw [e]
  · exact (h.scan (sameButScanner_searchByte b s)).lfIncomplete
  · exact (h.scan (sameButScanner_pushRx b s)).lfComplete
  · exact (h.scan (sameButScanner_pushRx b s)).lfIncomplete

theorem stepLfRd (h : ChecksumsOk s) (hs : s.pc = .lfRd) : ChecksumsOk (stepLfRd s) := by
  rcases stepLfRd_cases s with ⟨-, e⟩ | ⟨a, rest, u, -, rfl, ⟨b, -, e⟩ | ⟨_, -, e⟩ | ⟨_, -, e⟩⟩ <;> rw [e]
  · exact h
  · have hread : ChecksumsOk { s with readAns := rest, wire := s.wire ++ [.read a] } :=
      h.of_silent (by simp [written]) (by simp [hs, Pc.transmits])
    exact hread.scanByte b
  all_goals exact h.of_silent (by simp [written]) rfl

theorem stepLoop (h : ChecksumsOk s) : ChecksumsOk (stepLoop s) := by
  rcases stepLoop_cases s with ⟨-, e⟩ | ⟨-, -, e⟩ | ⟨-, -, e⟩ <;> rw [e] <;> exact h.of_silent rfl rfl

theorem stepVerify (h : ChecksumsOk s) : ChecksumsOk (stepVerify s) := by
  rcases stepVerify_cases s with ⟨-, e⟩ | ⟨-, -, e⟩ | ⟨-, -, e⟩ <;> rw [e] <;> exact h.of_silent rfl rfl

theorem stepDecode (h : ChecksumsOk s) : ChecksumsOk (stepDecode s) := by
  rcases stepDecode_cases s with ⟨_, -, e⟩ | ⟨record, more, -, ⟨-, e⟩ | ⟨-, -, e⟩ | ⟨-, -, e⟩⟩ <;> rw [e] <;>
    exact h.of_silent rfl rfl

/-- REQ_BUILD recomputes the checksum after it sets the FCB (44_session.md R224). -/
theorem stepReqBuild (h : ChecksumsOk s) : ChecksumsOk (stepReqBuild s) := by
  have hfits := fitsKind_longBytes s.params.cReq s.addr Config.CI_DATA (payload := []) (by simp)
  obtain ⟨v, hv, hwire, hsized⟩ : ∃ v, Machine.stepReqBuild s = { scanInit (setChecksum v) with pc := .txReq } ∧
      v.wire = s.wire ∧ correctlySized v = true := by
    refine ⟨_, rfl, ?_, correctlySized_of_fitsKind hfits ?_ ?_⟩ <;> split <;> simp [reqBytes]
  have hframe : txFrame (scanInit (setChecksum v)) = txFrame (setChecksum v) := txFrame_congr rfl rfl rfl
  rw [hv]
  exact h.goto_of_fresh (by simpa using hwire) (hframe ▸ checksumFresh_setChecksum hsized) _

theorem seqStep (h : ChecksumsOk s) : ChecksumsOk (seqStep s) := by
  cases hp : s.pc with
  | idle => exact (seqStep_idle hp).symm ▸ h
  | txCmd => exact seqStep_txCmd hp ▸ h.stepTxCmd hp
  | ackArm => exact seqStep_ackArm hp ▸ h.stepAckArm
  | ackRd => exact seqStep_ackRd hp ▸ h.stepAckRd
  | loop => exact seqStep_loop hp ▸ h.stepLoop
  | reqBuild => exact seqStep_reqBuild hp ▸ h.stepReqBuild
  | txReq => exact seqStep_txReq hp ▸ h.stepTxReq hp
  | lfArm => exact seqStep_lfArm hp ▸ h.stepLfArm
  | lfRd => exact seqStep_lfRd hp ▸ h.stepLfRd hp
  | verify => exact seqStep_verify hp ▸ h.stepVerify
  | decode => exact seqStep_decode hp ▸ h.stepDecode

/-! #### The commands' acceptance (10_state.md R23) -/

theorem ifCorrectlySized (h : ChecksumsOk s) {body : State → State}
    (hb : correctlySized s = true → ChecksumsOk (body s)) : ChecksumsOk (ifCorrectlySized body s) := by
  rcases ifCorrectlySized_cases body s with ⟨hsized, e⟩ | ⟨-, e⟩ <;> rw [e]
  · exact hb hsized
  · exact h.of_silent rfl rfl

/-- Of the commands SEND, RD1, RDALL and PAGECHG go to TX_CMD, each after computing the checksum. -/
theorem acceptOf (h : ChecksumsOk s) (i : Instr) : ChecksumsOk (acceptOf i s) := by
  cases i with
  | setcs | getfcb | setfcb => exact h.ifCorrectlySized fun _ => h.of_silent (by simp) rfl
  | setlen =>
    rcases acceptSetlen_cases s with ⟨-, -, e⟩ | e <;> rw [Machine.acceptOf, e] <;> exact h.of_silent (by simp) rfl
  | bldNke | bldApprst | bldReq | bldPage | bldSetsec | bldSetpri =>
    exact h.finish (build_wire ..)
  | send =>
    exact h.ifCorrectlySized fun hsized =>
      h.goto_of_fresh (setChecksum_wire s) (checksumFresh_setChecksum hsized) _
  | rdack | rdlong => exact h.of_silent rfl rfl
  | decode =>
    rcases acceptDecode_cases s with ⟨-, e⟩ | ⟨-, e⟩ <;> rw [Machine.acceptOf, e] <;> exact h.of_silent rfl rfl
  | rd1 | rdall => exact h.goto_of_fresh (build_wire ..) (checksumFresh_build (fitsKind_nkeBytes s) _) _
  | pagechg => exact h.goto_of_fresh (build_wire ..) (checksumFresh_build (fitsKind_longBytes _ _ _ (by simp)) s) _

end ChecksumsOk

/-- Settles O58, through the package of Laws/Step.lean. -/
theorem noStaleChecksumOnTheWire : Obligations.NoStaleChecksumOnTheWire :=
  step_keeps ChecksumsOk
    (hHost := fun _ _ _ _ h => h.congr rfl rfl (txFrame_congr rfl rfl rfl))
    (hSeq := fun _ h => h.seqStep)
    (hBusy := fun _ _ h => h.congr rfl rfl (txFrame_congr rfl rfl rfl))
    (hAccept := fun i s _ h =>
      ChecksumsOk.acceptOf (s := accept i.code s) (h.congr rfl rfl (txFrame_congr rfl rfl rfl)) i)
    (hIllegal := fun _ _ _ h => h.of_silent rfl rfl)
    (hReg := fun r v s hs h => by
      obtain ⟨_, _, _, _, _, _, _, _, _, e⟩ := storeReg_cases r v s
      exact e ▸ h.of_silent rfl (by simp [hs, Pc.transmits]))
    (hTx := fun _ _ _ hs h => h.of_silent (by simp) (by simp [hs, Pc.transmits]))
    (hReset := fun _ h => h.of_silent rfl rfl)

end Sys2Proof.Machine
end

section
/-! PROOF. The frame builder's family (41_frame_builder.md): the frame each builder command leaves in TXB (O14 to O19), and
that built frames are consistent and depend on operands and parameters alone (O20). -/

namespace Sys2Proof.Machine

/-! ### Building a frame into TXB (R150) -/

/-- The frame in TXB has as many bytes as TXLEN says. -/
theorem txFrame_length (s : State) : (txFrame s).length = s.txlen.toNat := txBytes_length ..

theorem toNat_ofNat_length_of_fitsKind {k : BitVec 1} {bs : List Byte} (h : FitsKind k bs) :
    (BitVec.ofNat 9 bs.length).toNat = bs.length := by
  rw [BitVec.toNat_ofNat, Nat.mod_eq_of_lt]
  rcases h with ⟨-, h5⟩ | ⟨-, -, h261⟩ <;> omega

/-- A template writes nothing past its last byte. -/
theorem txByte_build_past {k : BitVec 1} {bs : List Byte} (h : FitsKind k bs) (s : State) {j : Nat}
    (hj : bs.length ≤ j) : txByte (build k bs s) j = txByte s j := by
  rcases h with ⟨rfl, h5⟩ | ⟨rfl, h9, h261⟩
  · exact (txByte_build_short s j h5).trans (by rw [if_neg (by omega), if_neg (by omega)])
  · exact (txByte_build_long s j h9 h261).trans (by rw [if_neg (by omega), if_neg (by omega), if_neg (by omega)])

/-- A byte of the frame in TXB. -/
theorem txByte_of_txFrame {s : State} {f : List Byte} (hf : txFrame s = f) {j : Nat} (hj : j < f.length) :
    txByte s j = f.getD j 0 := by
  subst hf
  rw [txFrame_length] at hj
  rw [txFrame, txBytes_getD s 0 hj, Nat.zero_add]

/-- Building changes the bytes of the built frame alone. -/
theorem txbHolds_build {k : BitVec 1} {bs : List Byte} (h : FitsKind k bs) (s : State) :
    txbHolds (txFrame (build k bs s)) s (build k bs s) := by
  intro j
  split
  · exact txByte_of_txFrame rfl ‹_›
  · rename_i hj
    rw [txFrame_length, build_txlen, toNat_ofNat_length_of_fitsKind h] at hj
    exact txByte_build_past h s (Nat.not_lt.1 hj)

/-! ### What a builder command leaves behind (10_state.md R23, R150) -/

/-- From `s` the builder command `i` leaves the frame `f` of kind `k` in TXB with its descriptor, and changes nothing else
but what acceptance and completion change. -/
def BuildsFrame (i : Instr) (k : BitVec 1) (f : List Byte) (s : State) : Prop :=
  ∃ t, exec i s = .next t ∧
    t = { afterCommand i.code s with txb := t.txb, txlen := BitVec.ofNat 9 f.length, txkind := k } ∧ txbHolds f s t

/-- A command whose acceptance action builds a template leaves the frame the template becomes. -/
theorem buildsFrame_of_build {i : Instr} {k : BitVec 1} {bs f : List Byte} {s : State} (hs : s.pc = .idle)
    (haccept : acceptOf i (accept i.code s) = finish (build k bs (accept i.code s))) (hfit : FitsKind k bs)
    (hframe : txFrame (build k bs (accept i.code s)) = f) : BuildsFrame i k f s := by
  have hlen : f.length = bs.length := by
    rw [← hframe, txFrame_length, build_txlen, toNat_ofNat_length_of_fitsKind hfit]
  refine ⟨_, (exec_of_idle i hs).trans (congrArg _ haccept), ?_, fun j => ?_⟩
  · rw [build_frame, hlen]
    simp [finish, accept, afterCommand, hs]
  · rw [txByte_finish, ← hframe]
    exact txbHolds_build hfit (accept i.code s) j

/-- A command whose acceptance action builds a long template leaves the long frame of its counted bytes. -/
theorem buildsFrame_of_longBytes {i : Instr} {c a ci : Byte} {payload : List Byte} {s : State} (hs : s.pc = .idle)
    (hpayload : payload.length ≤ 252)
    (haccept : acceptOf i (accept i.code s) = finish (build 1 (longBytes c a ci payload) (accept i.code s))) :
    BuildsFrame i 1 (longFrame ([c, a, ci] ++ payload)) s :=
  buildsFrame_of_build hs haccept (fitsKind_longBytes c a ci hpayload) (txFrame_build_longBytes c a ci payload _ hpayload)

/-- The descriptor and the frame in TXB after a builder command. -/
theorem BuildsFrame.kind_and_frame {i : Instr} {k : BitVec 1} {f : List Byte} {s t : State} (h : BuildsFrame i k f s)
    (hf : f.length ≤ 261) (ht : exec i s = .next t) : t.txkind = k ∧ txFrame t = f := by
  obtain ⟨t', ht', hnext, hbytes⟩ := h
  cases ht'.symm.trans ht
  have hkind : t.txkind = k := by rw [hnext]
  have hlen : t.txlen.toNat = f.length := by
    rw [hnext, BitVec.toNat_ofNat]
    omega
  refine ⟨hkind, List.ext_getElem? fun j => ?_⟩
  rw [txFrame, hlen, txBytes, readFrom_getElem?, Nat.zero_add]
  split
  · rw [hbytes j, if_pos ‹_›, List.getD_eq_getElem?_getD, List.getElem?_eq_getElem ‹_›, Option.getD_some]
  · exact (List.getElem?_eq_none (Nat.not_lt.1 ‹_›)).symm

/-! ### The builder commands (R151 to R156) -/

section Commands

variable {s : State} (hs : s.pc = .idle)
include hs

theorem bldNke_builds : BuildsFrame .bldNke 0 (linkResetFrame s.addr) s :=
  buildsFrame_of_build hs rfl (fitsKind_nkeBytes _) (txFrame_build_nke _ _)

theorem bldApprst_builds : BuildsFrame .bldApprst 1 (longFrame [0x73, s.addr, 0x50]) s :=
  buildsFrame_of_longBytes (payload := []) hs (by decide) rfl

theorem bldReq_builds : BuildsFrame .bldReq 1 (longFrame [s.params.cReq, s.addr, 0x51]) s :=
  buildsFrame_of_longBytes (payload := []) hs (by decide) rfl

theorem bldPage_builds :
    BuildsFrame .bldPage 1 (longFrame [0x73, s.addr, 0x51, 0x0F, 0x02, 0x78, s.arg, 0x00]) s :=
  buildsFrame_of_longBytes (payload := [0x0F, 0x02, 0x78, s.arg, 0x00]) hs (by simp) rfl

theorem bldSetpri_builds : BuildsFrame .bldSetpri 1 (longFrame [0x73, s.addr, 0x51, 0x01, 0x7A, s.arg]) s :=
  buildsFrame_of_longBytes (payload := [0x01, 0x7A, s.arg]) hs (by simp) rfl

end Commands

/-- What follows CI in BLD_SETSEC's frame (R155). -/
def setsecPayload (s : State) : List Byte :=
  [s.sec0, s.sec1, s.sec2, s.sec3] ++ List.replicate s.params.nWild.val 0xFF ++ [0x01, 0x7A, s.arg]

theorem setsecPayload_length (s : State) : (setsecPayload s).length = s.params.nWild.val + 7 := by simp [setsecPayload]

theorem setsecPayload_length_le (s : State) : (setsecPayload s).length ≤ 252 := by
  have := s.params.nWild.isLt
  rw [setsecPayload_length]
  omega

theorem bldSetsec_builds {s : State} (hs : s.pc = .idle) :
    BuildsFrame .bldSetsec 1 (longFrame ([0x73, 0xFD, 0x51] ++ setsecPayload s)) s :=
  buildsFrame_of_longBytes hs (setsecPayload_length_le s) rfl

/-! ### The frames byte by byte -/

theorem longFrame_length (body : List Byte) : (longFrame body).length = body.length + 6 := by simp [longFrame]

/-- `Sum` of a non-empty list, added from the left. -/
theorem sumBytes_cons_eq_foldl (b : Byte) (bs : List Byte) : sumBytes (b :: bs) = bs.foldl (· + ·) b := by
  induction bs generalizing b with
  | nil => exact BitVec.add_zero b
  | cons x xs ih => rw [List.foldl_cons, ← ih, sumBytes, sumBytes, sumBytes, BitVec.add_assoc]

/-- A long frame with its checksum added from the left, as the rules of 41_frame_builder.md write it. -/
theorem longFrame_cons (c : Byte) (body : List Byte) :
    longFrame (c :: body) =
      [0x68, BitVec.ofNat 8 (body.length + 1), BitVec.ofNat 8 (body.length + 1), 0x68] ++ c :: body ++
        [body.foldl (· + ·) c, 0x16] := by
  rw [longFrame, sumBytes_cons_eq_foldl, List.length_cons]

theorem BuildsFrame.bytewise {i : Instr} {k : BitVec 1} {c : Byte} {body : List Byte} {s : State}
    (h : BuildsFrame i k (longFrame (c :: body)) s) :
    BuildsFrame i k
      ([0x68, BitVec.ofNat 8 (body.length + 1), BitVec.ofNat 8 (body.length + 1), 0x68] ++ c :: body ++
        [body.foldl (· + ·) c, 0x16]) s :=
  longFrame_cons c body ▸ h

/-- Settles O14: BLD_NKE leaves the link reset frame. -/
theorem bldNkeBuildsLinkReset : Obligations.BldNkeBuildsLinkReset :=
  ⟨rfl, fun _ hs => bldNke_builds hs⟩

/-- Settles O15: BLD_APPRST leaves the long frame of its three counted bytes. -/
theorem bldApprstBuildsApplicationReset : Obligations.BldApprstBuildsApplicationReset :=
  ⟨rfl, fun _ hs => (bldApprst_builds hs).bytewise⟩

/-- Settles O16: BLD_REQ leaves the long frame of its three counted bytes. -/
theorem bldReqBuildsDataRequest : Obligations.BldReqBuildsDataRequest :=
  ⟨rfl, fun _ hs => (bldReq_builds hs).bytewise⟩

/-- Settles O17: BLD_PAGE leaves the long frame of its eight counted bytes. -/
theorem bldPageBuildsPageChange : Obligations.BldPageBuildsPageChange :=
  ⟨rfl, fun _ hs => (bldPage_builds hs).bytewise⟩

/-- Settles O19: BLD_SETPRI leaves the long frame of its six counted bytes. -/
theorem bldSetpriBuildsAddressByPrimary : Obligations.BldSetpriBuildsAddressByPrimary :=
  ⟨rfl, fun _ hs => (bldSetpri_builds hs).bytewise⟩

/-- Settles O18: BLD_SETSEC leaves the long frame of its counted bytes, and four wildcards make it 20 bytes. -/
theorem bldSetsecBuildsAddressBySecondary : Obligations.BldSetsecBuildsAddressBySecondary := by
  refine ⟨rfl, fun s hs => ?_⟩
  obtain ⟨t, ht, hnext, hbytes⟩ := bldSetsec_builds hs
  have hlen : (longFrame ([0x73, 0xFD, 0x51] ++ setsecPayload s)).length = 16 + s.params.nWild.val := by
    rw [longFrame_length, List.length_append, setsecPayload_length]
    simp only [List.length_cons, List.length_nil]
    omega
  rw [hlen] at hnext
  refine ⟨t, ht, hnext, hbytes, fun hwild => ⟨?_, ?_⟩⟩
  · rw [hnext, hwild]
    rfl
  · rw [setsecPayload, hwild, List.cons_append, longFrame_cons] at hbytes
    exact hbytes

/-! ### Built frames are consistent (R157) -/

/-- The frame in TXB is correctly sized and has its length bytes, its checksum and its stop byte right: what R157 says of
one built frame. -/
def ConsistentFrame (t : State) : Prop :=
  (ShortSized t ∧ txByte t 3 = txByte t 1 + txByte t 2 ∨
    LongSized t ∧ txByte t 1 = BitVec.ofNat 8 (t.txlen.toNat - 6) ∧ txByte t 2 = txByte t 1 ∧
      txByte t (t.txlen.toNat - 2) = sumBytes (txBytes t 4 (t.txlen.toNat - 6))) ∧
  txByte t (t.txlen.toNat - 1) = 0x16

theorem consistentFrame_of_linkReset {t : State} {a : Byte} (hk : t.txkind = 0) (hf : txFrame t = linkResetFrame a) :
    ConsistentFrame t := by
  have hlen : t.txlen.toNat = 5 := by rw [← txFrame_length, hf]; rfl
  have hbyte {j : Nat} (hj : j < 5) : txByte t j = (linkResetFrame a).getD j 0 := txByte_of_txFrame hf hj
  refine ⟨.inl ⟨⟨hk, hlen⟩, ?_⟩, ?_⟩
  · rw [hbyte (by decide), hbyte (by decide), hbyte (by decide)]
    rfl
  · rw [hlen, hbyte (by decide)]
    rfl

theorem consistentFrame_of_longFrame {t : State} {body : List Byte} (hk : t.txkind = 1) (hf : txFrame t = longFrame body)
    (h3 : 3 ≤ body.length) (h255 : body.length ≤ 255) : ConsistentFrame t := by
  have hlen : t.txlen.toNat = body.length + 6 := by rw [← txFrame_length, hf, longFrame_length]
  have hlong : LongSized t := ⟨hk, by omega, by omega⟩
  have hbyte {j : Nat} (hj : j < body.length + 6) : txByte t j = (longFrame body).getD j 0 :=
    txByte_of_txFrame hf (by rwa [longFrame_length])
  have hcounted : txBytes t 4 body.length = body := by
    have h := txFrame_counted hlong
    rw [hf, hlen, Nat.add_sub_cancel] at h
    rw [← h]
    simp [longFrame]
  unfold ConsistentFrame
  rw [hlen, Nat.add_sub_cancel, hcounted, hbyte (j := 1) (by omega), hbyte (j := 2) (by omega),
    hbyte (j := body.length + 6 - 2) (by omega), hbyte (j := body.length + 6 - 1) (by omega)]
  refine ⟨.inr ⟨hlong, rfl, rfl, ?_⟩, ?_⟩ <;> simp [longFrame]

/-! ### A built frame depends on operands and parameters alone (R157) -/

/-- Equal parameters and equal operand registers of the builder command `i` (30_encoding.md R112). -/
structure SameOperands (i : Instr) (s s' : State) : Prop where
  addr : i ≠ .bldSetsec → s'.addr = s.addr
  arg : i = .bldPage ∨ i = .bldSetsec ∨ i = .bldSetpri → s'.arg = s.arg
  sec : i = .bldSetsec → s'.sec0 = s.sec0 ∧ s'.sec1 = s.sec1 ∧ s'.sec2 = s.sec2 ∧ s'.sec3 = s.sec3
  params : s'.params = s.params

/-- The builder command `i` leaves consistent frames `f s`, and `f` looks at parameters and operands alone. -/
def BuildsFromOperands (i : Instr) (f : State → List Byte) : Prop :=
  (∀ s t, s.pc = .idle → exec i s = .next t → txFrame t = f s ∧ ConsistentFrame t) ∧
  ∀ s s', SameOperands i s s' → f s' = f s

theorem buildsFromOperands_of_long {i : Instr} {body : State → List Byte}
    (hbuild : ∀ {s}, s.pc = .idle → BuildsFrame i 1 (longFrame (body s)) s)
    (hbody : ∀ s, 3 ≤ (body s).length ∧ (body s).length ≤ 255)
    (hoperands : ∀ s s', SameOperands i s s' → body s' = body s) : BuildsFromOperands i fun s => longFrame (body s) := by
  refine ⟨fun s t hs ht => ?_, fun s s' h => congrArg longFrame (hoperands s s' h)⟩
  obtain ⟨h3, h255⟩ := hbody s
  obtain ⟨hkind, hframe⟩ := (hbuild hs).kind_and_frame (by rw [longFrame_length]; omega) ht
  exact ⟨hframe, consistentFrame_of_longFrame hkind hframe h3 h255⟩

theorem bldNke_buildsFromOperands : BuildsFromOperands .bldNke fun s => linkResetFrame s.addr := by
  refine ⟨fun s t hs ht => ?_, fun s s' h => congrArg linkResetFrame (h.addr (by decide))⟩
  obtain ⟨hkind, hframe⟩ := (bldNke_builds hs).kind_and_frame (by simp [linkResetFrame]) ht
  exact ⟨hframe, consistentFrame_of_linkReset hkind hframe⟩

/-- Each builder's frame, by the operands R112 lists for it. -/
theorem builder_buildsFromOperands {i : Instr}
    (hi : i ∈ [Instr.bldNke, .bldApprst, .bldReq, .bldPage, .bldSetsec, .bldSetpri]) : ∃ f, BuildsFromOperands i f := by
  simp only [List.mem_cons, List.not_mem_nil, or_false] at hi
  rcases hi with rfl | rfl | rfl | rfl | rfl | rfl
  · exact ⟨_, bldNke_buildsFromOperands⟩
  · refine ⟨_, buildsFromOperands_of_long bldApprst_builds (fun _ => by simp) fun s s' h => ?_⟩
    rw [h.addr (by decide)]
  · refine ⟨_, buildsFromOperands_of_long bldReq_builds (fun _ => by simp) fun s s' h => ?_⟩
    rw [h.addr (by decide), h.params]
  · refine ⟨_, buildsFromOperands_of_long bldPage_builds (fun _ => by simp) fun s s' h => ?_⟩
    rw [h.addr (by decide), h.arg (by decide)]
  · refine ⟨_, buildsFromOperands_of_long bldSetsec_builds (fun s => ?_) fun s s' h => ?_⟩
    · have hpayload := setsecPayload_length_le s
      simp only [List.length_append, List.length_cons, List.length_nil]
      omega
    · obtain ⟨h0, h1, h2, h3⟩ := h.sec rfl
      rw [setsecPayload, h0, h1, h2, h3, h.arg (by decide), h.params, setsecPayload]
  · refine ⟨_, buildsFromOperands_of_long bldSetpri_builds (fun _ => by simp) fun s s' h => ?_⟩
    rw [h.addr (by decide), h.arg (by decide)]

/-- Settles O20: every builder leaves a consistent frame that is a function of its operands and the parameters. -/
theorem builtFramesAreConsistent : Obligations.BuiltFramesAreConsistent := by
  intro i hi s t hs ht
  obtain ⟨f, hbuilds, hoperands⟩ := builder_buildsFromOperands hi
  obtain ⟨hframe, hbytes, hstop⟩ := hbuilds s t hs ht
  refine ⟨hbytes, hstop, fun s' t' hs' ht' haddr harg hsec hparams => ?_⟩
  obtain ⟨hframe', -⟩ := hbuilds s' t' hs' ht'
  rw [hframe, hframe', hoperands s s' ⟨haddr, harg, hsec, hparams⟩]

end Sys2Proof.Machine
end

section
/-! PROOF. The transport family (42_transport_io.md): the transmit, acknowledgement and arming steps (O22, O23, O26), SEND
(O21), the acknowledgement wait (O24), the scanner's initialisation (O25), its step (O27), the whole scan (O28, O29), and
the scanner's registers over every step of the machine (O56). -/

namespace Sys2Proof.Machine

/-! ### The transmit steps (R180) -/

theorem seqStep_txCmd_send {s : State} {w : List CtlAnswer} (hp : s.pc = .txCmd) (hw : s.writeAns = .ok :: w)
    (ho : s.op = Instr.send.code) : seqStep s = finish (sent w .txCmd s) := by
  rw [seqStep_txCmd hp, stepTxCmd, tWrite_of_cons _ _ hw]
  exact if_pos ho

theorem seqStep_transmit_err {s : State} {e : Nat} {w : List CtlAnswer} (hp : s.pc = .txCmd ∨ s.pc = .txReq)
    (hw : s.writeAns = .err e :: w) :
    seqStep s = raise .transport 1 e { s with writeAns := w, wire := s.wire ++ [.write (txFrame s) (.err e)] } := by
  rcases hp with hp | hp
  · rw [seqStep_txCmd hp, stepTxCmd, tWrite_of_cons _ _ hw]
  · rw [seqStep_txReq hp, stepTxReq, tWrite_of_cons _ _ hw]

/-- Settles O22, answer by answer. -/
theorem transmitSteps : Obligations.TransmitSteps := by
  intro s a w hw u
  refine ⟨?_, ?_, ?_, ?_⟩
  · rintro hp rfl ho
    exact seqStep_txCmd_send hp hw ho
  · rintro hp rfl ho
    exact seqStep_txCmd_ok hp hw (by rcases ho with h | h | h <;> rw [h] <;> decide)
  · rintro hp rfl
    exact seqStep_txReq_ok hp hw
  · rintro e hp rfl
    exact seqStep_transmit_err hp hw

/-! ### The acknowledgement steps (R172, R173, 44_session.md R222) -/

theorem ackSeen_of_command {s : State} (ho : s.op = 0x21 ∨ s.op = 0x42) : ackSeen s = finish s :=
  if_neg (by rcases ho with h | h <;> rw [h] <;> decide)

theorem ackSeen_of_session {s : State} (ho : s.op = 0x40 ∨ s.op = 0x41) : ackSeen s = sessionStart s := if_pos ho

theorem seqStep_ackArm_err {s : State} {e : Nat} {d : List CtlAnswer} (hp : s.pc = .ackArm)
    (hd : s.deadlineAns = .err e :: d) :
    seqStep s = raise .transport 2 e { s with deadlineAns := d, wire := s.wire ++ [.setDeadline s.tmo (.err e)] } := by
  rw [seqStep_ackArm hp, stepAckArm, tSetDeadline_of_cons _ _ hd]

theorem seqStep_ackRd_timeout {s : State} {e : Nat} {r : List ReadAnswer} (hp : s.pc = .ackRd)
    (hr : s.readAns = .timeout e :: r) :
    seqStep s = raise .ackTimeout 0 e { s with readAns := r, wire := s.wire ++ [.read (.timeout e)] } := by
  rw [seqStep_ackRd hp, stepAckRd, tRead_of_cons _ hr]

theorem seqStep_ackRd_err {s : State} {e : Nat} {r : List ReadAnswer} (hp : s.pc = .ackRd)
    (hr : s.readAns = .err e :: r) :
    seqStep s = raise .transport 3 e { s with readAns := r, wire := s.wire ++ [.read (.err e)] } := by
  rw [seqStep_ackRd hp, stepAckRd, tRead_of_cons _ hr]

/-- Settles O23, answer by answer. -/
theorem acknowledgementSteps : Obligations.AcknowledgementSteps := by
  constructor
  · intro s a d hp hd u
    constructor
    · rintro rfl
      exact seqStep_ackArm_ok hp hd
    · rintro e rfl
      exact seqStep_ackArm_err hp hd
  · intro s a r hp hr u
    refine ⟨?_, ?_, ?_, ?_, ?_⟩
    · rintro rfl ho
      exact (seqStep_ackRd_ack hp hr).trans (ackSeen_of_command ho)
    · rintro rfl ho
      exact (seqStep_ackRd_ack hp hr).trans (ackSeen_of_session ho)
    · rintro b rfl hb
      exact seqStep_ackRd_noise hp hr hb
    · rintro e rfl
      exact seqStep_ackRd_timeout hp hr
    · rintro e rfl
      exact seqStep_ackRd_err hp hr

/-! ### The arming step of the scan (R176) -/

theorem seqStep_lfArm_err {s : State} {e : Nat} {d : List CtlAnswer} (hp : s.pc = .lfArm)
    (hd : s.deadlineAns = .err e :: d) :
    seqStep s =
      raise .transport 2 e
        { s with rxlen := 0, deadlineAns := d, wire := s.wire ++ [.setDeadline s.tmo (.err e)] } := by
  rw [seqStep_lfArm hp, stepLfArm, tSetDeadline_of_cons _ _ hd]

/-- Settles O26, answer by answer. -/
theorem longFrameArmSetsTheDeadline : Obligations.LongFrameArmSetsTheDeadline := by
  intro s a d hp hd u
  constructor
  · rintro rfl
    exact seqStep_lfArm_ok hp hd
  · rintro e rfl
    exact seqStep_lfArm_err hp hd

/-! ### SEND (R171) -/

/-- SEND on a frame of either size. -/
theorem exec_send_of_sized {s : State} (hs : s.pc = .idle) (h : correctlySized s = true) :
    ∃ t, exec .send s = .next t ∧ t = { running 0x20 .txCmd s with txb := t.txb } ∧
      ∀ i, txByte t i = if i = csidx s then txChecksum s else txByte s i := by
  refine ⟨{ setChecksum (accept 0x20 s) with pc := .txCmd }, ?_, ?_, fun i => ?_⟩
  · exact (exec_of_idle .send hs).trans (congrArg _ (if_pos h))
  · rw [setChecksum_frame]
    rfl
  · obtain ⟨hslot, -, -⟩ := csidx_of_sized h
    exact txByte_setChecksum (accept 0x20 s) i hslot

theorem exec_send_of_wrong_size {s : State} (hs : s.pc = .idle) (hshort : ¬ShortSized s) (hlong : ¬LongSized s) :
    exec .send s = .next (afterAbort 0x20 5 1 s) :=
  wrongSizeRaisesBadSize s .send hs (.inl ⟨.inr (.inr (.inr rfl)), hshort, hlong⟩)

/-- What step TX_CMD of SEND finds: SEND goes there only with a frame of one of the sizes. -/
theorem sending_of_exec_send {s t : State} (hs : s.pc = .idle) (ht : exec .send s = .next t) (hp : t.pc = .txCmd) :
    t.op = 0x20 ∧ t.txlen = s.txlen ∧ t.writeAns = s.writeAns ∧ t.wire = s.wire := by
  by_cases h : correctlySized s = true
  · obtain ⟨_, ht', hframe, -⟩ := exec_send_of_sized hs h
    cases ht'.symm.trans ht
    rw [hframe]
    exact ⟨rfl, rfl, rfl, rfl⟩
  · obtain ⟨hshort, hlong⟩ := not_or.1 (mt (correctlySized_iff s).2 h)
    cases (exec_send_of_wrong_size hs hshort hlong).symm.trans ht
    cases hs.symm.trans hp

/-- Settles O21: the acceptance on a frame of either size, then step TX_CMD. -/
theorem sendTransmitsWithFreshChecksum : Obligations.SendTransmitsWithFreshChecksum := by
  refine ⟨rfl, fun s hs => ⟨fun h => ?_, fun h => ?_, exec_send_of_wrong_size hs, fun t w ht hp hw => ?_,
    fun t e w ht hp hw => ?_⟩⟩
  · obtain ⟨hk, -⟩ := id h
    obtain ⟨-, -, -, hcs⟩ := geometry_short hk
    rw [← txChecksum_short hk, ← hcs]
    exact exec_send_of_sized hs h.correctlySized
  · obtain ⟨hk, -⟩ := id h
    obtain ⟨-, -, -, hcs⟩ := geometry_long hk
    rw [← txChecksum_long hk, ← hcs]
    exact exec_send_of_sized hs h.correctlySized
  · obtain ⟨hop, hlen, hans, hwire⟩ := sending_of_exec_send hs ht hp
    rw [← hlen, ← hwire]
    exact seqStep_txCmd_send hp (hans.trans hw) hop
  · obtain ⟨-, hlen, hans, hwire⟩ := sending_of_exec_send hs ht hp
    rw [← hlen, ← hwire]
    exact seqStep_transmit_err (.inl hp) (hans.trans hw)

/-! ### RDACK (R174) -/

/-- The acknowledgement wait after noise: the deadline is set once more and the next answer is read. -/
theorem seqRun_ackNoise_last {noise : List Byte} {s : State} {d : List CtlAnswer} {r : List ReadAnswer}
    (hp : s.pc = .ackArm) (hb : ∀ b ∈ noise, b ≠ 0xE5)
    (hd : s.deadlineAns = List.replicate (noise.length + 1) .ok ++ d) (hr : s.readAns = noise.map .byte ++ r) :
    seqRun (2 * (noise.length + 1)) s = seqStep (armed d .ackRd (afterReads noise (.ok :: d) r s)) := by
  rw [List.replicate_succ', List.append_assoc] at hd
  rw [Nat.mul_succ, seqRun_add, ackNoise noise hp hd hr hb]
  exact congrArg seqStep (seqStep_ackArm_ok (s := afterReads noise (.ok :: d) r s) hp rfl)

/-- Settles O24: the noise is discarded pair by pair, then the last answer decides. -/
theorem rdackDiscardsUntilAck : Obligations.RdackDiscardsUntilAck := by
  refine ⟨rfl, fun s hs => ⟨running 0x21 .ackArm s, exec_of_idle .rdack hs, rfl, fun noise hnoise =>
    ⟨fun last d r hd hr => ?_, fun e d r hd hr => ?_⟩⟩⟩
  · have hrun := seqRun_ackNoise_last (s := running 0x21 .ackArm s) rfl hnoise hd hr
    intro u
    refine ⟨?_, ?_, ?_⟩
    · rintro rfl
      rw [hrun, seqStep_ackRd_ack rfl rfl, ackSeen_of_command (.inl rfl)]
      simp [u, finish, fed, armed, afterReads, running]
    · rintro e rfl
      rw [hrun, seqStep_ackRd_timeout rfl rfl]
      simp [u, raise, ErrKind.code, fillsRes, Instr.code, armed, afterReads, running]
    · rintro e rfl
      rw [hrun, seqStep_ackRd_err rfl rfl]
      simp [u, raise, ErrKind.code, fillsRes, Instr.code, armed, afterReads, running]
  · rw [seqRun_add, ackNoise noise (s := running 0x21 .ackArm s) rfl hd hr hnoise]
    exact seqStep_ackArm_err (s := afterReads noise (.err e :: d) r (running 0x21 .ackArm s)) rfl rfl

/-! ### RDLONG (R175, R179) -/

/-- Settles O25: ScanInit at the acceptance of RDLONG and at the end of REQ_BUILD. -/
theorem scanInitBeforeEveryLongRead : Obligations.ScanInitBeforeEveryLongRead := by
  refine ⟨rfl, fun s hs => exec_of_idle .rdlong hs, fun s hp => ?_⟩
  rw [seqStep_reqBuild hp]
  exact ⟨rfl, rfl, rfl, rfl⟩

/-! ### The scanner's search window (R177, 10_state.md R36) -/

theorem toNat_succ_of_le {c : Count} (h : c.toNat ≤ 257) : (c + 1).toNat = c.toNat + 1 := by
  change (c.toNat + 1) % 512 = c.toNat + 1
  omega

/-- The window with a byte taken in: one byte longer, or slid once it holds four. -/
def windowAfter (b : Byte) (s : State) : List Byte :=
  if s.rxlen.toNat < 4 then rxBytes s 0 s.rxlen.toNat ++ [b] else [rxByte s 1, rxByte s 2, rxByte s 3, b]

/-- The state with the byte in the window, not yet matched. -/
def takeByte (b : Byte) (s : State) : State := if s.rxlen.toNat < 4 then pushRx b s else slideRx b s

theorem searchByte_eq (b : Byte) (s : State) :
    searchByte b s =
      if startMatched (takeByte b s) then { takeByte b s with llen := rxByte (takeByte b s) 1, phase := true }
      else takeByte b s := rfl

theorem windowAfter_length_of_fits {b : Byte} {s : State} (h : s.rxlen.toNat ≤ 4) :
    (windowAfter b s).length = min (s.rxlen.toNat + 1) 4 := by
  unfold windowAfter
  split
  · rw [List.length_append, rxBytes_length, List.length_singleton, Nat.min_eq_left (by omega)]
  · rw [Nat.min_eq_right (by omega)]; rfl

/-- RXB holds the window, and is otherwise as it was. -/
theorem rxByte_takeByte (b : Byte) (s : State) (j : Nat) :
    rxByte (takeByte b s) j = if j < (windowAfter b s).length then (windowAfter b s).getD j 0 else rxByte s j := by
  unfold takeByte windowAfter
  split
  · rename_i h4
    rw [rxByte_pushRx b s j (by omega), List.length_append, rxBytes_length, List.length_singleton,
      List.getD_eq_getElem?_getD]
    rcases Nat.lt_trichotomy j s.rxlen.toNat with hlt | rfl | hgt
    · rw [if_neg (by omega), if_pos (by omega), List.getElem?_append_left (by simpa using hlt), rxBytes,
        readFrom_getElem?, if_pos hlt, Option.getD_some, Nat.zero_add]
    · simp
    · rw [if_neg (by omega), if_neg (by omega)]
  · rw [rxByte_slideRx]
    match j with
    | 0 | 1 | 2 | 3 => simp
    | j + 4 => simp

theorem takeByte_rxlen {b : Byte} {s : State} (h : s.rxlen.toNat ≤ 4) :
    (takeByte b s).rxlen = BitVec.ofNat 9 (windowAfter b s).length := by
  apply BitVec.eq_of_toNat_eq
  rw [windowAfter_length_of_fits h, BitVec.toNat_ofNat]
  unfold takeByte
  split
  · rw [pushRx_rxlen, toNat_succ_of_le (by omega)]
    omega
  · rw [slideRx_rxlen]
    omega

theorem rxBytes_takeByte (b : Byte) (s : State) :
    rxBytes (takeByte b s) 0 (windowAfter b s).length = windowAfter b s := by
  refine rxBytes_eq_iff.2 ⟨rfl, fun j hj => ?_⟩
  rw [rxByte_takeByte, if_pos hj, List.getD_eq_getElem?_getD, List.getElem?_eq_getElem hj, Option.getD_some]

/-- The window matches exactly if it is a start pattern. -/
theorem startMatched_takeByte {b : Byte} {s : State} (h : s.rxlen.toNat ≤ 4) :
    startMatched (takeByte b s) = true ↔ startAt (windowAfter b s) 0 := by
  have hlen : (windowAfter b s).length ≤ 4 := windowAfter_length_of_fits h ▸ Nat.min_le_right _ _
  have hmin : min (windowAfter b s).length 4 = (windowAfter b s).length := Nat.min_eq_left hlen
  have hstart : (windowAfter b s).length - 4 = 0 := Nat.sub_eq_zero_of_le hlen
  rw [startMatched_iff (bs := windowAfter b s) (by rw [takeByte_rxlen h, BitVec.toNat_ofNat]; omega)
    (by rw [hmin, hstart]; exact rxBytes_takeByte b s), hstart, and_iff_right_iff_imp]
  intro hs
  have h3 := startAt_lt hs
  omega

@[simp] theorem takeByte_ncnt (b : Byte) (s : State) : (takeByte b s).ncnt = s.ncnt := by
  unfold takeByte
  split <;> simp

@[simp] theorem takeByte_llen (b : Byte) (s : State) : (takeByte b s).llen = s.llen := by
  unfold takeByte
  split <;> simp

@[simp] theorem takeByte_phase (b : Byte) (s : State) : (takeByte b s).phase = s.phase := by
  unfold takeByte
  split <;> simp

/-- A start pattern at the beginning of a stream, byte by byte. -/
theorem startAt_zero_iff {w : List Byte} (h : 4 ≤ w.length) :
    startAt w 0 ↔ w.getD 0 0 = 0x68 ∧ w.getD 3 0 = 0x68 ∧ w.getD 1 0 = w.getD 2 0 := by
  match w, h with
  | _ :: _ :: _ :: _ :: _, _ => simp [startAt]

section Search

variable {b : Byte} {s : State} (h : s.rxlen.toNat ≤ 4)
include h

theorem searchByte_eq_of_match (hs : startAt (windowAfter b s) 0) :
    searchByte b s = { takeByte b s with llen := rxByte (takeByte b s) 1, phase := true } :=
  if_pos ((startMatched_takeByte h).2 hs)

theorem searchByte_eq_of_no_match (hs : ¬startAt (windowAfter b s) 0) : searchByte b s = takeByte b s :=
  if_neg (mt (startMatched_takeByte h).1 hs)

theorem searchByte_rxlen : (searchByte b s).rxlen = BitVec.ofNat 9 (windowAfter b s).length := by
  rw [← takeByte_rxlen h, searchByte_eq]
  split <;> rfl

/-- A match latches `L`. -/
theorem searchByte_llen :
    (searchByte b s).llen = if startAt (windowAfter b s) 0 then (windowAfter b s).getD 1 0 else s.llen := by
  by_cases hs : startAt (windowAfter b s) 0
  · have h3 := startAt_lt hs
    rw [searchByte_eq_of_match h hs, if_pos hs]
    exact (rxByte_takeByte b s 1).trans (if_pos (by omega))
  · rw [searchByte_eq_of_no_match h hs, if_neg hs, takeByte_llen]

/-- A match starts Collecting. -/
theorem searchByte_phase (hp : s.phase = false) : (searchByte b s).phase = decide (startAt (windowAfter b s) 0) := by
  by_cases hs : startAt (windowAfter b s) 0
  · rw [searchByte_eq_of_match h hs, decide_eq_true hs]
  · rw [searchByte_eq_of_no_match h hs, decide_eq_false hs, takeByte_phase, hp]

end Search

@[simp] theorem searchByte_ncnt (b : Byte) (s : State) : (searchByte b s).ncnt = s.ncnt := by
  rw [searchByte_eq]
  split <;> exact takeByte_ncnt b s

theorem rxByte_searchByte (b : Byte) (s : State) (j : Nat) :
    rxByte (searchByte b s) j =
      if j < (windowAfter b s).length then (windowAfter b s).getD j 0 else rxByte s j := by
  rw [← rxByte_takeByte, searchByte_eq]
  split <;> rfl

/-! ### The scanner's registers while a scan is in progress (R177) -/

/-- Searching leaves the window in RXB, and after a match its start pattern. -/
theorem ScanInProgress.searchByte {s : State} (h : ScanInProgress s) (hp : s.phase = false) (b : Byte)
    (hle : (searchByte b (countByte s)).ncnt.toNat ≤ 256) : ScanInProgress (searchByte b (countByte s)) := by
  obtain ⟨hn, hsearch, -⟩ := h
  have hr := hsearch hp
  have hfits : (countByte s).rxlen.toNat ≤ 4 := hr ▸ Nat.min_le_right _ _
  have hlen : (windowAfter b (countByte s)).length = min (s.rxlen.toNat + 1) 4 := windowAfter_length_of_fits hfits
  have hrx : (Machine.searchByte b (countByte s)).rxlen.toNat = min (s.ncnt.toNat + 1) 4 := by
    rw [searchByte_rxlen hfits, BitVec.toNat_ofNat, hlen]
    omega
  have hcnt : (Machine.searchByte b (countByte s)).ncnt.toNat = s.ncnt.toNat + 1 := by
    rw [searchByte_ncnt, countByte_ncnt, toNat_succ_of_le (by omega)]
  refine ⟨hle, fun _ => hcnt ▸ hrx, fun hcollect => ?_⟩
  rw [searchByte_phase hfits hp, decide_eq_true_iff] at hcollect
  have h4 := startAt_lt hcollect
  obtain ⟨h0, h3, h12⟩ := (startAt_zero_iff (by omega)).1 hcollect
  have hbyte (j : Nat) (hj : j < 4) :
      rxByte (Machine.searchByte b (countByte s)) j = (windowAfter b (countByte s)).getD j 0 := by
    rw [rxByte_searchByte, if_pos (by omega)]
  have hL := searchByte_llen (b := b) hfits
  rw [if_pos hcollect] at hL
  refine ⟨by omega, by omega, ?_, ?_, ?_, ?_⟩ <;> rw [hbyte _ (by decide)]
  · exact h0
  · exact h3
  · exact hL.symm
  · exact h12.symm.trans hL.symm

section Collect

variable {s : State} (h : ScanInProgress s) (hp : s.phase = true) (b : Byte)
include h hp

/-- Collecting stores the byte after the bytes so far. -/
theorem ScanInProgress.rxByte_pushRx (j : Nat) :
    rxByte (pushRx b (countByte s)) j = if j = s.rxlen.toNat then b else rxByte s j := by
  obtain ⟨hn, -, hcollect⟩ := h
  obtain ⟨-, hr, -⟩ := hcollect hp
  exact Machine.rxByte_pushRx b (countByte s) j (by rw [countByte_rxlen]; omega)

theorem ScanInProgress.toNat_rxlen_pushRx : (pushRx b (countByte s)).rxlen.toNat = s.rxlen.toNat + 1 := by
  obtain ⟨hn, -, hcollect⟩ := h
  obtain ⟨-, hr, -⟩ := hcollect hp
  rw [pushRx_rxlen, countByte_rxlen, toNat_succ_of_le (by omega)]

theorem ScanInProgress.pushRx (hle : (pushRx b (countByte s)).ncnt.toNat ≤ 256) :
    ScanInProgress (pushRx b (countByte s)) := by
  have hbyte := h.rxByte_pushRx hp b
  have hlen := h.toNat_rxlen_pushRx hp b
  obtain ⟨hn, -, hcollect⟩ := h
  obtain ⟨h4, hr, h0, h3, h1, h2⟩ := hcollect hp
  have hcnt : (Machine.pushRx b (countByte s)).ncnt.toNat = s.ncnt.toNat + 1 := by
    rw [pushRx_ncnt, countByte_ncnt, toNat_succ_of_le (by omega)]
  refine ⟨hle, fun hs => ?_, fun _ => ⟨by omega, by omega, ?_, ?_, ?_, ?_⟩⟩
  · rw [pushRx_phase, countByte_phase, hp] at hs
    cases hs
  all_goals rw [hbyte, if_neg (by omega)]
  · exact h0
  · exact h3
  · simpa using h1
  · simpa using h2

/-- The stop byte at index `L + 5` leaves a received frame in RXB. -/
theorem ScanInProgress.frameInRxb (hc : frameComplete b (Machine.pushRx b (countByte s)) = true) :
    FrameInRxb (Machine.pushRx b (countByte s)) := by
  have hbyte := h.rxByte_pushRx hp b
  have hlen := h.toNat_rxlen_pushRx hp b
  obtain ⟨hn, -, hcollect⟩ := h
  obtain ⟨h4, hr, h0, h3, h1, h2⟩ := hcollect hp
  simp only [frameComplete, Bool.and_eq_true, decide_eq_true_eq, beq_iff_eq] at hc
  obtain ⟨hL, hstop⟩ := hc
  refine ⟨hL, by omega, ?_, ?_, ?_, ?_, ?_⟩ <;> rw [hbyte]
  · rwa [if_neg (by omega)]
  · rwa [if_neg (by omega)]
  · rw [if_neg (by omega)]
    simpa using h1
  · rw [if_neg (by omega)]
    simpa using h2
  · rwa [if_pos (by omega)]

end Collect

/-! ### Step LF_RD (R177) -/

theorem lfIncomplete_of_le {s : State} (h : s.ncnt.toNat ≤ 256) : lfIncomplete s = { s with pc := .lfArm } :=
  if_neg (Nat.not_lt.2 h)

theorem lfIncomplete_of_gt {s : State} (h : 256 < s.ncnt.toNat) :
    lfIncomplete s = raise .frameNotFound 0 0 { s with rxlen := 0 } := if_pos h

theorem lfComplete_of_session {s : State} (ho : s.op = 0x40 ∨ s.op = 0x41) : lfComplete s = { s with pc := .verify } :=
  if_pos ho

theorem lfComplete_of_rdlong {s : State} (ho : s.op = 0x22) : lfComplete s = finish s := by
  refine if_neg ?_
  rw [ho]
  decide

theorem frameComplete_iff (b : Byte) (s : State) :
    frameComplete b s = true ↔ s.rxlen.toNat = s.llen.toNat + 6 ∧ b = 0x16 := by
  simp [frameComplete]

/-- A step that leaves all but the scanner, with the new values of its registers. -/
theorem SameButScanner.eq_update {s u : State} (h : SameButScanner s u) {n k : Count} {L : Byte} {p : Bool}
    (hn : u.ncnt = n) (hr : u.rxlen = k) (hL : u.llen = L) (hp : u.phase = p) :
    u = { s with ncnt := n, rxb := u.rxb, rxlen := k, llen := L, phase := p } := by
  subst hn hr hL hp
  exact h

/-- What LF_RD starts from once the transport has answered its read. -/
def answered (a : ReadAnswer) (r : List ReadAnswer) (s : State) : State :=
  { s with readAns := r, wire := s.wire ++ [.read a] }

section Answers

variable {s : State} {r : List ReadAnswer} (hp : s.pc = .lfRd)
include hp

theorem seqStep_lfRd_timeout {e : Nat} (hr : s.readAns = .timeout e :: r) :
    seqStep s = raise .transport 4 e { answered (.timeout e) r s with rxlen := 0 } := by
  rw [seqStep_lfRd hp, stepLfRd, tRead_of_cons _ hr]
  rfl

theorem seqStep_lfRd_err {e : Nat} (hr : s.readAns = .err e :: r) :
    seqStep s = raise .transport 3 e { answered (.err e) r s with rxlen := 0 } := by
  rw [seqStep_lfRd hp, stepLfRd, tRead_of_cons _ hr]
  rfl

theorem seqStep_lfRd_search {b : Byte} (hr : s.readAns = .byte b :: r) (hphase : s.phase = false) :
    seqStep s = lfIncomplete (searchByte b (countByte (answered (.byte b) r s))) := by
  rw [seqStep_lfRd hp, stepLfRd, tRead_of_cons _ hr]
  exact if_neg (by simp [hphase])

theorem seqStep_lfRd_collect {b : Byte} (hr : s.readAns = .byte b :: r) (hphase : s.phase = true) :
    seqStep s =
      if frameComplete b (pushRx b (countByte (answered (.byte b) r s))) then
        lfComplete (pushRx b (countByte (answered (.byte b) r s)))
      else lfIncomplete (pushRx b (countByte (answered (.byte b) r s))) := by
  rw [seqStep_lfRd hp, stepLfRd, tRead_of_cons _ hr]
  exact if_pos hphase

end Answers

/-- Settles O27: the failures, a byte while Searching, and a byte while Collecting. -/
theorem longFrameReadStep : Obligations.LongFrameReadStep := by
  intro s a r hp hscan hr v
  have hv : ScanInProgress (answered a r s) := hscan
  obtain ⟨hn, hsearch, -⟩ := id hscan
  have hcnt : (s.ncnt + 1).toNat = s.ncnt.toNat + 1 := toNat_succ_of_le (by omega)
  refine ⟨?_, ?_, ?_, ?_⟩
  · rintro e rfl
    exact seqStep_lfRd_timeout hp hr
  · rintro e rfl
    exact seqStep_lfRd_err hp hr
  · rintro b rfl hphase w
    have hfits : (countByte (answered (.byte b) r s)).rxlen.toNat ≤ 4 := hsearch hphase ▸ Nat.min_le_right _ _
    have hstep := seqStep_lfRd_search hp hr hphase
    have hncnt : (searchByte b (countByte (answered (.byte b) r s))).ncnt = s.ncnt + 1 := searchByte_ncnt ..
    refine ⟨searchByte b (countByte (answered (.byte b) r s)), ?_, hncnt ▸ hcnt, rxByte_searchByte b _, fun hle => ?_,
      fun hgt => ?_⟩
    · exact (sameButScanner_searchByte b _).eq_update hncnt (searchByte_rxlen hfits) (searchByte_llen hfits)
        (searchByte_phase hfits hphase)
    · exact hstep.trans (lfIncomplete_of_le hle)
    · exact hstep.trans (lfIncomplete_of_gt hgt)
  · rintro b rfl hphase
    have hstep := seqStep_lfRd_collect hp hr hphase
    have hcomplete := frameComplete_iff b (pushRx b (countByte (answered (.byte b) r s)))
    have hop : (pushRx b (countByte (answered (.byte b) r s))).op = s.op := pushRx_op ..
    rw [pushRx_llen] at hcomplete
    refine ⟨pushRx b (countByte (answered (.byte b) r s)), ?_, ?_, hv.toNat_rxlen_pushRx hphase b,
      hv.rxByte_pushRx hphase b, fun hL hb ho => ?_, fun hL hb ho => ?_, fun hc hle => ?_, fun hc hgt => ?_⟩
    · exact (sameButScanner_pushRx b _).eq_update (pushRx_ncnt ..) (pushRx_rxlen ..) (pushRx_llen ..) (pushRx_phase ..)
    · rw [pushRx_ncnt]
      exact hcnt
    · rw [hstep, if_pos (hcomplete.2 ⟨hL, hb⟩)]
      exact lfComplete_of_session (hop ▸ ho)
    · rw [hstep, if_pos (hcomplete.2 ⟨hL, hb⟩)]
      exact lfComplete_of_rdlong (hop ▸ ho)
    · rw [hstep, if_neg (mt hcomplete.1 hc)]
      exact lfIncomplete_of_le hle
    · rw [hstep, if_neg (mt hcomplete.1 hc)]
      exact lfIncomplete_of_gt hgt

/-! ### The whole scan (R178) -/

theorem eq_ofNat_of_toNat {c : Count} {n : Nat} (h : c.toNat = n) : c = BitVec.ofNat 9 n := by
  subst h
  simp

/-- The scan of a stream whose last byte alone can end a frame (R178). -/
theorem scanRun_concat {bs : List Byte} {b : Byte} {s : State} {d : List CtlAnswer} {r : List ReadAnswer}
    (hp : s.pc = .lfArm) (hs : ScanAt [] s) (hl : bs.length ≤ 256)
    (hnone : ∀ n ≤ bs.length, ∀ g, ¬frameAfter ((bs ++ [b]).take n) g)
    (hd : s.deadlineAns = List.replicate (bs ++ [b]).length .ok ++ d)
    (hr : s.readAns = (bs ++ [b]).map .byte ++ r) :
    ∃ u, ScanAt (bs ++ [b]) u ∧ SameButScanner { afterReads (bs ++ [b]) d r s with pc := .lfRd } u ∧
      ((∃ g, frameAfter (bs ++ [b]) g) → seqRun (2 * (bs ++ [b]).length) s = lfComplete u) ∧
      ((∀ g, ¬frameAfter (bs ++ [b]) g) → seqRun (2 * (bs ++ [b]).length) s = lfIncomplete u) := by
  rw [List.length_append, List.length_singleton] at hd ⊢
  rw [List.replicate_succ', List.append_assoc] at hd
  rw [List.map_append, List.append_assoc] at hr
  have hbefore : ∀ n, 0 < n → n ≤ bs.length → ∀ g, ¬frameAfter (bs.take n) g := fun n _ hle g => by
    simpa [List.take_append_of_le_length hle] using hnone n hle g
  obtain ⟨v, hrun, hv⟩ := scanRun bs hp hs (by simpa using hl) (by simpa using hbefore) hd hr
  obtain ⟨u, hu, hsame, hdone, hgoes⟩ := scanByte_scanAt (b := b)
    (s := fed (.byte b) r .lfRd (armed d .lfRd (afterScan bs (.ok :: d) (.byte b :: r) v s))) hv hl
  have hlast : seqRun (2 * (bs.length + 1)) s =
      scanByte b (fed (.byte b) r .lfRd (armed d .lfRd (afterScan bs (.ok :: d) (.byte b :: r) v s))) := by
    rw [Nat.mul_succ, seqRun_add, hrun]
    exact scanPair (s := afterScan bs (.ok :: d) (.byte b :: r) v s) hp rfl rfl
  refine ⟨u, hu, hsame.trans ?_, fun h => hlast.trans (hdone h), fun h => hlast.trans (hgoes h)⟩
  simp [afterReads, fed, armed, afterScan, armedReads_append, armedReads]

/-- Settles O28: the stream ends at its first complete frame, and the scanner holds the bytes from its start. -/
theorem scannerReturnsTheFirstFrame : Obligations.ScannerReturnsTheFirstFrame := by
  intro s bs g d r hp hn hr hphase hframe hle hd hra
  obtain ⟨hfirst, -, hstop⟩ := id hframe
  obtain ⟨init, rfl⟩ := List.getLast?_eq_some_iff.1 hstop
  have hl : init.length < (init ++ [(0x16 : Byte)]).length := by simp
  obtain ⟨u, ⟨hcnt, hscan⟩, hsame, hdone, -⟩ := scanRun_concat hp (scanAt_start hn hr hphase) (by omega)
    (fun n hle => frameAfter_take hframe (by omega)) hd hra
  have hrun := hdone ⟨g, hframe⟩
  rcases hscan with ⟨-, hnone, -⟩ | ⟨g', hcollect, hfirst', hL, hlen, hbytes⟩
  · exact absurd hfirst.1 (hnone g)
  obtain rfl := firstStart_unique hfirst' hfirst
  have hu := hsame.eq_update (eq_ofNat_of_toNat hcnt) (eq_ofNat_of_toNat hlen) hL hcollect
  have hop : u.op = s.op := by rw [hu]; rfl
  refine ⟨{ u with pc := s.pc }, congrArg (fun t : State => { t with pc := s.pc }) hu, ?_, fun ho => ?_, fun ho => ?_⟩
  · rw [← hbytes, ← hlen]
    rfl
  · rw [hrun, lfComplete_of_session (hop ▸ ho)]
  · rw [hrun, lfComplete_of_rdlong (hop ▸ ho)]
    rfl

/-- Settles O29: up to the bound the scan goes on, and the 257th byte ends it. -/
theorem scannerGivesUpOnByte257 : Obligations.ScannerGivesUpOnByte257 := by
  intro s bs d r hp hn hr hphase hle hnone hd hra
  have hstart := scanAt_start hn hr hphase
  rcases Nat.lt_or_ge 256 bs.length with hlong | hshort
  · obtain rfl | ⟨init, b, rfl⟩ := bs.eq_nil_or_concat'
    · simp at hlong
    have hl : (init ++ [b]).length = init.length + 1 := by simp
    obtain ⟨u, ⟨hcnt, -⟩, hsame, -, hgoes⟩ := scanRun_concat hp hstart (by omega)
      (fun n hn => hnone n (by omega)) hd hra
    have hrun := hgoes fun g hg => hnone _ (Nat.le_refl _) g (by rwa [List.take_length])
    have hu := hsame.eq_update (eq_ofNat_of_toNat hcnt) rfl rfl rfl
    refine ⟨{ u with pc := s.pc }, congrArg (fun t : State => { t with pc := s.pc }) hu, by omega, fun _ => ?_⟩
    rw [hrun, lfIncomplete_of_gt (by omega)]
    rfl
  · obtain ⟨v, hrun, hcnt, -⟩ := scanRun bs hp hstart (by simpa using hshort)
      (fun n _ hn => hnone n hn) hd hra
    refine ⟨afterScan bs d r v s, ?_, fun _ => hrun, by omega⟩
    have hv : v.ncnt = BitVec.ofNat 9 bs.length := eq_ofNat_of_toNat hcnt
    rw [← hv]
    rfl

/-! ### The scanner's registers over every step (10_state.md R36, 43_decode.md R203, R205) -/

/-- The scanner's registers and RXB are the same. -/
structure SameScanner (s t : State) : Prop where
  rxb : t.rxb = s.rxb
  rxlen : t.rxlen = s.rxlen
  llen : t.llen = s.llen
  ncnt : t.ncnt = s.ncnt
  phase : t.phase = s.phase
  epoch : t.epoch = s.epoch

/-- RXB holds a received frame or nothing. -/
def RxSettled (s : State) : Prop := s.rxlen = 0 ∨ FrameInRxb s

/-- What `ScanOk` says of the scanner's registers in the sequencer state `p`. -/
def ScannerFits (p : Pc) (s : State) : Prop :=
  match p with
  | .lfArm | .lfRd => ScanInProgress s
  | .txReq => s.rxlen = 0 ∧ s.ncnt = 0 ∧ s.phase = false
  | .verify | .decode => FrameInRxb s
  | .idle | .txCmd | .ackArm | .ackRd | .loop | .reqBuild => RxSettled s

theorem scanOk_iff (s : State) : ScanOk s ↔ s.ncnt.toNat ≤ 257 ∧ ScannerFits s.pc s := by
  unfold ScanOk ScannerFits
  cases s.pc <;> rfl

namespace SameScanner

variable {s t : State} (h : SameScanner s t)
include h

theorem frameInRxb (hs : FrameInRxb s) : FrameInRxb t := by
  obtain ⟨hb, hr, hL, -, -, he⟩ := h
  simpa [FrameInRxb, rxByte_congr hb he, hr, hL] using hs

theorem scanInProgress (hs : ScanInProgress s) : ScanInProgress t := by
  obtain ⟨hb, hr, hL, hn, hp, he⟩ := h
  simpa [ScanInProgress, rxByte_congr hb he, hr, hL, hn, hp] using hs

theorem rxSettled (hs : RxSettled s) : RxSettled t := hs.imp h.rxlen.trans h.frameInRxb

theorem scannerFits {p : Pc} (hs : ScannerFits p s) : ScannerFits p t := by
  cases p with
  | lfArm | lfRd => exact h.scanInProgress hs
  | txReq =>
    obtain ⟨hr, hn, hp⟩ := hs
    exact ⟨h.rxlen.trans hr, h.ncnt.trans hn, h.phase.trans hp⟩
  | verify | decode => exact h.frameInRxb hs
  | idle | txCmd | ackArm | ackRd | loop | reqBuild => exact h.rxSettled hs

end SameScanner

/-- A scan that has just been initialised is in progress (R175). -/
theorem scanInProgress_of_init {s : State} (hr : s.rxlen = 0) (hn : s.ncnt = 0) (hp : s.phase = false) :
    ScanInProgress s := by
  simp [ScanInProgress, hr, hn, hp]

namespace ScanOk

variable {s t : State}

theorem fits (h : ScanOk s) {p : Pc} (hp : s.pc = p) : s.ncnt.toNat ≤ 257 ∧ ScannerFits p s := hp ▸ (scanOk_iff s).1 h

theorem congr (h : ScanOk s) (hsame : SameScanner s t) (hp : t.pc = s.pc) : ScanOk t := by
  obtain ⟨hn, hfits⟩ := (scanOk_iff s).1 h
  exact (scanOk_iff t).2 ⟨hsame.ncnt ▸ hn, hp ▸ hsame.scannerFits hfits⟩

/-! #### The sequencer's steps (44_session.md R230) -/

theorem stepTxCmd (h : ScanOk s) (hs : s.pc = .txCmd) : ScanOk (stepTxCmd s) := by
  obtain ⟨hn, hrx⟩ := h.fits hs
  rcases stepTxCmd_cases s with ⟨-, e⟩ | ⟨a, rest, u, -, rfl, ⟨-, -, e⟩ | ⟨-, -, e⟩ | ⟨_, -, e⟩⟩ <;> rw [e]
  · exact h
  all_goals exact ⟨hn, hrx⟩

theorem stepAckArm (h : ScanOk s) (hs : s.pc = .ackArm) : ScanOk (stepAckArm s) := by
  obtain ⟨hn, hrx⟩ := h.fits hs
  rcases stepAckArm_cases s with ⟨-, e⟩ | ⟨a, rest, u, -, rfl, ⟨-, e⟩ | ⟨_, -, e⟩⟩ <;> rw [e]
  · exact h
  all_goals exact ⟨hn, hrx⟩

theorem stepAckRd (h : ScanOk s) (hs : s.pc = .ackRd) : ScanOk (stepAckRd s) := by
  obtain ⟨hn, hrx⟩ := h.fits hs
  rcases stepAckRd_cases s with ⟨-, e⟩ | ⟨a, rest, u, -, rfl,
    ⟨-, -, e⟩ | ⟨-, -, e⟩ | ⟨_, -, -, e⟩ | ⟨_, -, e⟩ | ⟨_, -, e⟩⟩ <;> rw [e]
  · exact h
  all_goals exact ⟨hn, hrx⟩

theorem stepLoop (h : ScanOk s) (hs : s.pc = .loop) : ScanOk (stepLoop s) := by
  obtain ⟨hn, hrx⟩ := h.fits hs
  rcases stepLoop_cases s with ⟨-, e⟩ | ⟨-, -, e⟩ | ⟨-, -, e⟩ <;> rw [e] <;> exact ⟨hn, hrx⟩

/-- REQ_BUILD initialises the scanner (R175). -/
theorem stepReqBuild (s : State) : ScanOk (stepReqBuild s) := ⟨Nat.zero_le _, rfl, rfl, rfl⟩

theorem stepTxReq (h : ScanOk s) (hs : s.pc = .txReq) : ScanOk (stepTxReq s) := by
  obtain ⟨hn, hr, hcnt, hp⟩ := h.fits hs
  rcases stepTxReq_cases s with ⟨-, e⟩ | ⟨a, rest, u, -, rfl, ⟨-, e⟩ | ⟨_, -, e⟩⟩ <;> rw [e]
  · exact h
  · exact ⟨hn, scanInProgress_of_init hr hcnt hp⟩
  · exact ⟨hn, .inl hr⟩

/-- An abort of the scan drops the frame (R176, R177). -/
theorem stepLfArm (h : ScanOk s) (hs : s.pc = .lfArm) : ScanOk (stepLfArm s) := by
  obtain ⟨hn, hscan⟩ := h.fits hs
  rcases stepLfArm_cases s with ⟨-, e⟩ | ⟨a, rest, u, -, rfl, ⟨-, e⟩ | ⟨_, -, e⟩⟩ <;> rw [e]
  · exact h
  · exact ⟨hn, hscan⟩
  · exact ⟨hn, .inl rfl⟩

/-- Past the bound the scan is aborted, up to it it goes on (R177). -/
theorem lfIncomplete (hn : s.ncnt.toNat ≤ 257) (h : s.ncnt.toNat ≤ 256 → ScanInProgress s) :
    ScanOk (lfIncomplete s) := by
  rcases lfIncomplete_cases s with ⟨-, e⟩ | ⟨hle, e⟩ <;> rw [e]
  · exact ⟨hn, .inl rfl⟩
  · exact ⟨hn, h hle⟩

theorem lfComplete (hn : s.ncnt.toNat ≤ 257) (h : FrameInRxb s) : ScanOk (lfComplete s) := by
  rcases lfComplete_cases s with ⟨-, e⟩ | ⟨-, e⟩ <;> rw [e]
  · exact ⟨hn, h⟩
  · exact ⟨hn, .inr h⟩

theorem scanByte (h : ScanInProgress s) (b : Byte) : ScanOk (scanByte b s) := by
  have hcnt : (countByte s).ncnt.toNat ≤ 257 := by
    obtain ⟨hn, -⟩ := h
    rw [countByte_ncnt, toNat_succ_of_le (by omega)]
    omega
  rcases scanByte_cases b s with ⟨hp, e⟩ | ⟨hp, hc, e⟩ | ⟨hp, -, e⟩ <;> rw [e]
  · exact lfIncomplete (searchByte_ncnt b (countByte s) ▸ hcnt) (h.searchByte hp b)
  · exact lfComplete (pushRx_ncnt b (countByte s) ▸ hcnt) (h.frameInRxb hp b hc)
  · exact lfIncomplete (pushRx_ncnt b (countByte s) ▸ hcnt) (h.pushRx hp b)

theorem stepLfRd (h : ScanOk s) (hs : s.pc = .lfRd) : ScanOk (stepLfRd s) := by
  obtain ⟨hn, hscan⟩ := h.fits hs
  rcases stepLfRd_cases s with ⟨-, e⟩ | ⟨a, rest, u, -, rfl, ⟨b, -, e⟩ | ⟨_, -, e⟩ | ⟨_, -, e⟩⟩ <;> rw [e]
  · exact h
  · exact scanByte (s := { s with readAns := rest, wire := s.wire ++ [.read a] }) hscan b
  · exact ⟨hn, .inl rfl⟩
  · exact ⟨hn, .inl rfl⟩

theorem stepVerify (h : ScanOk s) (hs : s.pc = .verify) : ScanOk (stepVerify s) := by
  obtain ⟨hn, hframe⟩ := h.fits hs
  rcases stepVerify_cases s with ⟨-, e⟩ | ⟨-, -, e⟩ | ⟨-, -, e⟩ <;> rw [e]
  · exact ⟨hn, .inr hframe⟩
  · exact ⟨hn, .inr hframe⟩
  · exact ⟨hn, hframe⟩

theorem stepDecode (h : ScanOk s) (hs : s.pc = .decode) : ScanOk (stepDecode s) := by
  obtain ⟨hn, hframe⟩ := h.fits hs
  rcases stepDecode_cases s with ⟨_, -, e⟩ | ⟨record, more, -, ⟨-, e⟩ | ⟨-, -, e⟩ | ⟨-, -, e⟩⟩ <;> rw [e] <;>
    exact ⟨hn, .inr hframe⟩

theorem seqStep (h : ScanOk s) : ScanOk (seqStep s) := by
  cases hp : s.pc with
  | idle => exact (seqStep_idle hp).symm ▸ h
  | txCmd => exact seqStep_txCmd hp ▸ h.stepTxCmd hp
  | ackArm => exact seqStep_ackArm hp ▸ h.stepAckArm hp
  | ackRd => exact seqStep_ackRd hp ▸ h.stepAckRd hp
  | loop => exact seqStep_loop hp ▸ h.stepLoop hp
  | reqBuild => exact seqStep_reqBuild hp ▸ stepReqBuild s
  | txReq => exact seqStep_txReq hp ▸ h.stepTxReq hp
  | lfArm => exact seqStep_lfArm hp ▸ h.stepLfArm hp
  | lfRd => exact seqStep_lfRd hp ▸ h.stepLfRd hp
  | verify => exact seqStep_verify hp ▸ h.stepVerify hp
  | decode => exact seqStep_decode hp ▸ h.stepDecode hp

/-! #### The host's moves (10_state.md R23, R33) -/

/-- A change to an idle block that leaves the scanner and goes to a state before the next scan. -/
theorem of_idle (h : ScanOk s) (hs : s.pc = .idle) (hsame : SameScanner s t) (hp : t.pc = .idle ∨ t.pc = .txCmd) :
    ScanOk t := by
  obtain ⟨hn, hrx⟩ := h.fits hs
  refine (scanOk_iff t).2 ⟨hsame.ncnt ▸ hn, ?_⟩
  rcases hp with hp | hp <;> rw [hp] <;> exact hsame.rxSettled hrx

theorem ifCorrectlySized (h : ScanOk s) (hs : s.pc = .idle) {body : State → State} (hb : ScanOk (body s)) :
    ScanOk (ifCorrectlySized body s) := by
  rcases ifCorrectlySized_cases body s with ⟨-, e⟩ | ⟨-, e⟩ <;> rw [e]
  · exact hb
  · exact h.of_idle hs ⟨rfl, rfl, rfl, rfl, rfl, rfl⟩ (.inl rfl)

/-- RDLONG initialises the scanner (R179), DECODE runs on a received frame (43_decode.md R205); the other commands leave
the scanner. -/
theorem acceptOf (h : ScanOk s) (hs : s.pc = .idle) (i : Instr) : ScanOk (acceptOf i s) := by
  cases i with
  | setcs | getfcb | setfcb =>
    exact h.ifCorrectlySized hs (h.of_idle hs (by constructor <;> simp) (.inl rfl))
  | send => exact h.ifCorrectlySized hs (h.of_idle hs (by constructor <;> simp) (.inr rfl))
  | setlen =>
    rcases acceptSetlen_cases s with ⟨-, -, e⟩ | e <;> rw [Machine.acceptOf, e] <;>
      exact h.of_idle hs (by constructor <;> simp) (.inl rfl)
  | bldNke | bldApprst | bldReq | bldPage | bldSetsec | bldSetpri =>
    exact h.of_idle (t := Machine.finish (build _ _ s)) hs (by constructor <;> simp) (.inl rfl)
  | rdack =>
    obtain ⟨hn, hrx⟩ := h.fits hs
    exact ⟨hn, hrx⟩
  | rdlong => exact ⟨Nat.zero_le _, scanInProgress_of_init rfl rfl rfl⟩
  | decode =>
    obtain ⟨hn, hrx⟩ := h.fits hs
    rcases acceptDecode_cases s with ⟨-, e⟩ | ⟨hr, e⟩ <;> rw [Machine.acceptOf, e]
    · exact ⟨hn, hrx⟩
    · exact ⟨hn, hrx.resolve_left hr⟩
  | rd1 | rdall => exact h.of_idle hs (by constructor <;> simp [Machine.acceptOf, sessionInit]) (.inr rfl)
  | pagechg => exact h.of_idle hs (by constructor <;> simp [Machine.acceptOf, acceptPagechg]) (.inr rfl)

theorem storeReg (h : ScanOk s) (r : Reg) (v : Nat) : ScanOk (storeReg r v s) := by
  obtain ⟨_, _, _, _, _, _, _, _, _, e⟩ := storeReg_cases r v s
  rw [e]
  exact h.congr ⟨rfl, rfl, rfl, rfl, rfl, rfl⟩ rfl

end ScanOk

/-- Settles O56, through the package of Laws/Step.lean. -/
theorem stepKeepsScannerRight : Obligations.StepKeepsScannerRight :=
  step_keeps ScanOk
    (hHost := fun _ _ _ _ h => h.congr ⟨rfl, rfl, rfl, rfl, rfl, rfl⟩ rfl)
    (hSeq := fun _ h => h.seqStep)
    (hBusy := fun _ _ h => h.congr ⟨rfl, rfl, rfl, rfl, rfl, rfl⟩ rfl)
    (hAccept := fun i s hs h =>
      ScanOk.acceptOf (s := accept i.code s) (h.congr ⟨rfl, rfl, rfl, rfl, rfl, rfl⟩ rfl) hs i)
    (hIllegal := fun _ _ hs h => h.of_idle hs ⟨rfl, rfl, rfl, rfl, rfl, rfl⟩ (.inl rfl))
    (hReg := fun r v _ _ h => h.storeReg r v)
    (hTx := fun _ _ _ _ h => h.congr (by constructor <;> simp) (by simp))
    (hReset := fun _ _ => ⟨Nat.zero_le _, .inl rfl⟩)

end Sys2Proof.Machine
end

section
/-! PROOF. The decode family (43_decode.md): step VERIFY (O31), step DECODE (O32), and the command DECODE from its
acceptance to each of its endings (O33). -/

namespace Sys2Proof.Machine

/-! ### Step VERIFY (R203) -/

theorem rxChecksumOk_iff (s : State) :
    rxChecksumOk s = true ↔ sumBytes (rxBytes s 4 s.llen.toNat) = rxByte s (4 + s.llen.toNat) := beq_iff_eq

theorem seqStep_verify_truncated {s : State} (hp : s.pc = .verify) (hL : s.llen.toNat < 3) :
    seqStep s = raise .decode 2 0 s := (seqStep_verify hp).trans (if_pos hL)

theorem seqStep_verify_checksum_bad {s : State} (hp : s.pc = .verify) (hL : 3 ≤ s.llen.toNat)
    (hsum : sumBytes (rxBytes s 4 s.llen.toNat) ≠ rxByte s (4 + s.llen.toNat)) : seqStep s = raise .decode 1 0 s := by
  rw [seqStep_verify hp, stepVerify, if_neg (Nat.not_lt.2 hL), if_neg (mt (rxChecksumOk_iff s).1 hsum)]

theorem seqStep_verify_ok {s : State} (hp : s.pc = .verify) (hL : 3 ≤ s.llen.toNat)
    (hsum : sumBytes (rxBytes s 4 s.llen.toNat) = rxByte s (4 + s.llen.toNat)) :
    seqStep s = { s with pc := .decode } := by
  rw [seqStep_verify hp, stepVerify, if_neg (Nat.not_lt.2 hL), if_pos ((rxChecksumOk_iff s).2 hsum)]

/-- Settles O31, check by check. -/
theorem verifyChecksLengthThenChecksum : Obligations.VerifyChecksLengthThenChecksum := fun _ hp _ =>
  ⟨seqStep_verify_truncated hp, seqStep_verify_checksum_bad hp, seqStep_verify_ok hp⟩

/-! ### Step DECODE (R204) -/

theorem seqStep_decode_err {s : State} {d : Nat} (hp : s.pc = .decode)
    (hdec : decAnswer s.params (rxFrame s) = .err d) : seqStep s = raise .decode 3 d s := by
  rw [seqStep_decode hp, stepDecode, hdec]

section Accepted

variable {s : State} {record : RecVal} {more : Bool} (hp : s.pc = .decode)
  (hdec : decAnswer s.params (rxFrame s) = .ok record more)
include hp hdec

theorem seqStep_decode_full (hfull : s.params.resCap = some s.rescnt) : seqStep s = raise .resOverflow 0 0 s := by
  rw [seqStep_decode hp, stepDecode, hdec]
  exact if_pos (beq_iff_eq.2 hfull)

theorem seqStep_decode_stores (hroom : s.params.resCap ≠ some s.rescnt) :
    seqStep s = decoded (appendRes record more s) := by
  rw [seqStep_decode hp, stepDecode, hdec]
  exact if_neg (mt beq_iff_eq.1 hroom)

end Accepted

theorem decoded_of_single {s : State} (ho : s.op = 0x30 ∨ s.op = 0x40) : decoded s = finish s :=
  if_neg (by rcases ho with h | h <;> rw [h] <;> decide)

theorem decoded_of_rdall {s : State} (ho : s.op = 0x41) : decoded s = { s with pc := .loop } := if_pos ho

/-- Settles O32, answer by answer. -/
theorem decodeStepStoresTheResult : Obligations.DecodeStepStoresTheResult := by
  intro s hp f
  refine ⟨fun d hdec => seqStep_decode_err hp hdec, fun record more hdec =>
    ⟨fun cap => rescntSucc_of_lt, rescntSucc_unbounded, seqStep_decode_full hp hdec, fun hroom ho => ?_,
      fun hroom ho => ?_⟩⟩
  · rw [seqStep_decode_stores hp hdec hroom]
    exact decoded_of_single ho
  · rw [seqStep_decode_stores hp hdec hroom]
    exact decoded_of_rdall ho

/-! ### The command DECODE (R205) -/

/-- The block while it runs DECODE, in the sequencer state `p`: RES is empty and MORE clear until step DECODE stores the
result. -/
def runningDecode (p : Pc) (s : State) : State := { running 0x30 p s with res := [], rescnt := 0, more := false }

theorem exec_decode_of_empty {s : State} (hs : s.pc = .idle) (hr : s.rxlen = 0) :
    exec .decode s = .next { afterAbort 0x30 5 2 s with res := [], rescnt := 0 } := by
  have hraise : raise .badSize 2 0 (accept 0x30 s) = { afterAbort 0x30 5 2 s with res := [], rescnt := 0 } := by
    simp [raise, accept, afterAbort, ErrKind.code, fillsRes, Instr.code, hs]
  rw [exec_of_idle .decode hs, ← hraise]
  exact congrArg _ (if_pos hr)

theorem exec_decode_of_frame {s : State} (hs : s.pc = .idle) (hr : s.rxlen ≠ 0) :
    exec .decode s = .next (runningDecode .verify s) :=
  (exec_of_idle .decode hs).trans (congrArg _ (if_neg hr))

/-- The first result counts as one, whatever RES_CAP is (10_state.md R32). -/
theorem rescntSucc_of_zero {s : State} (hcnt : s.rescnt = 0) (hroom : s.params.resCap ≠ some 0) :
    rescntSucc s = 1 := by
  cases hc : s.params.resCap with
  | none => rw [rescntSucc_unbounded hc, hcnt]; rfl
  | some cap =>
    have hpos : cap ≠ 0 := fun h => hroom (h ▸ hc)
    rw [rescntSucc_of_lt hc (by omega), hcnt]

section Verified

variable {s : State} (hL : 3 ≤ s.llen.toNat)
  (hsum : sumBytes (rxBytes s 4 s.llen.toNat) = rxByte s (4 + s.llen.toNat))
include hL hsum

/-- A good frame passes VERIFY, so that the second step is step DECODE. -/
theorem seqRun_two_runningDecode : seqRun 2 (runningDecode .verify s) = seqStep (runningDecode .decode s) :=
  congrArg seqStep (seqStep_verify_ok (s := runningDecode .verify s) rfl hL hsum)

theorem seqRun_runningDecode_err {e : Nat} (hdec : decAnswer s.params (rxFrame s) = .err e) :
    seqRun 2 (runningDecode .verify s) = raise .decode 3 e (runningDecode .verify s) :=
  (seqRun_two_runningDecode hL hsum).trans (seqStep_decode_err (s := runningDecode .decode s) rfl hdec)

variable {record : RecVal} {more : Bool} (hdec : decAnswer s.params (rxFrame s) = .ok record more)
include hdec

theorem seqRun_runningDecode_full (hfull : s.params.resCap = some 0) :
    seqRun 2 (runningDecode .verify s) = raise .resOverflow 0 0 (runningDecode .verify s) :=
  (seqRun_two_runningDecode hL hsum).trans (seqStep_decode_full (s := runningDecode .decode s) rfl hdec hfull)

theorem seqRun_runningDecode_stores (hroom : s.params.resCap ≠ some 0) :
    seqRun 2 (runningDecode .verify s) = { runningDecode .verify s with
      pc := .idle, done := true, more := more, rescnt := 1,
      res := [{ len := s.rxlen, frame := rxFrame s, record := record, more := more }] } := by
  have hcnt : rescntSucc (runningDecode .decode s) = 1 := rescntSucc_of_zero rfl hroom
  calc seqRun 2 (runningDecode .verify s) = seqStep (runningDecode .decode s) := seqRun_two_runningDecode hL hsum
    _ = decoded (appendRes record more (runningDecode .decode s)) := seqStep_decode_stores rfl hdec hroom
    _ = finish (appendRes record more (runningDecode .decode s)) := decoded_of_single (.inl rfl)
    _ = _ := by rw [appendRes, hcnt]; rfl

end Verified

/-- Settles O33: the acceptance, then each ending of the run. -/
theorem decodeCommandRun : Obligations.DecodeCommandRun := by
  refine ⟨rfl, fun s hs => ⟨fun h hr => ?_, exec_decode_of_empty hs, fun hr => ?_⟩⟩
  · obtain ⟨-, hrx⟩ := h.fits hs
    exact hrx.resolve_left hr
  · exact ⟨runningDecode .verify s, exec_decode_of_frame hs hr, rfl,
      seqStep_verify_truncated (s := runningDecode .verify s) rfl,
      seqStep_verify_checksum_bad (s := runningDecode .verify s) rfl,
      fun hL hsum => ⟨fun _ => seqRun_runningDecode_err hL hsum, fun _ _ hdec =>
        ⟨seqRun_runningDecode_full hL hsum hdec, seqRun_runningDecode_stores hL hsum hdec⟩⟩⟩

end Sys2Proof.Machine
end

section
/-! PROOF. The session family (44_session.md): how a step ends, with the running command and the error registers (O55)
and the abort (O42); the transition table (O38), step LOOP (O36) and step REQ_BUILD (O37); the acceptance of RD1 and
RDALL (O34); the whole runs of PAGECHG (O35), RD1 (O39) and RDALL (O40); the session's flags over every step (O59). -/

namespace Sys2Proof.Machine

/-! ### How a step ends (44_session.md R230, R232)

A sequencer step and a command's acceptance end alike: they go on to a state or stay in one, finish, or raise an error
of the table of 60_exceptions.md R242. -/

/-- OP, DONE and the error registers are the same. -/
structure SameStatus (s t : State) : Prop where
  op : t.op = s.op
  done : t.done = s.done
  errf : t.errf = s.errf
  err : t.err = s.err
  errsub : t.errsub = s.errsub
  errenv : t.errenv = s.errenv

/-- What a step changes before it raises: the answers and the log of port T, RXLEN, and in LF_RD the scanner. -/
structure AbortBase (s u : State) : Prop where
  keeps : u = { s with
    writeAns := u.writeAns, deadlineAns := u.deadlineAns, readAns := u.readAns, wire := u.wire,
    rxb := u.rxb, rxlen := u.rxlen, llen := u.llen, ncnt := u.ncnt, phase := u.phase }
  scanner : s.pc ≠ .lfRd → u.rxb = s.rxb ∧ u.llen = s.llen ∧ u.ncnt = s.ncnt ∧ u.phase = s.phase

/-- The error is a row of R242, with an environment value only where the row has one. -/
def IsErrorRow (k : ErrKind) (sub : Byte) (env : Nat) : Prop :=
  ∃ b, (k.code, sub, b) ∈ errorRows ∧ (b = false → env = 0)

/-- How a step from `s` ends; `Q` says to which states it may go. -/
inductive Ends (Q : Pc → Prop) (s : State) : State → Prop
  | goes {t : State} (h : SameStatus s t) (hq : Q t.pc) : Ends Q s t
  | finishes {u : State} (h : SameStatus s u) : Ends Q s (finish u)
  | raises {k : ErrKind} {sub : Byte} {env : Nat} {u : State} (h : AbortBase s u) (hrow : IsErrorRow k sub env) :
    Ends Q s (raise k sub env u)

theorem SameStatus.refl (s : State) : SameStatus s s := ⟨rfl, rfl, rfl, rfl, rfl, rfl⟩

theorem AbortBase.refl (s : State) : AbortBase s s := ⟨rfl, fun _ => ⟨rfl, rfl, rfl, rfl⟩⟩

theorem SameButScanner.sameStatus {s u : State} (h : SameButScanner s u) : SameStatus s u := by
  rw [h]
  exact ⟨rfl, rfl, rfl, rfl, rfl, rfl⟩

/-- An error whose row has an environment value. -/
theorem isErrorRow_env {k : ErrKind} {sub : Byte} (h : (k.code, sub, true) ∈ errorRows) (env : Nat) :
    IsErrorRow k sub env := ⟨true, h, nofun⟩

/-- An error whose row has none. -/
theorem isErrorRow_zero {k : ErrKind} {sub : Byte} (h : (k.code, sub, false) ∈ errorRows) : IsErrorRow k sub 0 :=
  ⟨false, h, fun _ => rfl⟩

/-! #### The sequencer's steps -/

/-- The running command may be in the state `q` if it may be in the present one. -/
def MayFollow (s : State) (q : Pc) : Prop := s.op ∈ mayRun s.pc → s.op ∈ mayRun q

/-- A session that fills RES runs in every busy state. -/
theorem mem_mayRun_of_session {c : Byte} {q : Pc} (hc : c = Instr.rd1.code ∨ c = Instr.rdall.code) (hq : q ≠ .idle) :
    c ∈ mayRun q := by
  cases q with
  | idle => exact absurd rfl hq
  | _ => rcases hc with rfl | rfl <;> decide

theorem stepTxCmd_ends {s : State} (hp : s.pc = .txCmd) : Ends (MayFollow s) s (stepTxCmd s) := by
  rcases stepTxCmd_cases s with ⟨-, e⟩ | ⟨a, rest, u, -, rfl, ⟨-, -, e⟩ | ⟨-, ho, e⟩ | ⟨_, -, e⟩⟩ <;> rw [e]
  · exact .goes (.refl s) id
  · exact .finishes ⟨rfl, rfl, rfl, rfl, rfl, rfl⟩
  · refine .goes ⟨rfl, rfl, rfl, rfl, rfl, rfl⟩ fun h => ?_
    rw [hp] at h
    exact List.mem_cons_of_mem _ (List.mem_of_ne_of_mem ho h)
  · exact .raises ⟨rfl, fun _ => ⟨rfl, rfl, rfl, rfl⟩⟩ (isErrorRow_env (by decide) _)

theorem stepAckArm_ends {s : State} (hp : s.pc = .ackArm) : Ends (MayFollow s) s (stepAckArm s) := by
  rcases stepAckArm_cases s with ⟨-, e⟩ | ⟨a, rest, u, -, rfl, ⟨-, e⟩ | ⟨_, -, e⟩⟩ <;> rw [e]
  · exact .goes (.refl s) id
  · exact .goes ⟨rfl, rfl, rfl, rfl, rfl, rfl⟩ fun h => by rwa [hp] at h
  · exact .raises ⟨rfl, fun _ => ⟨rfl, rfl, rfl, rfl⟩⟩ (isErrorRow_env (by decide) _)

theorem stepAckRd_ends {s : State} (hp : s.pc = .ackRd) : Ends (MayFollow s) s (stepAckRd s) := by
  rcases stepAckRd_cases s with ⟨-, e⟩ | ⟨a, rest, u, -, rfl,
    ⟨-, ho, e⟩ | ⟨-, -, e⟩ | ⟨_, -, -, e⟩ | ⟨_, -, e⟩ | ⟨_, -, e⟩⟩ <;> rw [e]
  · exact .goes (.refl s) id
  · exact .goes ⟨rfl, rfl, rfl, rfl, rfl, rfl⟩ fun _ => mem_mayRun_of_session ho (by simp)
  · exact .finishes ⟨rfl, rfl, rfl, rfl, rfl, rfl⟩
  · exact .goes ⟨rfl, rfl, rfl, rfl, rfl, rfl⟩ fun h => by rwa [hp] at h
  · exact .raises ⟨rfl, fun _ => ⟨rfl, rfl, rfl, rfl⟩⟩ (isErrorRow_env (by decide) _)
  · exact .raises ⟨rfl, fun _ => ⟨rfl, rfl, rfl, rfl⟩⟩ (isErrorRow_env (by decide) _)

theorem stepLoop_ends {s : State} (hp : s.pc = .loop) : Ends (MayFollow s) s (stepLoop s) := by
  rcases stepLoop_cases s with ⟨-, e⟩ | ⟨-, -, e⟩ | ⟨-, -, e⟩ <;> rw [e]
  · exact .goes ⟨rfl, rfl, rfl, rfl, rfl, rfl⟩ fun h => by rwa [hp] at h
  · exact .goes ⟨rfl, rfl, rfl, rfl, rfl, rfl⟩ fun h => by rwa [hp] at h
  · exact .finishes (.refl s)

theorem stepReqBuild_sameStatus (s : State) : SameStatus s (stepReqBuild s) := by
  unfold stepReqBuild
  dsimp only
  constructor <;> split <;> simp

theorem stepReqBuild_ends {s : State} (hp : s.pc = .reqBuild) : Ends (MayFollow s) s (stepReqBuild s) :=
  .goes (stepReqBuild_sameStatus s) fun h => by rwa [hp] at h

theorem stepTxReq_ends {s : State} (hp : s.pc = .txReq) : Ends (MayFollow s) s (stepTxReq s) := by
  rcases stepTxReq_cases s with ⟨-, e⟩ | ⟨a, rest, u, -, rfl, ⟨-, e⟩ | ⟨_, -, e⟩⟩ <;> rw [e]
  · exact .goes (.refl s) id
  · refine .goes ⟨rfl, rfl, rfl, rfl, rfl, rfl⟩ fun h => ?_
    rw [hp] at h
    exact List.mem_cons_of_mem _ h
  · exact .raises ⟨rfl, fun _ => ⟨rfl, rfl, rfl, rfl⟩⟩ (isErrorRow_env (by decide) _)

theorem stepLfArm_ends {s : State} (hp : s.pc = .lfArm) : Ends (MayFollow s) s (stepLfArm s) := by
  rcases stepLfArm_cases s with ⟨-, e⟩ | ⟨a, rest, u, -, rfl, ⟨-, e⟩ | ⟨_, -, e⟩⟩ <;> rw [e]
  · exact .goes (.refl s) id
  · exact .goes ⟨rfl, rfl, rfl, rfl, rfl, rfl⟩ fun h => by rwa [hp] at h
  · exact .raises ⟨rfl, fun _ => ⟨rfl, rfl, rfl, rfl⟩⟩ (isErrorRow_env (by decide) _)

theorem AbortBase.sameStatus {s u : State} (h : AbortBase s u) : SameStatus s u := by
  rw [h.keeps]
  exact ⟨rfl, rfl, rfl, rfl, rfl, rfl⟩

/-- The command stays the same to its end. -/
theorem Ends.op {Q : Pc → Prop} {s t : State} (h : Ends Q s t) : t.op = s.op := by
  cases h with
  | goes hsame => exact hsame.op
  | finishes hsame => exact hsame.op
  | raises hbase => exact hbase.sameStatus.op

theorem AbortBase.lfComplete_ends {s u : State} (h : AbortBase s u) : Ends (MayFollow s) s (lfComplete u) := by
  have hsame := h.sameStatus
  rcases lfComplete_cases u with ⟨ho, e⟩ | ⟨-, e⟩ <;> rw [e]
  · exact .goes { hsame with } fun _ => mem_mayRun_of_session (hsame.op ▸ ho) (by simp)
  · exact .finishes hsame

section ScanStep

variable {s u : State} (hp : s.pc = .lfRd) (hu : AbortBase s u)
include hp hu

/-- A step of the scanner changes the scanner alone. -/
theorem AbortBase.scan {v : State} (hv : SameButScanner u v) : AbortBase s v := by
  refine ⟨?_, fun h => absurd hp h⟩
  rw [hv, hu.keeps]

/-- LF_RD drops the frame when it raises (42_transport_io.md R177). -/
theorem AbortBase.dropRx : AbortBase s { u with rxlen := 0 } := hu.scan hp rfl

theorem AbortBase.lfIncomplete_ends : Ends (MayFollow s) s (lfIncomplete u) := by
  have hsame := hu.sameStatus
  rcases lfIncomplete_cases u with ⟨-, e⟩ | ⟨-, e⟩ <;> rw [e]
  · exact .raises (hu.dropRx hp) (isErrorRow_zero (by decide))
  · exact .goes { hsame with } fun h => by rwa [hp] at h

theorem AbortBase.scanByte_ends (b : Byte) : Ends (MayFollow s) s (scanByte b u) := by
  rcases scanByte_cases b u with ⟨-, e⟩ | ⟨-, -, e⟩ | ⟨-, -, e⟩ <;> rw [e]
  · exact (hu.scan hp (sameButScanner_searchByte b u)).lfIncomplete_ends hp
  · exact (hu.scan hp (sameButScanner_pushRx b u)).lfComplete_ends
  · exact (hu.scan hp (sameButScanner_pushRx b u)).lfIncomplete_ends hp

end ScanStep

theorem stepLfRd_ends {s : State} (hp : s.pc = .lfRd) : Ends (MayFollow s) s (stepLfRd s) := by
  rcases stepLfRd_cases s with ⟨-, e⟩ | ⟨a, rest, u, -, hu, h⟩
  · rw [e]
    exact .goes (.refl s) id
  have hbase : AbortBase s u := by subst hu; exact ⟨rfl, fun _ => ⟨rfl, rfl, rfl, rfl⟩⟩
  rcases h with ⟨b, -, e⟩ | ⟨_, -, e⟩ | ⟨_, -, e⟩ <;> rw [e]
  · exact hbase.scanByte_ends hp b
  · exact .raises (hbase.dropRx hp) (isErrorRow_env (by decide) _)
  · exact .raises (hbase.dropRx hp) (isErrorRow_env (by decide) _)

theorem stepVerify_ends {s : State} (hp : s.pc = .verify) : Ends (MayFollow s) s (stepVerify s) := by
  rcases stepVerify_cases s with ⟨-, e⟩ | ⟨-, -, e⟩ | ⟨-, -, e⟩ <;> rw [e]
  · exact .raises (.refl s) (isErrorRow_zero (by decide))
  · exact .raises (.refl s) (isErrorRow_zero (by decide))
  · exact .goes ⟨rfl, rfl, rfl, rfl, rfl, rfl⟩ fun h => by rwa [hp] at h

theorem stepDecode_ends (s : State) : Ends (MayFollow s) s (stepDecode s) := by
  rcases stepDecode_cases s with ⟨_, -, e⟩ | ⟨record, more, -, ⟨-, e⟩ | ⟨-, ho, e⟩ | ⟨-, -, e⟩⟩ <;> rw [e]
  · exact .raises (.refl s) (isErrorRow_env (by decide) _)
  · exact .raises (.refl s) (isErrorRow_zero (by decide))
  · exact .goes ⟨rfl, rfl, rfl, rfl, rfl, rfl⟩ fun _ => mem_mayRun_of_session (.inr ho) (by simp)
  · exact .finishes ⟨rfl, rfl, rfl, rfl, rfl, rfl⟩

theorem seqStep_ends (s : State) : Ends (MayFollow s) s (seqStep s) := by
  cases hp : s.pc with
  | idle => exact (seqStep_idle hp).symm ▸ .goes (.refl s) id
  | txCmd => exact seqStep_txCmd hp ▸ stepTxCmd_ends hp
  | ackArm => exact seqStep_ackArm hp ▸ stepAckArm_ends hp
  | ackRd => exact seqStep_ackRd hp ▸ stepAckRd_ends hp
  | loop => exact seqStep_loop hp ▸ stepLoop_ends hp
  | reqBuild => exact seqStep_reqBuild hp ▸ stepReqBuild_ends hp
  | txReq => exact seqStep_txReq hp ▸ stepTxReq_ends hp
  | lfArm => exact seqStep_lfArm hp ▸ stepLfArm_ends hp
  | lfRd => exact seqStep_lfRd hp ▸ stepLfRd_ends hp
  | verify => exact seqStep_verify hp ▸ stepVerify_ends hp
  | decode => exact seqStep_decode hp ▸ stepDecode_ends s

/-! #### The commands' acceptance -/

theorem ifCorrectlySized_ends {Q : Pc → Prop} {s : State} {body : State → State} (hb : Ends Q s (body s)) :
    Ends Q s (ifCorrectlySized body s) := by
  rcases ifCorrectlySized_cases body s with ⟨-, e⟩ | ⟨-, e⟩ <;> rw [e]
  · exact hb
  · exact .raises (.refl s) (isErrorRow_zero (by decide))

/-- A command that goes on may be in the state it goes to. -/
theorem acceptOf_ends (i : Instr) (s : State) : Ends (i.code ∈ mayRun ·) s (acceptOf i s) := by
  cases i with
  | setcs | getfcb | setfcb =>
    rw [acceptOf]
    refine ifCorrectlySized_ends ?_
    exact .finishes (by constructor <;> simp)
  | setlen =>
    rcases acceptSetlen_cases s with ⟨-, -, e⟩ | e <;> rw [acceptOf, e]
    · exact .finishes (by constructor <;> simp)
    · exact .raises (.refl s) (isErrorRow_zero (by decide))
  | bldNke | bldApprst | bldReq | bldPage | bldSetsec | bldSetpri =>
    refine .finishes (u := build _ _ s) ?_
    constructor <;> simp
  | send =>
    rw [acceptOf]
    refine ifCorrectlySized_ends ?_
    exact .goes (by constructor <;> simp) (show Instr.send.code ∈ mayRun .txCmd by decide)
  | rdack => exact .goes ⟨rfl, rfl, rfl, rfl, rfl, rfl⟩ (show Instr.rdack.code ∈ mayRun .ackArm by decide)
  | rdlong => exact .goes ⟨rfl, rfl, rfl, rfl, rfl, rfl⟩ (show Instr.rdlong.code ∈ mayRun .lfArm by decide)
  | decode =>
    rcases acceptDecode_cases s with ⟨-, e⟩ | ⟨-, e⟩ <;> rw [acceptOf, e]
    · exact .raises (.refl s) (isErrorRow_zero (by decide))
    · exact .goes ⟨rfl, rfl, rfl, rfl, rfl, rfl⟩ (show Instr.decode.code ∈ mayRun .verify by decide)
  | rd1 | rdall =>
    exact .goes (by constructor <;> simp [acceptOf, sessionInit])
      (mem_mayRun_of_session (q := .txCmd) (by decide) (by decide))
  | pagechg =>
    exact .goes (by constructor <;> simp [acceptOf, acceptPagechg])
      (show Instr.pagechg.code ∈ mayRun .txCmd by decide)

/-! ### The running command and the error registers over every step (60_exceptions.md R242) -/

namespace CommandOk

variable {s t : State}

theorem congr (h : CommandOk s) (hp : t.pc = s.pc) (ho : t.op = s.op) : CommandOk t := by
  rwa [CommandOk, hp, ho]

theorem of_idle (hp : t.pc = .idle) : CommandOk t := fun hbusy => absurd hp hbusy

theorem ends {Q : Pc → Prop} (h : Ends Q s t) (hQ : Q t.pc → s.op ∈ mayRun t.pc) : CommandOk t := by
  cases h with
  | goes h hq => exact fun _ => h.op ▸ hQ hq
  | finishes | raises => exact of_idle rfl

/-- In IDLE there is no step, in the other states the command goes on to a state where it may be. -/
theorem seqStep (h : CommandOk s) : CommandOk (seqStep s) := by
  by_cases hp : s.pc = .idle
  · rwa [seqStep_idle hp]
  · exact ends (seqStep_ends s) fun hfollow => hfollow (h hp)

end CommandOk

theorem step_keeps_commandOk : ∀ s t : State, CommandOk s → step s = .next t → CommandOk t :=
  step_keeps CommandOk
    (hHost := fun _ _ _ _ h => h.congr rfl rfl)
    (hSeq := fun _ h => h.seqStep)
    (hBusy := fun _ _ h => h.congr rfl rfl)
    (hAccept := fun i s _ _ => CommandOk.ends (acceptOf_ends i (accept i.code s)) id)
    (hIllegal := fun _ _ _ _ => .of_idle rfl)
    (hReg := fun r v s _ h => by
      obtain ⟨_, _, _, _, _, _, _, _, _, e⟩ := storeReg_cases r v s
      exact e ▸ h.congr rfl rfl)
    (hTx := fun _ _ _ _ h => h.congr (by simp) (by simp))
    (hReset := fun _ _ => .of_idle rfl)

namespace ErrorsOk

variable {s t : State}

/-- The invariant looks at DONE, the error registers and PC alone. -/
theorem congr (h : ErrorsOk s) (hsame : SameStatus s t) (hp : t.pc = s.pc) : ErrorsOk t := by
  obtain ⟨-, hdone, herrf, herr, hsub, henv⟩ := hsame
  rwa [ErrorsOk, hdone, herrf, herr, hsub, henv, hp]

/-- Without error and before the end of a command. -/
theorem of_clear (herr : s.err = 0) (hsub : s.errsub = 0) (henv : s.errenv = 0)
    (hrun : s.done = false ∧ s.errf = false) : ErrorsOk s :=
  ⟨⟨(0, 0, false), by decide, herr, hsub, fun _ => henv⟩, by simp [herr, hrun], by simp [hrun], fun _ => hrun⟩

theorem finish (h : ErrorsOk s) : ErrorsOk (finish s) := by
  obtain ⟨hrow, hflag, -, -⟩ := h
  exact ⟨hrow, hflag, fun _ => rfl, fun hbusy => absurd rfl hbusy⟩

theorem raise {k : ErrKind} {sub : Byte} {env : Nat} (hrow : IsErrorRow k sub env) (s : State) :
    ErrorsOk (raise k sub env s) := by
  obtain ⟨b, hmem, henv⟩ := hrow
  have hcode : k.code ≠ 0 := by cases k <;> decide
  refine ⟨⟨_, hmem, rfl, rfl, fun hb => ?_⟩, ⟨fun _ => hcode, fun _ => rfl⟩, fun _ => rfl,
    fun hbusy => absurd rfl hbusy⟩
  simp [henv hb]

section Running

variable (h : ErrorsOk s) (hrun : s.done = false ∧ s.errf = false)
include h hrun

/-- A command that has not ended may go to any state. -/
theorem goes (hsame : SameStatus s t) : ErrorsOk t := by
  obtain ⟨hrow, hflag, hend, -⟩ := h
  obtain ⟨-, hdone, herrf, herr, hsub, henv⟩ := hsame
  rw [ErrorsOk, hdone, herrf, herr, hsub, henv]
  exact ⟨hrow, hflag, hend, fun _ => hrun⟩

theorem ends {Q : Pc → Prop} (he : Ends Q s t) : ErrorsOk t := by
  cases he with
  | goes hsame _ => exact h.goes hrun hsame
  | finishes hsame => exact (h.goes hrun hsame).finish
  | raises _ hrow => exact raise hrow _

end Running

theorem seqStep (h : ErrorsOk s) : ErrorsOk (seqStep s) := by
  by_cases hp : s.pc = .idle
  · rwa [seqStep_idle hp]
  · obtain ⟨-, -, -, hrun⟩ := id h
    exact h.ends (hrun hp) (seqStep_ends s)

end ErrorsOk

theorem step_keeps_errorsOk : ∀ s t : State, ErrorsOk s → step s = .next t → ErrorsOk t :=
  step_keeps ErrorsOk
    (hHost := fun _ _ _ _ h => h.congr ⟨rfl, rfl, rfl, rfl, rfl, rfl⟩ rfl)
    (hSeq := fun _ h => h.seqStep)
    (hBusy := fun _ _ h => h.congr ⟨rfl, rfl, rfl, rfl, rfl, rfl⟩ rfl)
    (hAccept := fun i s _ _ =>
      (ErrorsOk.of_clear (s := accept i.code s) rfl rfl rfl ⟨rfl, rfl⟩).ends ⟨rfl, rfl⟩ (acceptOf_ends i _))
    (hIllegal := fun _ _ _ _ => .raise (isErrorRow_zero (by decide)) _)
    (hReg := fun r v s _ h => by
      obtain ⟨_, _, _, _, _, _, _, _, _, e⟩ := storeReg_cases r v s
      exact e ▸ h.congr ⟨rfl, rfl, rfl, rfl, rfl, rfl⟩ rfl)
    (hTx := fun _ _ _ _ h => h.congr (by constructor <;> simp) (by simp))
    (hReset := fun _ _ => .of_clear rfl rfl rfl ⟨rfl, rfl⟩)

/-- Settles O55: each of the two invariants through the package of Laws/Step.lean. -/
theorem stepKeepsCommandAndErrorsLegal : Obligations.StepKeepsCommandAndErrorsLegal :=
  fun s t hstep => ⟨fun h => step_keeps_commandOk s t h hstep, fun h => step_keeps_errorsOk s t h hstep⟩

/-! ### Abort (R232, 60_exceptions.md R250) -/

theorem fillsRes_iff (c : Byte) : fillsRes c = true ↔ c = 0x40 ∨ c = 0x41 ∨ c = 0x30 := by
  simp [fillsRes, Instr.code, or_assoc]

/-- Of the ends of a step only the abort records an error. -/
theorem raise_of_ends {Q : Pc → Prop} {s t : State} (h : Ends Q s t) (hs : s.errf = false) (ht : t.errf = true) :
    ∃ k sub env u, AbortBase s u ∧ t = raise k sub env u := by
  cases h with
  | goes hsame => simp [hsame.errf, hs] at ht
  | finishes hsame => simp [hsame.errf, hs] at ht
  | raises hbase => exact ⟨_, _, _, _, hbase, rfl⟩

/-- What R232 says is left when a step raises. -/
theorem AbortBase.frame {s u : State} (h : AbortBase s u) :
    u.op = s.op ∧ u.res = s.res ∧ u.rescnt = s.rescnt ∧ u.txb = s.txb ∧ u.txlen = s.txlen ∧ u.txkind = s.txkind ∧
      u.fcbt = s.fcbt ∧ u.first = s.first ∧ u.more = s.more ∧ u.rval = s.rval := by
  rw [h.keeps]
  exact ⟨rfl, rfl, rfl, rfl, rfl, rfl, rfl, rfl, rfl, rfl⟩

/-- Settles O42: what the step changed before it raised, then the abort; an idle block takes no further step. -/
theorem abortDiscardsResults : Obligations.AbortDiscardsResults := by
  intro s _ hs ht
  obtain ⟨k, sub, env, u, hbase, e⟩ := raise_of_ends (seqStep_ends s) hs ht
  obtain ⟨hop, hres, hcnt, htxb, htxlen, htxkind, hfcbt, hfirst, hmore, hrval⟩ := hbase.frame
  rw [e]
  refine ⟨rfl, rfl, fun ho => ?_, fun ho => ?_, htxb, htxlen, htxkind, hfcbt, hfirst, hmore, hrval, hbase.scanner,
    fun n => seqRun_idle n rfl⟩
  · have hfills : fillsRes u.op = true := (fillsRes_iff _).2 (hop ▸ ho)
    exact ⟨if_pos hfills, if_pos hfills⟩
  · have hkept : ¬fillsRes u.op = true := mt (fillsRes_iff _).1 (hop ▸ ho)
    exact ⟨(if_neg hkept).trans hres, (if_neg hkept).trans hcnt⟩

/-! ### The transition table (R230) -/

/-- Whatever the size check says, a command that finishes on a correctly sized frame ends in its acceptance. -/
theorem ifCorrectlySized_finish_pc (f : State → State) (s : State) :
    (ifCorrectlySized (fun u => finish (f u)) s).pc = .idle := by
  rcases ifCorrectlySized_cases (fun u => finish (f u)) s with ⟨-, e⟩ | ⟨-, e⟩ <;> rw [e] <;> rfl

theorem acceptSetlen_pc (s : State) : (acceptSetlen s).pc = .idle := by
  rcases acceptSetlen_cases s with ⟨-, -, e⟩ | e <;> rw [e] <;> rfl

theorem acceptSend_pc (s : State) : (acceptSend s).pc = if correctlySized s then .txCmd else .idle := by
  rw [acceptSend, ifCorrectlySized]
  split <;> rfl

theorem acceptDecode_pc (s : State) : (acceptDecode s).pc = if s.rxlen = 0 then .idle else .verify := by
  rw [acceptDecode]
  split <;> rfl

section NextPc

variable {s : State}

theorem seqStep_txCmd_pc (hp : s.pc = .txCmd) :
    (seqStep s).pc =
      match s.writeAns with
      | [] => .txCmd
      | .ok :: _ => if s.op = 0x20 then .idle else .ackArm
      | .err _ :: _ => .idle := by
  rcases stepTxCmd_cases s with ⟨hw, e⟩ | ⟨a, rest, u, hw, rfl, ⟨rfl, ho, e⟩ | ⟨rfl, ho, e⟩ | ⟨_, rfl, e⟩⟩ <;>
    rw [seqStep_txCmd hp, e, hw]
  · exact hp
  · exact (if_pos ho).symm
  · exact (if_neg ho).symm
  · rfl

theorem seqStep_ackArm_pc (hp : s.pc = .ackArm) :
    (seqStep s).pc =
      match s.deadlineAns with
      | [] => .ackArm
      | .ok :: _ => .ackRd
      | .err _ :: _ => .idle := by
  rcases stepAckArm_cases s with ⟨hd, e⟩ | ⟨a, rest, u, hd, rfl, ⟨rfl, e⟩ | ⟨_, rfl, e⟩⟩ <;>
    rw [seqStep_ackArm hp, e, hd]
  · exact hp
  · rfl

theorem seqStep_ackRd_pc (hp : s.pc = .ackRd) (ho : s.op ∈ mayRun .ackRd) :
    (seqStep s).pc =
      match s.readAns with
      | [] => .ackRd
      | .byte b :: _ => if b = 0xE5 then (if s.op = 0x21 ∨ s.op = 0x42 then .idle else .loop) else .ackArm
      | .timeout _ :: _ => .idle
      | .err _ :: _ => .idle := by
  have hcommand : s.op = 0x21 ∨ s.op = 0x42 ↔ ¬(s.op = Instr.rd1.code ∨ s.op = Instr.rdall.code) := by
    revert ho
    generalize s.op = c
    revert c
    decide
  rcases stepAckRd_cases s with ⟨hr, e⟩ | ⟨a, rest, u, hr, rfl,
    ⟨rfl, ho, e⟩ | ⟨rfl, ho, e⟩ | ⟨b, rfl, hb, e⟩ | ⟨_, rfl, e⟩ | ⟨_, rfl, e⟩⟩ <;>
    rw [seqStep_ackRd hp, e, hr]
  · exact hp
  · exact (if_neg (mt hcommand.1 (not_not.2 ho))).symm
  · exact (if_pos (hcommand.2 ho)).symm
  · exact (if_neg hb).symm
  · rfl
  · rfl

theorem seqStep_loop_pc (hp : s.pc = .loop) :
    (seqStep s).pc = if s.first = true ∨ s.more = true then .reqBuild else .idle := by
  rcases stepLoop_cases s with ⟨hf, e⟩ | ⟨-, hm, e⟩ | ⟨hf, hm, e⟩ <;> rw [seqStep_loop hp, e]
  · exact (if_pos (.inl hf)).symm
  · exact (if_pos (.inr hm)).symm
  · simp [hf, hm]

theorem seqStep_txReq_pc (hp : s.pc = .txReq) :
    (seqStep s).pc =
      match s.writeAns with
      | [] => .txReq
      | .ok :: _ => .lfArm
      | .err _ :: _ => .idle := by
  rcases stepTxReq_cases s with ⟨hw, e⟩ | ⟨a, rest, u, hw, rfl, ⟨rfl, e⟩ | ⟨_, rfl, e⟩⟩ <;>
    rw [seqStep_txReq hp, e, hw]
  · exact hp
  · rfl

theorem seqStep_lfArm_pc (hp : s.pc = .lfArm) :
    (seqStep s).pc =
      match s.deadlineAns with
      | [] => .lfArm
      | .ok :: _ => .lfRd
      | .err _ :: _ => .idle := by
  rcases stepLfArm_cases s with ⟨hd, e⟩ | ⟨a, rest, u, hd, rfl, ⟨rfl, e⟩ | ⟨_, rfl, e⟩⟩ <;>
    rw [seqStep_lfArm hp, e, hd]
  · exact hp
  · rfl

theorem lfIncomplete_pc (s : State) : (lfIncomplete s).pc = if 256 < s.ncnt.toNat then .idle else .lfArm := by
  rw [lfIncomplete]
  split <;> rfl

/-- Of the commands that scan, RDLONG alone ends with the frame. -/
theorem lfComplete_pc (ho : s.op ∈ mayRun .lfRd) : (lfComplete s).pc = if s.op = 0x22 then .idle else .verify := by
  have hsession : s.op = 0x22 ↔ ¬(s.op = Instr.rd1.code ∨ s.op = Instr.rdall.code) := by
    revert ho
    generalize s.op = c
    revert c
    decide
  rcases lfComplete_cases s with ⟨ho, e⟩ | ⟨ho, e⟩ <;> rw [e]
  · exact (if_neg (mt hsession.1 (not_not.2 ho))).symm
  · exact (if_pos (hsession.2 ho)).symm

theorem scanByte_pc (b : Byte) (ho : s.op ∈ mayRun .lfRd) :
    (scanByte b s).pc =
      if s.phase = true ∧ (s.rxlen + 1).toNat = s.llen.toNat + 6 ∧ b = 0x16 then
        (if s.op = 0x22 then .idle else .verify)
      else if 256 < (s.ncnt + 1).toNat then .idle else .lfArm := by
  have hcomplete := frameComplete_iff b (pushRx b (countByte s))
  rw [pushRx_rxlen, pushRx_llen, countByte_rxlen, countByte_llen] at hcomplete
  have hop : (pushRx b (countByte s)).op = s.op := pushRx_op ..
  rcases scanByte_cases b s with ⟨hphase, e⟩ | ⟨hphase, hc, e⟩ | ⟨hphase, hc, e⟩ <;> rw [e]
  · rw [lfIncomplete_pc, searchByte_ncnt]
    exact (if_neg fun ⟨h, _⟩ => by simp [hphase] at h).symm
  · rw [lfComplete_pc (hop ▸ ho), hop]
    exact (if_pos ⟨hphase, hcomplete.1 hc⟩).symm
  · rw [lfIncomplete_pc, pushRx_ncnt]
    exact (if_neg fun ⟨_, h⟩ => absurd (hcomplete.2 h) (by simp [hc])).symm

theorem seqStep_lfRd_pc (hp : s.pc = .lfRd) (ho : s.op ∈ mayRun .lfRd) :
    (seqStep s).pc =
      match s.readAns with
      | [] => .lfRd
      | .byte b :: _ =>
        if s.phase = true ∧ (s.rxlen + 1).toNat = s.llen.toNat + 6 ∧ b = 0x16 then
          (if s.op = 0x22 then .idle else .verify)
        else if 256 < (s.ncnt + 1).toNat then .idle else .lfArm
      | .timeout _ :: _ => .idle
      | .err _ :: _ => .idle := by
  rcases stepLfRd_cases s with ⟨hr, e⟩ | ⟨a, rest, u, hr, rfl, ⟨b, rfl, e⟩ | ⟨_, rfl, e⟩ | ⟨_, rfl, e⟩⟩ <;>
    rw [seqStep_lfRd hp, e, hr]
  · exact hp
  · exact scanByte_pc b ho
  · rfl
  · rfl

theorem seqStep_verify_pc (hp : s.pc = .verify) :
    (seqStep s).pc =
      if s.llen.toNat < 3 ∨ sumBytes (rxBytes s 4 s.llen.toNat) ≠ rxByte s (4 + s.llen.toNat) then .idle
      else .decode := by
  have hsum := rxChecksumOk_iff s
  rcases stepVerify_cases s with ⟨hL, e⟩ | ⟨-, hc, e⟩ | ⟨hL, hc, e⟩ <;> rw [seqStep_verify hp, e]
  · exact (if_pos (.inl hL)).symm
  · exact (if_pos (.inr (mt hsum.2 (by simp [hc])))).symm
  · exact (if_neg (by rintro (h | h); exacts [absurd h (by omega), h (hsum.1 hc)])).symm

theorem seqStep_decode_pc (hp : s.pc = .decode) :
    (seqStep s).pc =
      match decAnswer s.params (rxFrame s) with
      | .err _ => .idle
      | .ok _ _ => if s.params.resCap = some s.rescnt ∨ s.op ≠ 0x41 then .idle else .loop := by
  rcases stepDecode_cases s with ⟨d, hd, e⟩ | ⟨record, more, hd, ⟨hf, e⟩ | ⟨hf, ho, e⟩ | ⟨-, ho, e⟩⟩ <;>
    rw [seqStep_decode hp, e, hd]
  · rfl
  · exact (if_pos (.inl hf)).symm
  · exact (if_neg (not_or.2 ⟨hf, not_not.2 ho⟩)).symm
  · exact (if_pos (.inr ho)).symm

end NextPc

/-- The host writes an illegal code to CMD. -/
theorem step_of_illegal {c : Byte} {s : State} {rest : List HostMove} (hm : s.moves = .wr 0x00 c.toNat :: rest)
    (hc : decodeCode c = none) : step s = .next (illegalCommand c { s with moves := rest }) := by
  calc step s = writeCmd (BitVec.ofNat 8 c.toNat) { s with moves := rest } := step_of_move hm
    _ = .next (illegalCommand c { s with moves := rest }) := by
      rw [BitVec.ofNat_toNat, BitVec.setWidth_eq, writeCmd_of_illegal hc]

/-- Settles O38: the acceptance of each command, an illegal code, and the sequencer's step from each state. -/
theorem transitionTable : Obligations.TransitionTable := by
  refine ⟨fun i s t hs ht => ?_, fun c s t rest hs hm hc ht => ?_, fun s hcommand => ?_⟩
  · cases (exec_of_idle i hs).symm.trans ht
    cases i with
    | setcs | getfcb | setfcb => exact ifCorrectlySized_finish_pc _ _
    | setlen => exact acceptSetlen_pc _
    | bldNke | bldApprst | bldReq | bldPage | bldSetsec | bldSetpri => rfl
    | send => exact acceptSend_pc _
    | rdack | rdlong => rfl
    | decode => exact acceptDecode_pc _
    | rd1 | rdall | pagechg => rfl
  · cases (step_of_illegal hm hc).symm.trans ht
    exact congrArg State.pc (illegalCommand_of_idle (s := { s with moves := rest }) hc hs) |>.trans hs
  · cases hp : s.pc with
    | idle => exact (congrArg State.pc (seqStep_idle hp)).trans hp
    | txCmd => exact seqStep_txCmd_pc hp
    | ackArm => exact seqStep_ackArm_pc hp
    | ackRd => exact seqStep_ackRd_pc hp (hp ▸ hcommand (by simp [hp]))
    | loop => exact seqStep_loop_pc hp
    | reqBuild => exact congrArg State.pc (seqStep_reqBuild hp)
    | txReq => exact seqStep_txReq_pc hp
    | lfArm => exact seqStep_lfArm_pc hp
    | lfRd => exact seqStep_lfRd_pc hp (hp ▸ hcommand (by simp [hp]))
    | verify => exact seqStep_verify_pc hp
    | decode => exact seqStep_decode_pc hp

/-! ### The loop-entry test (R223) -/

section Loop

variable {s : State} (hp : s.pc = .loop)
include hp

theorem seqStep_loop_first (hf : s.first = true) : seqStep s = { s with first := false, pc := .reqBuild } := by
  rw [seqStep_loop hp]
  exact if_pos hf

theorem seqStep_loop_again (hf : s.first = false) (hm : s.more = true) :
    seqStep s = { s with fcbt := !s.fcbt, pc := .reqBuild } := by
  rw [seqStep_loop hp, stepLoop, if_neg (by simp [hf])]
  exact if_pos hm

theorem seqStep_loop_done (hf : s.first = false) (hm : s.more = false) : seqStep s = finish s := by
  rw [seqStep_loop hp, stepLoop, if_neg (by simp [hf]), if_neg (by simp [hm])]

end Loop

/-- The states of RD1 after LOOP: the request, its answer, the end. -/
def Pc.afterLoop : Pc → Bool
  | .idle | .reqBuild | .txReq | .lfArm | .lfRd | .verify | .decode => true
  | .txCmd | .ackArm | .ackRd | .loop => false

/-- RD1 goes on from DECODE to its end, so it does not come back to LOOP. -/
theorem afterLoop_seqStep {s : State} (ho : s.op = 0x40) (hp : s.pc = .loop ∨ s.pc.afterLoop = true) :
    (seqStep s).pc.afterLoop = true := by
  have hmay {q : Pc} (hq : q ≠ .idle) : s.op ∈ mayRun q := mem_mayRun_of_session (.inl ho) hq
  cases h : s.pc with
  | idle => rw [seqStep_idle h, h]; rfl
  | loop => rw [seqStep_loop_pc h]; split <;> rfl
  | reqBuild => rw [seqStep_reqBuild h]; rfl
  | txReq => rw [seqStep_txReq_pc h]; split <;> rfl
  | lfArm => rw [seqStep_lfArm_pc h]; split <;> rfl
  | lfRd => rw [seqStep_lfRd_pc h (hmay (by decide))]; (repeat' split) <;> rfl
  | verify => rw [seqStep_verify_pc h]; split <;> rfl
  | decode => rw [seqStep_decode_pc h, if_pos (.inr (by rw [ho]; decide))]; split <;> rfl
  | txCmd | ackArm | ackRd => simp [h, Pc.afterLoop] at hp

theorem seqStep_op (s : State) : (seqStep s).op = s.op := by
  obtain ⟨hop, -, -⟩ := (seqStep_frame s).command
  exact hop

theorem afterLoop_seqRun {s : State} (ho : s.op = 0x40) (hp : s.pc.afterLoop = true) (n : Nat) :
    (seqRun n s).pc.afterLoop = true := by
  induction n generalizing s with
  | zero => exact hp
  | succ n ih => exact ih ((seqStep_op s).trans ho) (afterLoop_seqStep ho (.inr hp))

/-- RD1 enters LOOP from the acknowledgement alone, which starts the session (R222). -/
theorem first_of_enters_loop {s : State} (ho : s.op = 0x40) (hp : s.pc ≠ .loop) (hnext : (seqStep s).pc = .loop) :
    (seqStep s).first = true := by
  by_cases hafter : s.pc.afterLoop = true
  · have := afterLoop_seqStep ho (.inr hafter)
    rw [hnext] at this
    cases this
  cases h : s.pc with
  | ackRd =>
    rcases stepAckRd_cases s with ⟨-, e⟩ | ⟨a, rest, u, -, -,
      ⟨-, -, e⟩ | ⟨-, -, e⟩ | ⟨_, -, -, e⟩ | ⟨_, -, e⟩ | ⟨_, -, e⟩⟩ <;> rw [seqStep_ackRd h, e] at hnext ⊢
    · exact absurd hnext hp
    · rfl
    all_goals cases hnext
  | txCmd => rw [seqStep_txCmd_pc h] at hnext; (repeat' split at hnext) <;> cases hnext
  | ackArm => rw [seqStep_ackArm_pc h] at hnext; split at hnext <;> cases hnext
  | loop => exact absurd h hp
  | idle | reqBuild | txReq | lfArm | lfRd | verify | decode => simp [h, Pc.afterLoop] at hafter

/-- Settles O36: the three branches; then RD1, which enters LOOP once. -/
theorem loopEntryTest : Obligations.LoopEntryTest := by
  refine ⟨fun s hp => ⟨seqStep_loop_first hp, seqStep_loop_again hp, seqStep_loop_done hp⟩, fun s ho =>
    ⟨first_of_enters_loop ho, fun hp n hloop => ?_⟩⟩
  have hafter := afterLoop_seqRun ((seqStep_op s).trans ho) (afterLoop_seqStep ho (.inl hp)) n
  rw [show seqRun n (seqStep s) = seqRun (n + 1) s from rfl, hloop] at hafter
  cases hafter

/-! ### Building the request (R224) -/

/-- A frame held at the beginning of TXB, with its length in TXLEN, is the frame in TXB. -/
theorem txFrame_of_txbHolds {f : List Byte} {s t : State} (h : txbHolds f s t) (hlen : t.txlen.toNat = f.length) :
    txFrame t = f := by
  apply List.ext_getElem?
  intro j
  rw [txFrame, hlen, txBytes, readFrom_getElem?, Nat.zero_add]
  split
  · rw [h j, if_pos ‹_›, List.getD_eq_getElem?_getD, List.getElem?_eq_getElem ‹_›, Option.getD_some]
  · exact (List.getElem?_eq_none (Nat.not_lt.1 ‹_›)).symm

/-- The request in TXB with the FCB bit set as FCBT says, its checksum not yet computed again. -/
def requestBuilt (s : State) : State :=
  if s.fcbt then setFcb (build 1 (reqBytes s) s) else build 1 (reqBytes s) s

theorem stepReqBuild_eq (s : State) :
    stepReqBuild s = { scanInit (setChecksum (requestBuilt s)) with pc := .txReq } := by
  simp only [stepReqBuild, requestBuilt, build_fcbt]

theorem requestBuilt_frame (s : State) :
    requestBuilt s = { s with txb := (requestBuilt s).txb, txlen := 9, txkind := 1 } := by
  unfold requestBuilt
  split
  · rw [setFcb_frame, build_frame]; rfl
  · rw [build_frame]; rfl

/-- Building leaves the frame the template becomes. -/
theorem txbHolds_build_of_txFrame {k : BitVec 1} {bs f : List Byte} {s : State} (hfit : FitsKind k bs)
    (hframe : txFrame (build k bs s) = f) : txbHolds f s (build k bs s) := hframe ▸ txbHolds_build hfit s

/-- Only the bytes outside the frame are those of the state before. -/
theorem txbHolds_of_same_bytes {f : List Byte} {s s' t : State} (h : txbHolds f s t)
    (hs : ∀ i, txByte s' i = txByte s i) : txbHolds f s' t := fun i => by
  rw [hs]
  exact h i

/-- Going to a state leaves TXB. -/
theorem txbHolds_goto {f : List Byte} {s t : State} (h : txbHolds f s t) (q : Pc) : txbHolds f s { t with pc := q } :=
  fun i => (txByte_congr rfl rfl i).trans (h i)

/-- The data request of R153 in TXB. -/
theorem txbHolds_build_reqBytes (s : State) :
    txbHolds (longFrame [s.params.cReq, s.addr, 0x51]) s (build 1 (reqBytes s) s) :=
  txbHolds_build_of_txFrame (fitsKind_longBytes _ _ _ (by simp)) (txFrame_build_longBytes _ _ _ [] s (by simp))

theorem txByte_requestBuilt (s : State) (j : Nat) :
    txByte (requestBuilt s) j =
      if j = 4 then requestC s.params s.fcbt else txByte (build 1 (reqBytes s) s) j := by
  have hC : txByte (build 1 (reqBytes s) s) 4 = s.params.cReq := txbHolds_build_reqBytes s 4
  unfold requestBuilt requestC
  cases s.fcbt with
  | false =>
    simp only [Bool.false_eq_true, if_false]
    split
    · rw [‹j = 4›, hC]
    · rfl
  | true =>
    have hidx : cidx (build 1 (reqBytes s) s) = 4 := by simp [cidx]
    rw [if_pos rfl, if_pos rfl, txByte_setFcb, hidx, hC]
    rfl

theorem txChecksum_requestBuilt (s : State) :
    txChecksum (requestBuilt s) = requestC s.params s.fcbt + s.addr + 0x51 := by
  have hlong : (requestBuilt s).txkind = 1 := by rw [requestBuilt_frame]
  have hlen : (requestBuilt s).txlen = 9 := by rw [requestBuilt_frame]
  have hA : txByte (build 1 (reqBytes s) s) 5 = s.addr := txbHolds_build_reqBytes s 5
  have hCI : txByte (build 1 (reqBytes s) s) 6 = 0x51 := txbHolds_build_reqBytes s 6
  rw [txChecksum_long hlong, hlen]
  change txByte (requestBuilt s) 4 + (txByte (requestBuilt s) 5 + (txByte (requestBuilt s) 6 + 0#8)) = _
  rw [txByte_requestBuilt, txByte_requestBuilt, txByte_requestBuilt, hA, hCI, BitVec.add_zero, BitVec.add_assoc]
  rfl

/-- REQ_BUILD leaves the request with the FCB bit of FCBT. -/
theorem txbHolds_stepReqBuild (s : State) : txbHolds (requestFrame s.params s.addr s.fcbt) s (stepReqBuild s) := by
  have hcs : csidx (requestBuilt s) = 7 := by rw [requestBuilt_frame]; rfl
  intro j
  have hbyte : txByte (stepReqBuild s) j =
      if j = 7 then requestC s.params s.fcbt + s.addr + 0x51
      else if j = 4 then requestC s.params s.fcbt else txByte (build 1 (reqBytes s) s) j := by
    rw [← txChecksum_requestBuilt, ← txByte_requestBuilt, ← hcs, stepReqBuild_eq]
    exact txByte_setChecksum _ _ (by rw [hcs]; decide)
  have hbuilt := txbHolds_build_reqBytes s j
  rw [hbyte, hbuilt]
  rcases Nat.lt_or_ge j 9 with h | h
  · clear hbyte hbuilt
    interval_cases j <;> simp [longFrame, requestFrame]
  · have hlong : ¬j < (longFrame [s.params.cReq, s.addr, 0x51]).length := Nat.not_lt.2 h
    have hrequest : ¬j < (requestFrame s.params s.addr s.fcbt).length := Nat.not_lt.2 h
    rw [if_neg (by omega), if_neg (by omega), if_neg hlong, if_neg hrequest]

/-- The block after REQ_BUILD, which left `m` in TXB. -/
def requested (m : Memory) (s : State) : State :=
  { s with pc := .txReq, txb := m, txlen := 9, txkind := 1, ncnt := 0, rxlen := 0, llen := 0, phase := false }

theorem stepReqBuild_requested (s : State) :
    ∃ m, stepReqBuild s = requested m s ∧ txbHolds (requestFrame s.params s.addr s.fcbt) s (requested m s) := by
  have hnext : stepReqBuild s = requested (stepReqBuild s).txb s := by
    rw [stepReqBuild_eq, setChecksum_frame, requestBuilt_frame]
    rfl
  exact ⟨_, hnext, hnext ▸ txbHolds_stepReqBuild s⟩

/-- The request REQ_BUILD leaves in TXB. -/
theorem txFrame_requested {m : Memory} {s : State}
    (h : txbHolds (requestFrame s.params s.addr s.fcbt) s (requested m s)) :
    txFrame (requested m s) = requestFrame s.params s.addr s.fcbt := txFrame_of_txbHolds h rfl

/-- Settles O37: the two values of FCBT. -/
theorem requestBuildStep : Obligations.RequestBuildStep := by
  intro s hp
  obtain ⟨m, hnext, hbytes⟩ := stepReqBuild_requested s
  refine ⟨requested m s, (seqStep_reqBuild hp).trans hnext, rfl, fun hf => ?_, fun hf => ?_⟩ <;>
    rw [hf] at hbytes <;> exact hbytes

/-! ### The acceptance of RD1, RDALL and PAGECHG (R212, R213) -/

/-- The block after the acceptance of RD1 or RDALL, which left `m` in TXB. -/
def sessionAccepted (i : Instr) (m : Memory) (s : State) : State :=
  { running i.code .txCmd s with res := [], rescnt := 0, txb := m, txlen := 5, txkind := 0 }

/-- The block after the acceptance of PAGECHG, which left `m` in TXB. -/
def pagechgAccepted (m : Memory) (s : State) : State :=
  { running 0x42 .txCmd s with txb := m, txlen := 14, txkind := 1 }

theorem sessionInit_accept (i : Instr) (s : State) :
    ∃ m, sessionInit (accept i.code s) = sessionAccepted i m s ∧
      txbHolds (linkResetFrame s.addr) s (sessionAccepted i m s) := by
  have hbytes := txbHolds_build_of_txFrame (fitsKind_nkeBytes (accept i.code s))
    (txFrame_build_nke (clearRes (accept i.code s)) _)
  have hnext : sessionInit (accept i.code s) = sessionAccepted i (sessionInit (accept i.code s)).txb s := by
    rw [sessionInit, build_frame]
    rfl
  refine ⟨_, hnext, hnext ▸ ?_⟩
  exact txbHolds_goto (txbHolds_of_same_bytes hbytes (txByte_congr rfl rfl)) .txCmd

/-- The acceptance of RD1 and RDALL (R212). -/
theorem exec_session {i : Instr} {s : State} (hi : i = .rd1 ∨ i = .rdall) (hs : s.pc = .idle) :
    ∃ m, exec i s = .next (sessionAccepted i m s) ∧ txbHolds (linkResetFrame s.addr) s (sessionAccepted i m s) := by
  obtain ⟨m, hnext, hbytes⟩ := sessionInit_accept i s
  have haccept : acceptOf i = sessionInit := by rcases hi with rfl | rfl <;> rfl
  exact ⟨m, by rw [exec_of_idle i hs, haccept, hnext], hbytes⟩

/-- Settles O34: both commands have the same acceptance action. -/
theorem sessionInitBuildsLinkReset : Obligations.SessionInitBuildsLinkReset := by
  intro s hs i hi
  obtain ⟨m, hexec, hbytes⟩ := exec_session hi hs
  exact ⟨_, hexec, rfl, hbytes⟩

theorem pageFrame_eq_longFrame (a page : Byte) :
    pageFrame a page = longFrame [0x73, a, 0x51, 0x0F, 0x02, 0x78, page, 0x00] := by
  rw [longFrame_cons]
  simp [pageFrame]

/-- The acceptance of PAGECHG (R213). -/
theorem exec_pagechg {s : State} (hs : s.pc = .idle) :
    ∃ m, exec .pagechg s = .next (pagechgAccepted m s) ∧ txbHolds (pageFrame s.addr s.arg) s (pagechgAccepted m s) := by
  have hbytes : txbHolds (longFrame [0x73, s.addr, 0x51, 0x0F, 0x02, 0x78, s.arg, 0x00]) (accept 0x42 s)
      (build 1 (pageBytes (accept 0x42 s)) (accept 0x42 s)) :=
    txbHolds_build_of_txFrame (fitsKind_longBytes _ _ _ (by simp)) (txFrame_build_longBytes _ _ _ _ _ (by simp))
  have hnext : acceptPagechg (accept 0x42 s) = pagechgAccepted (acceptPagechg (accept 0x42 s)).txb s := by
    rw [acceptPagechg, build_frame]
    rfl
  refine ⟨_, (exec_of_idle .pagechg hs).trans (congrArg _ hnext), hnext ▸ ?_⟩
  rw [pageFrame_eq_longFrame]
  exact txbHolds_goto (txbHolds_of_same_bytes hbytes (txByte_congr rfl rfl)) .txCmd

/-! ### A command is written and acknowledged (R210, R211, R213) -/

/-- TX_CMD and the acknowledgement wait, up to what follows the acknowledgement. -/
theorem seqRun_acknowledged {noise : List Byte} {s : State} {w d : List CtlAnswer} {r : List ReadAnswer}
    (hp : s.pc = .txCmd) (ho : s.op ≠ Instr.send.code) (hb : ∀ b ∈ noise, b ≠ 0xE5) (hw : s.writeAns = .ok :: w)
    (hd : s.deadlineAns = List.replicate (noise.length + 1) .ok ++ d)
    (hr : s.readAns = (noise ++ [0xE5]).map .byte ++ r) :
    seqRun (2 * noise.length + 3) s = ackSeen { s with
      pc := .ackRd, writeAns := w, deadlineAns := d, readAns := r,
      wire := s.wire ++ .write (txFrame s) .ok :: armedReads s.tmo (noise ++ [0xE5]) } := by
  rw [List.map_append, List.append_assoc] at hr
  have hwait := seqRun_ackNoise_last (s := sent w .ackArm s) rfl hb hd hr
  rw [show 2 * noise.length + 3 = 2 * (noise.length + 1) + 1 by omega, seqRun, seqStep_txCmd_ok hp hw ho, hwait,
    seqStep_ackRd_ack rfl rfl]
  simp [fed, armed, afterReads, sent, armedReads_append, armedReads]

/-- Settles O35: the acceptance, then the acknowledgement, which finishes PAGECHG. -/
theorem pagechgRun : Obligations.PagechgRun := by
  refine ⟨rfl, fun s hs => ?_⟩
  obtain ⟨m, hexec, hbytes⟩ := exec_pagechg hs
  have hframe : txFrame (pagechgAccepted m s) = pageFrame s.addr s.arg := txFrame_of_txbHolds hbytes rfl
  refine ⟨_, hexec, rfl, ?_, fun noise w d r hb hw hd hr => ?_⟩
  · simpa [pageFrame] using hbytes
  · have hrun := seqRun_acknowledged (s := pagechgAccepted m s) rfl
      (show (0x42 : Byte) ≠ Instr.send.code by decide) hb hw hd hr
    rw [hframe] at hrun
    exact hrun.trans (ackSeen_of_command (.inr rfl))

/-! ### One request and its answer (R224, R231, 43_decode.md R203, R204) -/

theorem rxByte_of_rxFrame {s : State} {f : List Byte} (hf : rxFrame s = f) {j : Nat} (hj : j < f.length) :
    rxByte s j = f.getD j 0 := by
  obtain ⟨hlen, hbyte⟩ := rxBytes_eq_iff.1 hf
  rw [List.getD_eq_getElem?_getD, hbyte j (by omega), Option.getD_some]

theorem rxBytes_of_rxFrame {s : State} {f : List Byte} (hf : rxFrame s = f) {i n : Nat} (hn : i + n ≤ f.length) :
    rxBytes s i n = (f.drop i).take n := by
  apply List.ext_getElem?
  intro k
  rw [rxBytes, readFrom_getElem?, List.getElem?_take]
  split
  · rw [List.getElem?_drop, rxByte_of_rxFrame hf (by omega), List.getD_eq_getElem?_getD,
      List.getElem?_eq_getElem (by omega), Option.getD_some]
  · rfl

/-- RXB holding a good reply's frame passes VERIFY. -/
theorem Reply.good.verified {p : Reply} {prm : Params} {more : Bool} {s : State} (h : p.good prm more)
    (hframe : rxFrame s = p.frame) (hL : s.llen.toNat = p.frame.length - 6) :
    3 ≤ s.llen.toNat ∧ sumBytes (rxBytes s 4 s.llen.toNat) = rxByte s (4 + s.llen.toNat) := by
  obtain ⟨-, -, h9, hsum, -⟩ := h
  refine ⟨by omega, ?_⟩
  rw [rxBytes_of_rxFrame hframe (by omega), rxByte_of_rxFrame hframe (by omega), hL, ← hsum,
    show 4 + (p.frame.length - 6) = p.frame.length - 2 by omega]

/-- A good reply's frame is as long as its length byte says and fits RXB. -/
theorem Reply.good.length {p : Reply} {prm : Params} {more : Bool} (h : p.good prm more) :
    ∃ g, frameAfter p.stream g ∧ p.frame = p.stream.drop g ∧ p.stream.length - g = p.frame.length ∧
      p.frame.length = (p.stream.getD (g + 1) 0).toNat + 6 := by
  obtain ⟨⟨g, hg, hdrop⟩, -⟩ := h
  obtain ⟨-, hlen, -⟩ := id hg
  have hframe : p.frame.length = p.stream.length - g := by rw [hdrop, List.length_drop]
  exact ⟨g, hg, hdrop, hframe.symm, by omega⟩

/-- The state after the scan of a good reply, which left `x` in RXB. -/
def replyScanned (p : Reply) (x : Memory) (d : List CtlAnswer) (r : List ReadAnswer) (s : State) : State :=
  { s with
    rxb := x, rxlen := BitVec.ofNat 9 p.frame.length, llen := BitVec.ofNat 8 (p.frame.length - 6),
    ncnt := BitVec.ofNat 9 p.stream.length, phase := true, deadlineAns := d, readAns := r,
    wire := s.wire ++ armedReads s.tmo p.stream }

/-- The scanner returns the frame of a good reply (42_transport_io.md R178). -/
theorem seqRun_replyScanned {p : Reply} {more : Bool} {s : State} {d : List CtlAnswer} {r : List ReadAnswer}
    (hp : s.pc = .lfArm) (hn : s.ncnt = 0) (hrx : s.rxlen = 0) (hphase : s.phase = false)
    (ho : s.op = 0x40 ∨ s.op = 0x41) (hgood : p.good s.params more)
    (hd : s.deadlineAns = List.replicate p.stream.length .ok ++ d) (hr : s.readAns = p.stream.map .byte ++ r) :
    ∃ x, rxFrame (replyScanned p x d r s) = p.frame ∧
      seqRun (2 * p.stream.length) s = { replyScanned p x d r s with pc := .verify } := by
  obtain ⟨-, hle, -⟩ := id hgood
  obtain ⟨g, hg, hdrop, hlen, hL⟩ := hgood.length
  obtain ⟨u, hu, hframe, hscan, -⟩ := scannerReturnsTheFirstFrame s p.stream g d r hp hn hrx hphase hg hle hd hr
  have hLL : p.stream.getD (g + 1) 0 = BitVec.ofNat 8 (p.frame.length - 6) := by
    rw [hL, Nat.add_sub_cancel]
    simp
  rw [hlen, hLL] at hu
  refine ⟨u.rxb, ?_, ?_⟩
  · rw [hdrop, ← hframe]
    exact congrArg rxFrame hu.symm
  · rw [hscan ho]
    exact congrArg (fun v : State => { v with pc := .verify }) hu

/-- The block after the request of FCBT has been written from `m`. -/
def requestSent (m : Memory) (w : List CtlAnswer) (s : State) : State :=
  { requested m s with
    pc := .lfArm, writeAns := w, wire := s.wire ++ [.write (requestFrame s.params s.addr s.fcbt) .ok] }

/-- REQ_BUILD and TX_REQ write the request (R224, 42_transport_io.md R180). -/
theorem seqRun_requestSent {s : State} {w : List CtlAnswer} (hp : s.pc = .reqBuild) (hw : s.writeAns = .ok :: w) :
    ∃ m, seqRun 2 s = requestSent m w s := by
  obtain ⟨m, hnext, hbytes⟩ := stepReqBuild_requested s
  have hsent := seqStep_txReq_ok (s := requested m s) rfl hw
  rw [sent, txFrame_requested hbytes] at hsent
  refine ⟨m, ?_⟩
  rw [seqRun, seqRun, seqRun, seqStep_reqBuild hp, hnext, hsent]
  rfl

/-- VERIFY and DECODE take a good reply's frame and store its result (43_decode.md R203, R204). -/
theorem seqRun_decoded {p : Reply} {more : Bool} {s : State} (hp : s.pc = .verify) (hgood : p.good s.params more)
    (hframe : rxFrame s = p.frame) (hlen : s.rxlen = BitVec.ofNat 9 p.frame.length)
    (hL : s.llen = BitVec.ofNat 8 (p.frame.length - 6)) (hroom : s.params.resCap ≠ some s.rescnt) :
    seqRun 2 s = decoded { s with
      pc := .decode, res := s.res ++ [p.entry more], rescnt := rescntSucc s, more := more } := by
  obtain ⟨-, -, -, -, hdec⟩ := id hgood
  obtain ⟨g, -, -, -, hbyte⟩ := hgood.length
  have hLn : s.llen.toNat = p.frame.length - 6 := by
    rw [hL, BitVec.toNat_ofNat]
    omega
  obtain ⟨hL3, hsum⟩ := hgood.verified hframe hLn
  have hstored := seqStep_decode_stores (s := { s with pc := .decode }) rfl (hframe ▸ hdec) hroom
  have hentry : p.entry more = ⟨s.rxlen, rxFrame s, p.record, more⟩ := by rw [hlen, hframe]; rfl
  rw [seqRun, seqRun, seqRun, seqStep_verify_ok hp hL3 hsum, hstored, hentry]
  rfl

/-- The block at the end of a request, before RD1 finishes or RDALL goes to LOOP: the reply's frame scanned and its
result stored. `m` and `x` are left in TXB and RXB. -/
def afterReply (p : Reply) (more : Bool) (m x : Memory) (w d : List CtlAnswer) (r : List ReadAnswer) (s : State) :
    State :=
  { s with
    pc := .decode, txb := m, txlen := 9, txkind := 1, rxb := x, rxlen := BitVec.ofNat 9 p.frame.length,
    llen := BitVec.ofNat 8 (p.frame.length - 6), ncnt := BitVec.ofNat 9 p.stream.length, phase := true, more := more,
    res := s.res ++ [p.entry more], rescnt := rescntSucc s, writeAns := w, deadlineAns := d, readAns := r,
    wire := s.wire ++ .write (requestFrame s.params s.addr s.fcbt) .ok :: armedReads s.tmo p.stream }

/-- A good reply to a request: its frame is scanned, verified, decoded and stored. -/
theorem seqRun_reply {p : Reply} {more : Bool} {s : State} {w d : List CtlAnswer} {r : List ReadAnswer}
    (hp : s.pc = .reqBuild) (ho : s.op = 0x40 ∨ s.op = 0x41) (hgood : p.good s.params more)
    (hroom : s.params.resCap ≠ some s.rescnt) (hw : s.writeAns = .ok :: w)
    (hd : s.deadlineAns = List.replicate p.stream.length .ok ++ d) (hr : s.readAns = p.stream.map .byte ++ r) :
    ∃ m x, seqRun (2 * p.stream.length + 4) s = decoded (afterReply p more m x w d r s) ∧
      rxFrame (afterReply p more m x w d r s) = p.frame := by
  obtain ⟨m, hrequested⟩ := seqRun_requestSent hp hw
  obtain ⟨x, hframe, hscan⟩ := seqRun_replyScanned (s := requestSent m w s) rfl rfl rfl rfl ho hgood hd hr
  have hdecoded := seqRun_decoded (s := { replyScanned p x d r (requestSent m w s) with pc := .verify }) rfl hgood
    hframe rfl rfl hroom
  have hwire : s.wire ++ [.write (requestFrame s.params s.addr s.fcbt) .ok] ++ armedReads s.tmo p.stream =
      s.wire ++ .write (requestFrame s.params s.addr s.fcbt) .ok :: armedReads s.tmo p.stream := by simp
  refine ⟨m, x, ?_, hframe⟩
  rw [show 2 * p.stream.length + 4 = 2 + (2 * p.stream.length + 2) by omega, seqRun_add, seqRun_add, hrequested, hscan,
    hdecoded, afterReply, ← hwire]
  rfl

/-! ### The session starts (R210, R211, R222, R223) -/

/-- The block in its first REQ_BUILD of a session. -/
def sessionOpened (i : Instr) (m : Memory) (noise : List Byte) (w d : List CtlAnswer) (r : List ReadAnswer)
    (s : State) : State :=
  { sessionAccepted i m s with
    pc := .reqBuild, fcbt := false, first := false, more := false, writeAns := w, deadlineAns := d, readAns := r,
    wire := s.wire ++ .write (linkResetFrame s.addr) .ok :: armedReads s.tmo (noise ++ [0xE5]) }

/-- RD1 and RDALL write the link reset, wait for the acknowledgement and take the first branch of LOOP. -/
theorem exec_sessionOpened {i : Instr} {noise : List Byte} {s : State} {w d : List CtlAnswer} {r : List ReadAnswer}
    (hi : i = .rd1 ∨ i = .rdall) (hs : s.pc = .idle) (hb : ∀ b ∈ noise, b ≠ 0xE5) (hw : s.writeAns = .ok :: w)
    (hd : s.deadlineAns = List.replicate (noise.length + 1) .ok ++ d)
    (hr : s.readAns = (noise ++ [0xE5]).map .byte ++ r) :
    ∃ t m, exec i s = .next t ∧ seqRun (2 * noise.length + 4) t = sessionOpened i m noise w d r s := by
  obtain ⟨m, hexec, hbytes⟩ := exec_session hi hs
  have hop : i.code = 0x40 ∨ i.code = 0x41 := hi.imp (congrArg Instr.code) (congrArg Instr.code)
  have hsend : i.code ≠ Instr.send.code := by rcases hi with rfl | rfl <;> decide
  have hrun := seqRun_acknowledged (s := sessionAccepted i m s) rfl hsend hb hw hd hr
  rw [txFrame_of_txbHolds hbytes rfl, ackSeen_of_session hop] at hrun
  refine ⟨_, m, hexec, ?_⟩
  rw [show 2 * noise.length + 4 = (2 * noise.length + 3) + 1 by omega, seqRun_add, hrun, seqRun,
    seqStep_loop_first rfl rfl]
  rfl

/-! ### RD1 (R210, R233) -/

/-- Settles O39: the session opens, and its one request is answered. -/
theorem readSingleFrameRun : Obligations.ReadSingleFrameRun := by
  intro s noise p more w d r hs hb hgood hroom hw hd hr
  rw [List.replicate_add, List.append_assoc] at hd
  rw [List.map_append, List.append_assoc] at hr
  obtain ⟨t, m, hexec, hopened⟩ := exec_sessionOpened (.inl rfl) hs hb hw hd hr
  let v := sessionOpened .rd1 m noise (.ok :: w) (List.replicate p.stream.length .ok ++ d) (p.stream.map .byte ++ r) s
  obtain ⟨m', x, hreply, hframe⟩ := seqRun_reply (s := v) rfl (.inl rfl) hgood hroom rfl rfl rfl
  have hcnt : rescntSucc v = 1 := rescntSucc_of_zero rfl hroom
  refine ⟨t, finish (afterReply p more m' x w d r v), hexec, ?_, ?_, hframe⟩
  · rw [show 2 * noise.length + 2 * p.stream.length + 8 = (2 * noise.length + 4) + (2 * p.stream.length + 4) by omega,
      seqRun_add, hopened, hreply, decoded_of_single (.inr rfl)]
  · rw [afterReply, hcnt]
    simp [finish, v, sessionOpened, sessionAccepted, running, afterCommand, Instr.code, hs]

/-! ### RDALL (R211, R231, R233) -/

/-- The block after the last of several answered requests of RDALL. -/
def afterReplies (ps : List Reply) (p : Reply) (m x : Memory) (w d : List CtlAnswer) (r : List ReadAnswer) (s : State) :
    State :=
  { s with
    pc := .idle, done := true, txb := m, txlen := 9, txkind := 1, rxb := x, rxlen := BitVec.ofNat 9 p.frame.length,
    llen := BitVec.ofNat 8 (p.frame.length - 6), ncnt := BitVec.ofNat 9 p.stream.length, phase := true,
    fcbt := decide ((s.res.length + ps.length) % 2 = 1), more := false,
    res := s.res ++ ps.map (Reply.entry · true) ++ [p.entry false],
    rescnt := resCount s.params (s.res.length + ps.length + 1), writeAns := w, deadlineAns := d, readAns := r,
    wire := s.wire ++ requestLog s.params s.addr s.tmo s.res.length ((ps ++ [p]).map Reply.stream) }

/-- RES has room while it holds fewer entries than RES_CAP. -/
theorem resCap_ne_of_lt {s : State} (hcnt : s.rescnt = resCount s.params s.res.length)
    (hlt : ∀ cap, s.params.resCap = some cap → s.res.length < cap) : s.params.resCap ≠ some s.rescnt := by
  intro h
  have hn : s.rescnt = s.res.length := by rw [hcnt, resCount, h]
  exact absurd (hlt _ h) (by omega)

/-- Request `k + 1` has the other FCB than request `k` (R231). -/
theorem not_decide_odd (k : Nat) : (!decide (k % 2 = 1)) = decide ((k + 1) % 2 = 1) := by
  rw [Bool.eq_iff_iff]
  simp
  omega

/-- The block of RDALL before a request: FCBT and RESCNT fit the results so far. -/
structure BeforeRequest (s : State) : Prop where
  pc : s.pc = .reqBuild
  op : s.op = 0x41
  first : s.first = false
  fcbt : s.fcbt = decide (s.res.length % 2 = 1)
  rescnt : s.rescnt = resCount s.params s.res.length

section Replies

variable {q : Reply} {s : State} {w d : List CtlAnswer} {r : List ReadAnswer} (h : BeforeRequest s)
  (hroom : ∀ cap, s.params.resCap = some cap → s.res.length < cap) (hw : s.writeAns = .ok :: w)
  (hd : s.deadlineAns = List.replicate q.stream.length .ok ++ d) (hr : s.readAns = q.stream.map .byte ++ r)
include h hroom hw hd hr

/-- A reply in RDALL comes back to LOOP. -/
theorem BeforeRequest.seqRun_reply {more : Bool} (hgood : q.good s.params more) :
    ∃ m x, seqRun (2 * q.stream.length + 4) s = { afterReply q more m x w d r s with pc := .loop } ∧
      rxFrame (afterReply q more m x w d r s) = q.frame := by
  obtain ⟨m, x, hrun, hframe⟩ :=
    Machine.seqRun_reply h.pc (.inr h.op) hgood (resCap_ne_of_lt h.rescnt hroom) hw hd hr
  exact ⟨m, x, hrun.trans (decoded_of_rdall h.op), hframe⟩

/-- A reply that says more is followed by the next request. -/
theorem BeforeRequest.seqRun_more (hgood : q.good s.params true) :
    ∃ m x, let t : State := { afterReply q true m x w d r s with pc := .reqBuild, fcbt := !s.fcbt }
      seqRun (2 * q.stream.length + 5) s = t ∧ BeforeRequest t := by
  obtain ⟨m, x, hrun, -⟩ := h.seqRun_reply hroom hw hd hr hgood
  refine ⟨m, x, ?_, rfl, h.op, h.first, ?_, ?_⟩
  · rw [show 2 * q.stream.length + 5 = (2 * q.stream.length + 4) + 1 by omega, seqRun_add, hrun]
    exact seqStep_loop_again (s := { afterReply q true m x w d r s with pc := .loop }) rfl h.first rfl
  · simp [afterReply, h.fcbt, not_decide_odd]
  · simpa [afterReply] using rescntSucc_resCount h.rescnt hroom

/-- A reply that says no more ends RDALL. -/
theorem BeforeRequest.seqRun_last (hgood : q.good s.params false) :
    ∃ m x, seqRun (2 * q.stream.length + 5) s = afterReplies [] q m x w d r s ∧
      rxFrame (afterReplies [] q m x w d r s) = q.frame := by
  obtain ⟨m, x, hrun, hframe⟩ := h.seqRun_reply hroom hw hd hr hgood
  have hcnt := rescntSucc_resCount h.rescnt hroom
  refine ⟨m, x, ?_, hframe⟩
  have hdone := seqStep_loop_done (s := { afterReply q false m x w d r s with pc := .loop }) rfl h.first rfl
  rw [show 2 * q.stream.length + 5 = (2 * q.stream.length + 4) + 1 by omega, seqRun_add, hrun, seqRun, seqRun, hdone]
  simp [finish, afterReply, afterReplies, requestLog, hcnt, h.fcbt]

end Replies

/-- The replies after the first one are counted on from it. -/
theorem afterReplies_afterReply {q p : Reply} {ps : List Reply} {m x m' x' : Memory} {w w' d d' : List CtlAnswer}
    {r r' : List ReadAnswer} {s : State} (hf : s.fcbt = decide (s.res.length % 2 = 1)) :
    afterReplies ps p m' x' w' d' r' { afterReply q true m x w d r s with pc := .reqBuild, fcbt := !s.fcbt } =
      afterReplies (q :: ps) p m' x' w' d' r' s := by
  have hn : s.res.length + 1 + ps.length = s.res.length + (ps.length + 1) := by omega
  simp [afterReplies, afterReply, requestLog, hf, hn]

/-- The requests of RDALL, one per reply (R231). -/
theorem seqRun_replies (ps : List Reply) {p : Reply} {s : State} {w d : List CtlAnswer} {r : List ReadAnswer}
    (h : BeforeRequest s) (hps : ∀ q ∈ ps, q.good s.params true) (hgood : p.good s.params false)
    (hroom : ∀ cap, s.params.resCap = some cap → s.res.length + ps.length < cap)
    (hw : s.writeAns = List.replicate (ps.length + 1) .ok ++ w)
    (hd : s.deadlineAns = List.replicate ((ps ++ [p]).flatMap Reply.stream).length .ok ++ d)
    (hr : s.readAns = ((ps ++ [p]).flatMap Reply.stream).map .byte ++ r) :
    ∃ n m x, seqRun n s = afterReplies ps p m x w d r s ∧ rxFrame (afterReplies ps p m x w d r s) = p.frame := by
  induction ps generalizing s with
  | nil =>
    obtain ⟨m, x, hrun, hframe⟩ := h.seqRun_last hroom hw (by simpa using hd) (by simpa using hr) hgood
    exact ⟨_, m, x, hrun, hframe⟩
  | cons q ps ih =>
    rw [List.length_cons, List.replicate_succ, List.cons_append] at hw
    simp only [List.length_cons] at hroom
    rw [List.cons_append, List.flatMap_cons, List.length_append, List.replicate_add, List.append_assoc] at hd
    rw [List.cons_append, List.flatMap_cons, List.map_append, List.append_assoc] at hr
    obtain ⟨m, x, hrun, hnext⟩ := h.seqRun_more (fun cap hc => by have := hroom cap hc; omega)
      (w := List.replicate (ps.length + 1) .ok ++ w) hw hd hr (hps q (by simp))
    obtain ⟨n, m', x', hrest, hframe⟩ := ih hnext (fun q' hq => hps q' (by simp [hq])) hgood
      (fun cap hc => by have := hroom cap hc; simp [afterReply]; omega) rfl rfl rfl
    rw [afterReplies_afterReply h.fcbt] at hrest hframe
    exact ⟨_ + n, m', x', by rw [seqRun_add, hrun, hrest], hframe⟩

/-- Settles O40: the session opens, and its requests are answered one by one. -/
theorem readAllFramesRun : Obligations.ReadAllFramesRun := by
  intro s noise ps p w d r hs hb hps hgood hroom hw hd hr
  rw [List.replicate_succ, List.cons_append] at hw
  rw [List.replicate_add, List.append_assoc] at hd
  rw [List.map_append, List.append_assoc] at hr
  obtain ⟨t, m, hexec, hopened⟩ := exec_sessionOpened (.inr rfl) hs hb hw hd hr
  obtain ⟨n, m', x, hrun, hframe⟩ := seqRun_replies ps (s := sessionOpened .rdall m noise _ _ _ s) (w := w)
    (d := d) (r := r) ⟨rfl, rfl, rfl, rfl, (resCount_zero _).symm⟩ hps hgood
    (by simpa [sessionOpened, sessionAccepted, running] using hroom) rfl rfl rfl
  refine ⟨t, 2 * noise.length + 4 + n, _, hexec, by rw [seqRun_add, hopened, hrun], ?_, hframe⟩
  simp [afterReplies, sessionOpened, sessionAccepted, running, afterCommand, Instr.code, hs]

/-! ### The session's flags over every step (R222, R223, R231, R233) -/

/-- A request is being made or answered: RES holds the answers to the requests before it, which all say more. -/
structure RequestOpen (s : State) : Prop where
  first : s.first = false
  fcbt : s.fcbt = decide (s.res.length % 2 = 1)
  more : ∀ e ∈ s.res, e.more = true
  rd1 : s.op = Instr.rd1.code → s.res = []

/-- The last answer has been stored: FCBT is that of its request, MORE is its bit, the answers before it say more. -/
structure AnswerStored (s : State) : Prop where
  res : s.res ≠ []
  fcbt : s.fcbt = decide ((s.res.length - 1) % 2 = 1)
  last : s.res.getLast?.map ResEntry.more = some s.more
  before : ∀ e ∈ s.res.dropLast, e.more = true

/-- TXB holds the request whose FCB bit fits the answers so far. -/
def RequestInTxb (s : State) : Prop :=
  txFrame s = requestFrame s.params s.addr (decide (s.res.length % 2 = 1))

/-- What R233 says of a session that ended without error. -/
structure SessionEnded (s : State) : Prop extends AnswerStored s where
  first : s.first = false
  rd1 : s.op = Instr.rd1.code → s.res.length = 1
  rdall : s.op = Instr.rdall.code → s.more = false

/-- What `SessionOk` says of a session in the sequencer state `p`. -/
def FitsAt (p : Pc) (s : State) : Prop :=
  match p with
  | .txCmd | .ackArm | .ackRd => s.res = []
  | .loop =>
    (s.first = true → s.res = [] ∧ s.fcbt = false) ∧
    (s.first = false → s.op = Instr.rdall.code ∧ AnswerStored s)
  | .reqBuild | .lfArm | .lfRd | .verify | .decode => RequestOpen s
  | .txReq => RequestOpen s ∧ RequestInTxb s
  | .idle => s.done = true → s.errf = false → SessionEnded s

theorem requestOpen_iff (s : State) :
    RequestOpen s ↔ s.first = false ∧ s.fcbt = decide (s.res.length % 2 = 1) ∧ (∀ e ∈ s.res, e.more = true) ∧
      (s.op = Instr.rd1.code → s.res = []) :=
  ⟨fun ⟨h1, h2, h3, h4⟩ => ⟨h1, h2, h3, h4⟩, fun ⟨h1, h2, h3, h4⟩ => ⟨h1, h2, h3, h4⟩⟩

theorem answerStored_iff (s : State) :
    AnswerStored s ↔ s.res ≠ [] ∧ s.fcbt = decide ((s.res.length - 1) % 2 = 1) ∧
      (s.res.getLast?.map ResEntry.more) = some s.more ∧ ∀ e ∈ s.res.dropLast, e.more = true :=
  ⟨fun ⟨h1, h2, h3, h4⟩ => ⟨h1, h2, h3, h4⟩, fun ⟨h1, h2, h3, h4⟩ => ⟨h1, h2, h3, h4⟩⟩

theorem sessionEnded_iff (s : State) :
    SessionEnded s ↔ s.first = false ∧ s.res ≠ [] ∧ s.fcbt = decide ((s.res.length - 1) % 2 = 1) ∧
      (s.res.getLast?.map ResEntry.more) = some s.more ∧ (∀ e ∈ s.res.dropLast, e.more = true) ∧
      (s.op = Instr.rd1.code → s.res.length = 1) ∧ (s.op = Instr.rdall.code → s.more = false) :=
  ⟨fun ⟨⟨h1, h2, h3, h4⟩, h5, h6, h7⟩ => ⟨h5, h1, h2, h3, h4, h6, h7⟩,
    fun ⟨h5, h1, h2, h3, h4, h6, h7⟩ => ⟨⟨h1, h2, h3, h4⟩, h5, h6, h7⟩⟩

theorem sessionOk_iff (s : State) : SessionOk s ↔ (inReadOut s → FitsAt s.pc s) := by
  unfold SessionOk
  cases s.pc <;> simp only [FitsAt, requestOpen_iff, answerStored_iff, sessionEnded_iff, RequestInTxb, and_assoc]

theorem RequestOpen.congr {s t : State} (h : RequestOpen s) (hfirst : t.first = s.first) (hfcbt : t.fcbt = s.fcbt)
    (hres : t.res = s.res) (hop : t.op = s.op) : RequestOpen t := by
  rwa [requestOpen_iff, hfirst, hfcbt, hres, hop, ← requestOpen_iff]

theorem RequestOpen.scan {s t : State} (h : RequestOpen s) (hscan : SameButScanner s t) : RequestOpen t := by
  rw [hscan]
  exact h.congr rfl rfl rfl rfl

/-- Storing the answer ends the request. -/
theorem RequestOpen.appendRes {s : State} (h : RequestOpen s) (record : RecVal) (more : Bool) :
    AnswerStored (appendRes record more s) where
  res := by simp
  fcbt := by simpa using h.fcbt
  last := by simp
  before := by simpa using h.more

/-- An answer that says more opens the next request, with the other FCB (R223, R231). -/
theorem AnswerStored.next {s t : State} (h : AnswerStored s) (hmore : s.more = true) (hop : t.op = Instr.rdall.code)
    (hfirst : t.first = false) (hfcbt : t.fcbt = !s.fcbt) (hres : t.res = s.res) : RequestOpen t := by
  obtain ⟨hne, hparity, hlast, hbefore⟩ := h
  refine ⟨hfirst, ?_, fun e he => ?_, fun ho => ?_⟩
  · have hpos := List.length_pos_iff.2 hne
    rw [hfcbt, hres, hparity, not_decide_odd, Nat.sub_add_cancel hpos]
  · rw [hres, ← List.dropLast_append_getLast hne, List.mem_append, List.mem_singleton] at he
    rcases he with he | rfl
    · exact hbefore e he
    · simpa [List.getLast?_eq_getLast_of_ne_nil hne, hmore] using hlast
  · exact absurd (ho.symm.trans hop) (by decide)

/-- A step that raises is no ending without error. -/
theorem fitsAt_raise (k : ErrKind) (sub : Byte) (env : Nat) (s : State) :
    FitsAt (raise k sub env s).pc (raise k sub env s) := fun _ herrf => nomatch herrf

/-! #### The sequencer's steps in a session -/

section Steps

variable {s : State}

theorem fitsAt_stepTxCmd (hp : s.pc = .txCmd) (hop : inReadOut s) (h : s.res = []) :
    FitsAt (stepTxCmd s).pc (stepTxCmd s) := by
  rcases stepTxCmd_cases s with ⟨-, e⟩ | ⟨a, rest, u, -, rfl, ⟨-, ho, e⟩ | ⟨-, -, e⟩ | ⟨_, -, e⟩⟩ <;> rw [e]
  · rwa [hp]
  · rw [inReadOut, ho] at hop
    exact absurd hop (by decide)
  · exact h
  · exact fitsAt_raise _ _ _ _

theorem fitsAt_stepAckArm (hp : s.pc = .ackArm) (h : s.res = []) : FitsAt (stepAckArm s).pc (stepAckArm s) := by
  rcases stepAckArm_cases s with ⟨-, e⟩ | ⟨a, rest, u, -, rfl, ⟨-, e⟩ | ⟨_, -, e⟩⟩ <;> rw [e]
  · rwa [hp]
  · exact h
  · exact fitsAt_raise _ _ _ _

/-- The acknowledgement starts the session with FCBT clear (R222). -/
theorem fitsAt_stepAckRd (hp : s.pc = .ackRd) (hop : inReadOut s) (h : s.res = []) :
    FitsAt (stepAckRd s).pc (stepAckRd s) := by
  rcases stepAckRd_cases s with ⟨-, e⟩ | ⟨a, rest, u, -, rfl,
    ⟨-, -, e⟩ | ⟨-, ho, -⟩ | ⟨_, -, -, e⟩ | ⟨_, -, e⟩ | ⟨_, -, e⟩⟩
  · rwa [e, hp]
  · rw [e]
    exact ⟨fun _ => ⟨h, rfl⟩, nofun⟩
  · exact absurd hop ho
  · rw [e]
    exact h
  · exact e ▸ fitsAt_raise _ _ _ _
  · exact e ▸ fitsAt_raise _ _ _ _

theorem fitsAt_stepLoop (h : FitsAt .loop s) : FitsAt (stepLoop s).pc (stepLoop s) := by
  obtain ⟨hstart, hagain⟩ := h
  rcases stepLoop_cases s with ⟨hf, e⟩ | ⟨hf, hm, e⟩ | ⟨hf, hm, e⟩ <;> rw [e]
  · obtain ⟨hres, hfcbt⟩ := hstart hf
    exact ⟨rfl, by simp [hres, hfcbt], by simp [hres], fun _ => hres⟩
  · obtain ⟨hop, hstored⟩ := hagain hf
    exact hstored.next hm hop hf rfl rfl
  · obtain ⟨hop, hstored⟩ := hagain hf
    exact fun _ _ => ⟨⟨hstored.res, hstored.fcbt, hstored.last, hstored.before⟩, hf,
      fun ho => absurd (ho.symm.trans hop) (by decide), fun _ => hm⟩

theorem fitsAt_stepReqBuild (h : RequestOpen s) : FitsAt (stepReqBuild s).pc (stepReqBuild s) := by
  obtain ⟨m, hnext, hbytes⟩ := stepReqBuild_requested s
  rw [hnext]
  refine ⟨h.congr rfl rfl rfl rfl, ?_⟩
  rw [RequestInTxb, txFrame_requested hbytes, h.fcbt]
  rfl

theorem fitsAt_stepTxReq (hp : s.pc = .txReq) (h : FitsAt .txReq s) : FitsAt (stepTxReq s).pc (stepTxReq s) := by
  obtain ⟨hopen, -⟩ := id h
  rcases stepTxReq_cases s with ⟨-, e⟩ | ⟨a, rest, u, -, rfl, ⟨-, e⟩ | ⟨_, -, e⟩⟩ <;> rw [e]
  · rwa [hp]
  · exact hopen.congr rfl rfl rfl rfl
  · exact fitsAt_raise _ _ _ _

theorem fitsAt_stepLfArm (hp : s.pc = .lfArm) (h : RequestOpen s) : FitsAt (stepLfArm s).pc (stepLfArm s) := by
  rcases stepLfArm_cases s with ⟨-, e⟩ | ⟨a, rest, u, -, rfl, ⟨-, e⟩ | ⟨_, -, e⟩⟩ <;> rw [e]
  · rwa [hp]
  · exact h.congr rfl rfl rfl rfl
  · exact fitsAt_raise _ _ _ _

theorem fitsAt_lfIncomplete (h : RequestOpen s) : FitsAt (lfIncomplete s).pc (lfIncomplete s) := by
  rcases lfIncomplete_cases s with ⟨-, e⟩ | ⟨-, e⟩ <;> rw [e]
  · exact fitsAt_raise _ _ _ _
  · exact h.congr rfl rfl rfl rfl

theorem fitsAt_lfComplete (hop : inReadOut s) (h : RequestOpen s) : FitsAt (lfComplete s).pc (lfComplete s) := by
  rcases lfComplete_cases s with ⟨-, e⟩ | ⟨ho, -⟩
  · rw [e]
    exact h.congr rfl rfl rfl rfl
  · exact absurd hop ho

theorem fitsAt_scanByte (b : Byte) (hop : inReadOut s) (h : RequestOpen s) :
    FitsAt (scanByte b s).pc (scanByte b s) := by
  have hpush := sameButScanner_pushRx b s
  rcases scanByte_cases b s with ⟨-, e⟩ | ⟨-, -, e⟩ | ⟨-, -, e⟩ <;> rw [e]
  · exact fitsAt_lfIncomplete (h.scan (sameButScanner_searchByte b s))
  · refine fitsAt_lfComplete ?_ (h.scan hpush)
    rwa [inReadOut, hpush.sameStatus.op]
  · exact fitsAt_lfIncomplete (h.scan hpush)

theorem fitsAt_stepLfRd (hp : s.pc = .lfRd) (hop : inReadOut s) (h : RequestOpen s) :
    FitsAt (stepLfRd s).pc (stepLfRd s) := by
  rcases stepLfRd_cases s with ⟨-, e⟩ | ⟨a, rest, u, -, rfl, ⟨b, -, e⟩ | ⟨_, -, e⟩ | ⟨_, -, e⟩⟩ <;> rw [e]
  · rwa [hp]
  · exact fitsAt_scanByte b hop (h.congr rfl rfl rfl rfl)
  · exact fitsAt_raise _ _ _ _
  · exact fitsAt_raise _ _ _ _

theorem fitsAt_stepVerify (h : RequestOpen s) : FitsAt (stepVerify s).pc (stepVerify s) := by
  rcases stepVerify_cases s with ⟨-, e⟩ | ⟨-, -, e⟩ | ⟨-, -, e⟩ <;> rw [e]
  · exact fitsAt_raise _ _ _ _
  · exact fitsAt_raise _ _ _ _
  · exact h.congr rfl rfl rfl rfl

/-- The answer is stored; RDALL goes to LOOP with it, RD1 ends with it alone (R233). -/
theorem fitsAt_stepDecode (h : RequestOpen s) : FitsAt (stepDecode s).pc (stepDecode s) := by
  rcases stepDecode_cases s with ⟨_, -, e⟩ | ⟨record, more, -, ⟨-, e⟩ | ⟨-, ho, e⟩ | ⟨-, ho, e⟩⟩ <;> rw [e]
  · exact fitsAt_raise _ _ _ _
  · exact fitsAt_raise _ _ _ _
  all_goals obtain ⟨hres, hfcbt, hlast, hbefore⟩ := h.appendRes record more
  · exact ⟨fun hf => absurd (h.first.symm.trans hf) nofun, fun _ => ⟨ho, hres, hfcbt, hlast, hbefore⟩⟩
  · refine fun _ _ => ⟨⟨hres, hfcbt, hlast, hbefore⟩, h.first, fun hrd1 => ?_, fun hrdall => absurd hrdall ho⟩
    rw [finish_res, appendRes_res, h.rd1 hrd1]
    rfl

end Steps

/-- Two commands have two codes (R110). -/
theorem code_injective {i j : Instr} (h : i.code = j.code) : i = j :=
  Option.some.inj (((decodeCode_eq_some_iff _ i).2 rfl).symm.trans ((decodeCode_eq_some_iff _ j).2 h))

namespace SessionOk

variable {s t : State}

theorem of_command (hop : ¬inReadOut s) : SessionOk s := fun hread => absurd hread hop

theorem fits {p : Pc} (h : SessionOk s) (hop : inReadOut s) (hp : s.pc = p) : FitsAt p s :=
  hp ▸ (sessionOk_iff s).1 h hop

theorem of_raise (k : ErrKind) (sub : Byte) (env : Nat) (s : State) : SessionOk (raise k sub env s) :=
  (sessionOk_iff _).2 fun _ => fitsAt_raise k sub env s

/-- In IDLE the invariant looks at neither the operands nor TXB. -/
theorem inputs (h : SessionOk s) (hp : s.pc = .idle) (a g s0 s1 s2 s3 : Byte) (tm : Nat) (m : Memory) (tl : Count)
    (tk : BitVec 1) :
    SessionOk { s with addr := a, arg := g, sec0 := s0, sec1 := s1, sec2 := s2, sec3 := s3, tmo := tm, txb := m,
                       txlen := tl, txkind := tk } := by
  unfold SessionOk at h ⊢
  simp only [hp] at h ⊢
  exact h

theorem seqStep (h : SessionOk s) : SessionOk (seqStep s) := by
  by_cases hop : inReadOut s
  · have hfits {p : Pc} (hp : s.pc = p) : FitsAt p s := h.fits hop hp
    refine (sessionOk_iff _).2 fun _ => ?_
    cases hp : s.pc with
    | idle => exact (seqStep_idle hp).symm ▸ hfits rfl
    | txCmd => exact seqStep_txCmd hp ▸ fitsAt_stepTxCmd hp hop (hfits hp)
    | ackArm => exact seqStep_ackArm hp ▸ fitsAt_stepAckArm hp (hfits hp)
    | ackRd => exact seqStep_ackRd hp ▸ fitsAt_stepAckRd hp hop (hfits hp)
    | loop => exact seqStep_loop hp ▸ fitsAt_stepLoop (hfits hp)
    | reqBuild => exact seqStep_reqBuild hp ▸ fitsAt_stepReqBuild (hfits hp)
    | txReq => exact seqStep_txReq hp ▸ fitsAt_stepTxReq hp (hfits hp)
    | lfArm => exact seqStep_lfArm hp ▸ fitsAt_stepLfArm hp (hfits hp)
    | lfRd => exact seqStep_lfRd hp ▸ fitsAt_stepLfRd hp hop (hfits hp)
    | verify => exact seqStep_verify hp ▸ fitsAt_stepVerify (hfits hp)
    | decode => exact seqStep_decode hp ▸ fitsAt_stepDecode (hfits hp)
  · exact of_command (by rwa [inReadOut, seqStep_op])

/-- RD1 and RDALL begin with RES empty (R212); the other commands are no session. -/
theorem acceptOf (i : Instr) (s : State) : SessionOk (acceptOf i (accept i.code s)) := by
  by_cases hi : i = .rd1 ∨ i = .rdall
  · obtain ⟨m, hnext, -⟩ := sessionInit_accept i s
    have haccept : Machine.acceptOf i = sessionInit := by rcases hi with rfl | rfl <;> rfl
    rw [haccept, hnext, sessionOk_iff]
    exact fun _ => rfl
  · refine of_command fun hop => hi ?_
    rw [inReadOut, (acceptOf_ends i _).op] at hop
    exact hop.imp (code_injective ·) (code_injective ·)

end SessionOk

/-- Settles O59: the invariant through the package of Laws/Step.lean. -/
theorem stepKeepsSessionRight : Obligations.StepKeepsSessionRight :=
  step_keeps SessionOk
    (hHost := fun _ _ _ _ h => h)
    (hSeq := fun _ h => h.seqStep)
    (hBusy := fun _ _ h => h)
    (hAccept := fun i s _ _ => .acceptOf i s)
    (hIllegal := fun _ _ _ _ => .of_raise _ _ _ _)
    (hReg := fun r v s hp h => by
      obtain ⟨_, _, _, _, _, _, _, _, _, e⟩ := storeReg_cases r v s
      exact e ▸ h.inputs hp _ _ _ _ _ _ _ _ _ _)
    (hTx := fun i b s hp h => by
      rw [writeTx_frame]
      exact h.inputs hp _ _ _ _ _ _ _ _ _ _)
    (hReset := fun _ _ => .of_command (show ¬((0 : Byte) = Instr.rd1.code ∨ (0 : Byte) = Instr.rdall.code) by decide))

end Sys2Proof.Machine
end

section
/-! PROOF. The exceptions family (60_exceptions.md): what `raise` and `finish` write, and a step that ends a command
(O41). -/

namespace Sys2Proof.Machine

/-! ### What the abort writes (60_exceptions.md R250) -/

section Abort

variable {s : State} (k : ErrKind) (sub : Byte) (env : Nat)

theorem raise_of_fillsRes (h : fillsRes s.op = true) :
    raise k sub env s = { s with
      err := k.code, errsub := sub, errenv := env % 2 ^ s.params.envW, errf := true, done := true,
      res := [], rescnt := 0, pc := .idle } := by
  simp only [raise, if_pos h]

theorem raise_of_not_fillsRes (h : ¬fillsRes s.op = true) :
    raise k sub env s = { s with
      err := k.code, errsub := sub, errenv := env % 2 ^ s.params.envW, errf := true, done := true, pc := .idle } := by
  simp only [raise, if_neg h]

end Abort

/-! ### A step that ends a command (R250, R255)

A step from a busy state leaves the block busy, or goes to IDLE through `finish` or `raise`, and both set DONE. This
needs no assumption on the command that is running. -/

/-- If the block is idle, its command has ended. -/
def DoneIfIdle (t : State) : Prop := t.pc = .idle → t.done = true

namespace DoneIfIdle

variable {s : State}

theorem of_busy (hbusy : s.pc ≠ .idle) : DoneIfIdle s := fun hidle => absurd hidle hbusy

theorem finish : DoneIfIdle (finish s) := fun _ => finish_done s

theorem raise {k : ErrKind} {sub : Byte} {env : Nat} : DoneIfIdle (raise k sub env s) :=
  fun _ => raise_done k sub env s

theorem stepTxCmd (hp : s.pc = .txCmd) : DoneIfIdle (stepTxCmd s) := by
  rcases stepTxCmd_cases s with ⟨-, e⟩ | ⟨_, _, _, -, -, ⟨-, -, e⟩ | ⟨-, -, e⟩ | ⟨_, -, e⟩⟩ <;> rw [e]
  · exact of_busy (by simp [hp])
  · exact finish
  · exact of_busy (by simp)
  · exact raise

theorem stepAckArm (hp : s.pc = .ackArm) : DoneIfIdle (stepAckArm s) := by
  rcases stepAckArm_cases s with ⟨-, e⟩ | ⟨_, _, _, -, -, ⟨-, e⟩ | ⟨_, -, e⟩⟩ <;> rw [e]
  · exact of_busy (by simp [hp])
  · exact of_busy (by simp)
  · exact raise

theorem stepAckRd (hp : s.pc = .ackRd) : DoneIfIdle (stepAckRd s) := by
  rcases stepAckRd_cases s with ⟨-, e⟩ | ⟨_, _, _, -, -,
    ⟨-, -, e⟩ | ⟨-, -, e⟩ | ⟨_, -, -, e⟩ | ⟨_, -, e⟩ | ⟨_, -, e⟩⟩ <;> rw [e]
  · exact of_busy (by simp [hp])
  · exact of_busy (by simp)
  · exact finish
  · exact of_busy (by simp)
  · exact raise
  · exact raise

theorem stepLoop (s : State) : DoneIfIdle (stepLoop s) := by
  rcases stepLoop_cases s with ⟨-, e⟩ | ⟨-, -, e⟩ | ⟨-, -, e⟩ <;> rw [e]
  · exact of_busy (by simp)
  · exact of_busy (by simp)
  · exact finish

theorem stepTxReq (hp : s.pc = .txReq) : DoneIfIdle (stepTxReq s) := by
  rcases stepTxReq_cases s with ⟨-, e⟩ | ⟨_, _, _, -, -, ⟨-, e⟩ | ⟨_, -, e⟩⟩ <;> rw [e]
  · exact of_busy (by simp [hp])
  · exact of_busy (by simp)
  · exact raise

theorem stepLfArm (hp : s.pc = .lfArm) : DoneIfIdle (stepLfArm s) := by
  rcases stepLfArm_cases s with ⟨-, e⟩ | ⟨_, _, _, -, -, ⟨-, e⟩ | ⟨_, -, e⟩⟩ <;> rw [e]
  · exact of_busy (by simp [hp])
  · exact of_busy (by simp)
  · exact raise

theorem lfIncomplete (s : State) : DoneIfIdle (lfIncomplete s) := by
  rcases lfIncomplete_cases s with ⟨-, e⟩ | ⟨-, e⟩ <;> rw [e]
  · exact raise
  · exact of_busy (by simp)

theorem lfComplete (s : State) : DoneIfIdle (lfComplete s) := by
  rcases lfComplete_cases s with ⟨-, e⟩ | ⟨-, e⟩ <;> rw [e]
  · exact of_busy (by simp)
  · exact finish

theorem scanByte (b : Byte) (s : State) : DoneIfIdle (scanByte b s) := by
  rcases scanByte_cases b s with ⟨-, e⟩ | ⟨-, -, e⟩ | ⟨-, -, e⟩ <;> rw [e]
  · exact lfIncomplete _
  · exact lfComplete _
  · exact lfIncomplete _

theorem stepLfRd (hp : s.pc = .lfRd) : DoneIfIdle (stepLfRd s) := by
  rcases stepLfRd_cases s with ⟨-, e⟩ | ⟨_, _, _, -, -, ⟨b, -, e⟩ | ⟨_, -, e⟩ | ⟨_, -, e⟩⟩ <;> rw [e]
  · exact of_busy (by simp [hp])
  · exact scanByte b _
  · exact raise
  · exact raise

theorem stepVerify (s : State) : DoneIfIdle (stepVerify s) := by
  rcases stepVerify_cases s with ⟨-, e⟩ | ⟨-, -, e⟩ | ⟨-, -, e⟩ <;> rw [e]
  · exact raise
  · exact raise
  · exact of_busy (by simp)

theorem stepDecode (s : State) : DoneIfIdle (stepDecode s) := by
  rcases stepDecode_cases s with ⟨_, -, e⟩ | ⟨_, _, -, ⟨-, e⟩ | ⟨-, -, e⟩ | ⟨-, -, e⟩⟩ <;> rw [e]
  · exact raise
  · exact raise
  · exact of_busy (by simp)
  · exact finish

theorem seqStep (hbusy : s.pc ≠ .idle) : DoneIfIdle (seqStep s) := by
  cases hp : s.pc with
  | idle => exact absurd hp hbusy
  | txCmd => exact seqStep_txCmd hp ▸ stepTxCmd hp
  | ackArm => exact seqStep_ackArm hp ▸ stepAckArm hp
  | ackRd => exact seqStep_ackRd hp ▸ stepAckRd hp
  | loop => exact seqStep_loop hp ▸ stepLoop s
  | reqBuild => exact seqStep_reqBuild hp ▸ of_busy nofun
  | txReq => exact seqStep_txReq hp ▸ stepTxReq hp
  | lfArm => exact seqStep_lfArm hp ▸ stepLfArm hp
  | lfRd => exact seqStep_lfRd hp ▸ stepLfRd hp
  | verify => exact seqStep_verify hp ▸ stepVerify s
  | decode => exact seqStep_decode hp ▸ stepDecode s

end DoneIfIdle

/-- Of the rows of R242 the one without error alone has ERR 0. -/
theorem errorRows_of_no_error : ∀ r ∈ errorRows, r.1 = 0 → r.2.1 = 0 ∧ r.2.2 = false := by simp [errorRows]

/-- Without ERRF the error registers are as the acceptance left them (R255). -/
theorem ErrorsOk.clear_of_no_errf {s : State} (h : ErrorsOk s) (hf : s.errf = false) :
    s.err = 0 ∧ s.errsub = 0 ∧ s.errenv = 0 := by
  obtain ⟨⟨r, hr, herr, hsub, henv⟩, hflag, -, -⟩ := h
  have hzero : s.err = 0 := not_not.1 (mt hflag.2 (by simp [hf]))
  obtain ⟨hsub0, henv0⟩ := errorRows_of_no_error r hr (herr ▸ hzero)
  exact ⟨hzero, hsub.trans hsub0, henv henv0⟩

/-- Settles O41: the abort by whether the command fills RES; the step's error registers by the invariant it keeps. -/
theorem raiseAndFinish : Obligations.RaiseAndFinish :=
  ⟨fun k sub env s =>
      ⟨fun hop => raise_of_fillsRes k sub env ((fillsRes_iff s.op).2 hop),
        fun hop => raise_of_not_fillsRes k sub env (mt (fillsRes_iff s.op).1 hop)⟩,
    rfl, rfl, rfl, rfl, rfl, rfl, rfl,
    fun _ => rfl,
    fun _ herrors hbusy hidle => ⟨DoneIfIdle.seqStep hbusy hidle, herrors.seqStep.clear_of_no_errf⟩⟩

end Sys2Proof.Machine
end

section
/-! PROOF. The reset family (70_reset_and_hazards.md): hardware reset (O44), and which commands always end (O30). -/

namespace Sys2Proof.Machine

/-! ### Hardware reset (R281) -/

/-- Hardware reset gives the flags of `State.reset`. -/
theorem status_hwReset (s : State) : status (hwReset s) = 0 := by
  obtain ⟨-, hstatus, -⟩ := resetState
  exact hstatus

/-- Settles O44: the host's move is the step, and reset reads nothing of the command that was running. -/
theorem hardwareResetEndsACommand : Obligations.HardwareResetEndsACommand := fun s rest hm =>
  ⟨hwReset { s with moves := rest }, step_of_move hm, rfl, status_hwReset _, rfl, rfl, rfl, rfl, rfl, rfl, rfl, rfl,
    rfl, rfl, rfl, rfl, rfl, rfl, rfl, rfl, rfl, rfl⟩

/-! ### The commands that end (R311) -/

/-- A command that has ended stays ended. -/
theorem seqRun_pc_of_ended {m : Nat} {s : State} (n : Nat) (h : (seqRun m s).pc = .idle) :
    (seqRun (m + n) s).pc = .idle := by
  rw [seqRun_add, seqRun_idle n h, h]

/-- VERIFY and DECODE end the command DECODE (43_decode.md R203, R204). -/
theorem seqRun_decodeCommand_pc {s : State} (hp : s.pc = .verify) (ho : s.op = 0x30) : (seqRun 2 s).pc = .idle := by
  have hverify : (seqStep s).pc = .idle ∨ (seqStep s).pc = .decode := by
    rw [seqStep_verify_pc hp]
    exact (em _).imp (if_pos ·) (if_neg ·)
  rcases hverify with hended | hdecode
  · exact seqRun_pc_of_ended (m := 1) 1 hended
  · change (seqStep (seqStep s)).pc = .idle
    have hop : (seqStep s).op ≠ 0x41 := by rw [seqStep_op, ho]; decide
    rw [seqStep_decode_pc hdecode]
    split
    · rfl
    · exact if_pos (.inr hop)

theorem decodeCommand_ends {s t : State} (hs : s.pc = .idle) (ht : exec .decode s = .next t) :
    (seqRun 2 t).pc = .idle := by
  cases (exec_of_idle .decode hs).symm.trans ht
  have hop : (acceptDecode (accept 0x30 s)).op = 0x30 := (acceptOf_ends .decode (accept 0x30 s)).op
  rcases acceptDecode_cases (accept 0x30 s) with ⟨-, e⟩ | ⟨-, e⟩
  · exact seqRun_pc_of_ended (m := 0) 2 (congrArg State.pc e)
  · exact seqRun_decodeCommand_pc (congrArg State.pc e) hop

theorem send_ends {s t : State} (hs : s.pc = .idle) (hw : s.writeAns ≠ []) (ht : exec .send s = .next t) :
    (seqRun 1 t).pc = .idle := by
  obtain ⟨haccept, -, -⟩ := transitionTable
  have hpc := haccept .send s t hs ht
  dsimp only at hpc
  split at hpc
  · obtain ⟨hop, -, hans, -⟩ := sending_of_exec_send hs ht hpc
    change (seqStep t).pc = .idle
    rw [seqStep_txCmd_pc hpc, hans]
    split
    · exact absurd ‹_› hw
    · exact if_pos hop
    · rfl
  · exact seqRun_pc_of_ended (m := 0) 1 hpc

/-! ### RDLONG ends at the bound (42_transport_io.md R178) -/

/-- RDLONG in LF_ARM, at most `n + 1` bytes from the bound, with the answers for as many. -/
structure BytesLeft (n : Nat) (s : State) : Prop where
  pc : s.pc = .lfArm
  op : s.op = 0x22
  bound : s.ncnt.toNat + n = 256
  deadlines : n < s.deadlineAns.length
  reads : n < s.readAns.length

/-- The scan of `s` took a byte and goes on in LF_ARM. -/
structure ScansOn (s t : State) : Prop where
  pc : t.pc = .lfArm
  op : t.op = s.op
  deadlines : t.deadlineAns = s.deadlineAns
  reads : t.readAns = s.readAns
  count : t.ncnt.toNat = s.ncnt.toNat + 1
  bound : t.ncnt.toNat ≤ 256

theorem lfIncomplete_ends_or_scansOn {s u : State} (hu : SameButScanner s u) (hcnt : u.ncnt = s.ncnt + 1)
    (hn : s.ncnt.toNat ≤ 256) : (lfIncomplete u).pc = .idle ∨ ScansOn s (lfIncomplete u) := by
  have hop : u.op = s.op := by rw [hu]
  have hdeadlines : u.deadlineAns = s.deadlineAns := by rw [hu]
  have hreads : u.readAns = s.readAns := by rw [hu]
  have hcount : u.ncnt.toNat = s.ncnt.toNat + 1 := by rw [hcnt, toNat_succ_of_le (by omega)]
  rcases lfIncomplete_cases u with ⟨-, e⟩ | ⟨hle, e⟩ <;> rw [e]
  · exact .inl rfl
  · exact .inr ⟨rfl, hop, hdeadlines, hreads, hcount, hle⟩

/-- For RDLONG a complete frame is the end (R179). -/
theorem scanByte_ends_or_scansOn (b : Byte) {s : State} (ho : s.op = 0x22) (hn : s.ncnt.toNat ≤ 256) :
    (scanByte b s).pc = .idle ∨ ScansOn s (scanByte b s) := by
  rcases scanByte_cases b s with ⟨-, e⟩ | ⟨-, -, e⟩ | ⟨-, -, e⟩ <;> rw [e]
  · exact lfIncomplete_ends_or_scansOn (sameButScanner_searchByte b s) (searchByte_ncnt ..) hn
  · have hop : (pushRx b (countByte s)).op = 0x22 := (pushRx_op ..).trans ho
    exact .inl (congrArg State.pc (lfComplete_of_rdlong hop))
  · exact lfIncomplete_ends_or_scansOn (sameButScanner_pushRx b s) (pushRx_ncnt ..) hn

/-- LF_ARM and LF_RD, both answered, end RDLONG or leave a byte less to come. -/
theorem BytesLeft.seqRun_two {n : Nat} {s : State} (h : BytesLeft n s) :
    (seqRun 2 s).pc = .idle ∨ ∃ m, n = m + 1 ∧ BytesLeft m (seqRun 2 s) := by
  obtain ⟨hp, ho, hbound, hdl, hrl⟩ := h
  obtain ⟨a, d, hd⟩ := List.exists_cons_of_length_pos (Nat.zero_lt_of_lt hdl)
  obtain ⟨x, r, hr⟩ := List.exists_cons_of_length_pos (Nat.zero_lt_of_lt hrl)
  cases a with
  | err e => exact .inl (seqRun_pc_of_ended (m := 1) 1 (congrArg State.pc (seqStep_lfArm_err hp hd)))
  | ok =>
    have harmed : seqRun 2 s = seqStep (armed d .lfRd s) := congrArg seqStep (seqStep_lfArm_ok hp hd)
    cases x with
    | timeout e => exact .inl (congrArg State.pc (harmed.trans (seqStep_lfRd_timeout (s := armed d .lfRd s) rfl hr)))
    | err e => exact .inl (congrArg State.pc (harmed.trans (seqStep_lfRd_err (s := armed d .lfRd s) rfl hr)))
    | byte b =>
      have hcount : s.ncnt.toNat ≤ 256 := by omega
      have hscan := scanByte_ends_or_scansOn b (s := fed (.byte b) r .lfRd (armed d .lfRd s)) ho hcount
      rw [← scanPair hp hd hr] at hscan
      refine hscan.imp_right fun ⟨hpc, hop, hdeadlines, hreads, hcnt, hle⟩ => ?_
      have hcnt : (seqRun 2 s).ncnt.toNat = s.ncnt.toNat + 1 := hcnt
      have hdlen : s.deadlineAns.length = (seqRun 2 s).deadlineAns.length + 1 := by rw [hd, hdeadlines]; rfl
      have hrlen : s.readAns.length = (seqRun 2 s).readAns.length + 1 := by rw [hr, hreads]; rfl
      exact ⟨n - 1, by omega, hpc, hop.trans ho, by omega, by omega, by omega⟩

/-- RDLONG ends within two steps for each byte that is left. -/
theorem BytesLeft.ends {n : Nat} {s : State} (h : BytesLeft n s) : (seqRun (2 * (n + 1)) s).pc = .idle := by
  induction n generalizing s with
  | zero =>
    rcases h.seqRun_two with hended | ⟨m, hm, -⟩
    · exact hended
    · omega
  | succ n ih =>
    rw [show 2 * (n + 1 + 1) = 2 + 2 * (n + 1) by omega]
    rcases h.seqRun_two with hended | ⟨m, hm, hleft⟩
    · exact seqRun_pc_of_ended _ hended
    · obtain rfl : n = m := by omega
      rw [seqRun_add]
      exact ih hleft

theorem rdlong_ends {s t : State} (hs : s.pc = .idle) (hd : 257 ≤ s.deadlineAns.length) (hr : 257 ≤ s.readAns.length)
    (ht : exec .rdlong s = .next t) : (seqRun (2 * 257) t).pc = .idle := by
  cases (exec_of_idle .rdlong hs).symm.trans ht
  exact BytesLeft.ends (n := 256) ⟨rfl, rfl, rfl, hd, hr⟩

/-! ### The commands that need not end (R294) -/

/-- After `n` steps the block is still busy, and every one of them was answered. -/
def BusyAfter (n : Nat) (s : State) : Prop :=
  (seqRun n s).pc ≠ .idle ∧ (seqRun n s).wire.length = s.wire.length + n

theorem BusyAfter.zero {s : State} (h : s.pc ≠ .idle) : BusyAfter 0 s := ⟨h, rfl⟩

/-- Answered steps put before a run. -/
theorem BusyAfter.prepend {m n : Nat} {s u : State} (hu : seqRun m s = u) (hw : u.wire.length = s.wire.length + m)
    (h : BusyAfter n u) : BusyAfter (m + n) s := by
  subst hu
  obtain ⟨hbusy, hlen⟩ := h
  rw [← seqRun_add] at hbusy hlen
  exact ⟨hbusy, by omega⟩

/-- The transport gives noise: for at least `n` more bytes it acknowledges the deadline and reads no 0xE5. -/
def Noisy (n : Nat) (s : State) : Prop :=
  ∃ k, n ≤ k ∧ s.deadlineAns = List.replicate k .ok ∧ s.readAns = List.replicate k (.byte 0)

/-- The acknowledgement wait lasts as long as the noise (R294). -/
theorem ackWait_busyAfter {n : Nat} {s : State} (hp : s.pc = .ackArm) (h : Noisy n s) : BusyAfter n s := by
  obtain ⟨k, hk, hd, hr⟩ := h
  induction n using Nat.twoStepInduction generalizing k s with
  | zero => exact .zero (by simp [hp])
  | one =>
    obtain ⟨k, rfl⟩ := Nat.exists_eq_add_of_le' hk
    exact .prepend (m := 1) (seqStep_ackArm_ok hp hd) (by simp [armed]) (.zero nofun)
  | more n ih _ =>
    obtain ⟨k, rfl⟩ := Nat.exists_eq_add_of_le' (Nat.le_of_add_left_le hk)
    rw [Nat.add_comm]
    exact .prepend (ackPair hp hd hr (by decide)) (by simp [fed, armed]) (ih rfl (k + 1) (by omega) rfl rfl)

/-- A command of which TX_CMD writes the frame, in noise. -/
theorem txCmd_busyAfter {n : Nat} {s : State} {w : List CtlAnswer} (hp : s.pc = .txCmd) (ho : s.op ≠ Instr.send.code)
    (hw : s.writeAns = .ok :: w) (h : Noisy n s) : BusyAfter n s := by
  cases n with
  | zero => exact .zero (by simp [hp])
  | succ n =>
    obtain ⟨k, hk, hd, hr⟩ := h
    rw [Nat.add_comm]
    exact .prepend (m := 1) (seqStep_txCmd_ok hp hw ho) (by simp [sent])
      (ackWait_busyAfter rfl ⟨k, by omega, hd, hr⟩)

/-- An idle block whose transport takes one frame and then gives noise, answering `n` deadlines and reads. -/
def idleInNoise (n : Nat) : State :=
  { State.reset with
    writeAns := [.ok], deadlineAns := List.replicate n .ok, readAns := List.replicate n (.byte 0) }

/-- Each command with an acknowledgement wait is still busy after `n` answered steps. -/
theorem exec_idleInNoise (n : Nat) {i : Instr} (hi : i ∈ [Instr.rdack, .pagechg, .rd1, .rdall]) :
    ∃ t, exec i (idleInNoise n) = .next t ∧ t.wire = (idleInNoise n).wire ∧ BusyAfter n t := by
  have session (i : Instr) (hi : i = .rd1 ∨ i = .rdall) :
      ∃ t, exec i (idleInNoise n) = .next t ∧ t.wire = (idleInNoise n).wire ∧ BusyAfter n t := by
    obtain ⟨m, hexec, -⟩ := exec_session (s := idleInNoise n) hi rfl
    have hop : i.code ≠ Instr.send.code := by rcases hi with rfl | rfl <;> decide
    exact ⟨_, hexec, rfl, txCmd_busyAfter rfl hop rfl ⟨n, Nat.le_refl n, rfl, rfl⟩⟩
  cases i with
  | rdack => exact ⟨_, exec_of_idle .rdack rfl, rfl, ackWait_busyAfter rfl ⟨n, Nat.le_refl n, rfl, rfl⟩⟩
  | pagechg =>
    obtain ⟨m, hexec, -⟩ := exec_pagechg (s := idleInNoise n) rfl
    exact ⟨_, hexec, rfl, txCmd_busyAfter rfl (show (0x42 : Byte) ≠ Instr.send.code by decide) rfl
      ⟨n, Nat.le_refl n, rfl, rfl⟩⟩
  | rd1 => exact session .rd1 (.inl rfl)
  | rdall => exact session .rdall (.inr rfl)
  | _ => exact absurd hi (by decide)

/-- Settles O30: the commands that end in their acceptance, DECODE, SEND, RDLONG, and those that noise keeps busy. -/
theorem terminationBounds : Obligations.TerminationBounds := by
  refine ⟨fun i hi s t hs ht => ?_, fun s t hs ht => ⟨2, Nat.le_refl 2, decodeCommand_ends hs ht⟩,
    fun s t hs hw ht => ⟨1, Nat.le_refl 1, send_ends hs hw ht⟩,
    fun s t hs hd hr ht => ⟨2 * 257, Nat.le_refl _, rdlong_ends hs hd hr ht⟩, fun i hi n => ?_⟩
  · obtain ⟨haccept, -, -⟩ := transitionTable
    have hpc := haccept i s t hs ht
    cases i with
    | setcs | setlen | getfcb | setfcb | bldNke | bldApprst | bldReq | bldPage | bldSetsec | bldSetpri => exact hpc
    | send | rdack | rdlong | decode | rd1 | rdall | pagechg => exact absurd hi (by decide)
  · obtain ⟨t, hexec, hwire, hbusy, hlen⟩ := exec_idleInNoise n hi
    exact ⟨idleInNoise n, t, rfl, hexec, hbusy, hwire ▸ hlen⟩

end Sys2Proof.Machine
end
